-- ==== Sys2Proof/Word.lean ====
section
/-! DEFINITION. The plain data of the spec: bytes, request words, line levels, trace events
(00_scope.md R7, R8; 10_state.md R20, R22). -/

namespace Sys2Proof

/-- A byte, 8 bits (R7). -/
abbrev Byte := BitVec 8

/-- A request word, 16 bits (R60), and the width of the operand registers (R11, R12). -/
abbrev Word := BitVec 16

/-- A line level, written 0 (low) and 1 (high) (R8, R20). -/
inductive Level
  | low
  | high
  deriving DecidableEq, Repr, Inhabited

/-- The other level: `1 - v` in the notation of R94. -/
def Level.other : Level → Level
  | .low => .high
  | .high => .low

/-- The two output lines (R20). The block never drives BUSY (R81). -/
inductive OutLine
  | rst
  | dc
  deriving DecidableEq, Repr

/-- An event of the trace (R22). -/
inductive Event
  /-- `Set(l, v)`: line `l` was driven to level `v`. -/
  | set (l : OutLine) (v : Level)
  /-- `Rd(BUSY, v)`: BUSY was sampled and read `v`. -/
  | rd (v : Level)
  /-- `Wr(b)`: byte `b` was shifted out. -/
  | wr (b : Byte)
  /-- `Slp(ms)`: a delay of at least `ms` milliseconds. -/
  | slp (ms : Nat)
  deriving DecidableEq, Repr

end Sys2Proof
end

