-- ==== Sys2Proof/Config.lean ====
section
/-! DEFINITION. The parameters of 00_scope.md R6: the fixed ones as constants, the OPEN ones as a
structure whose value for the machine has no body, and the free values of the environment. -/

namespace Sys2Proof

/-- The five waveform sequences, in the order in which the spec lists and sends them (R26, R103). -/
inductive LutKey
  | vcom
  | ww
  | bw
  | wb
  | bb
  deriving DecidableEq, Repr

/-- One item of the initialisation script (R100). -/
inductive ScriptItem
  /-- `Cmd(b)`: send command frame `b`. -/
  | cmd (b : Byte)
  /-- `Dat(b)`: send data frame `b`. -/
  | dat (b : Byte)
  /-- `Wait`: perform WAIT_IDLE. -/
  | wait
  /-- `Delay(ms)`: perform Sleep(ms). -/
  | delay (ms : Nat)
  deriving DecidableEq, Repr

/-- One value per waveform sequence: the register-select bytes, or one table set (R26, R68). -/
structure Lut (α : Type) where
  vcom : α
  ww : α
  bw : α
  wb : α
  bb : α
  deriving DecidableEq, Repr, Inhabited

/-- The entry for one key. -/
def Lut.at {α : Type} (t : Lut α) : LutKey → α
  | .vcom => t.vcom
  | .ww => t.ww
  | .bw => t.bw
  | .wb => t.wb
  | .bb => t.bb

/-- The OPEN parameters of R6: the spec requires them to exist and gives no value. SER_BIT_ORDER,
SER_MODE, pin and device numbers lie below the model: no rule reads them (log 14). -/
structure Params where
  /-- CMD_LEVEL, the level of DC for a command (D4). -/
  cmdLevel : Level
  /-- IDLE_LEVEL, the level of BUSY that means idle (D5). -/
  idleLevel : Level
  /-- CMD_DEEP_SLEEP. -/
  cmdDeepSleep : Byte
  /-- SLEEP_CHECK. -/
  sleepCheck : Byte
  /-- CMD_DTX1. -/
  cmdDtx1 : Byte
  /-- CMD_DTX2. -/
  cmdDtx2 : Byte
  /-- CMD_REFRESH. -/
  cmdRefresh : Byte
  /-- CMD_PDTX1. -/
  cmdPdtx1 : Byte
  /-- CMD_PDTX2. -/
  cmdPdtx2 : Byte
  /-- CMD_PREFRESH. -/
  cmdPrefresh : Byte
  /-- CMD_LUT[k]. -/
  cmdLut : Lut Byte
  /-- LUT_NORMAL[k]. -/
  lutNormal : Lut (List Byte)
  /-- LUT_FAST[k]. -/
  lutFast : Lut (List Byte)
  /-- INIT_SCRIPT (R100). -/
  initScript : List ScriptItem
  deriving DecidableEq, Repr, Inhabited

/-- DATA_LEVEL. R6 requires it distinct from CMD_LEVEL, and there are two levels (DEDUCED, log 13). -/
def Params.dataLevel (p : Params) : Level := p.cmdLevel.other

/-- The level of BUSY that is not IDLE_LEVEL: `busy` in R94. -/
def Params.busyLevel (p : Params) : Level := p.idleLevel.other

/-- LUT_FAST or LUT_NORMAL (R103). -/
def Params.lutSet (p : Params) (fast : Bool) : Lut (List Byte) :=
  if fast then p.lutFast else p.lutNormal

/-- WIDTH (R6). -/
abbrev Config.width : Nat := 176

/-- HEIGHT (R6). -/
abbrev Config.height : Nat := 264

/-- The number of pixels of a panel-sized image (R24). -/
abbrev Config.panelPixels : Nat := 46464

/-- FRAME_BYTES (R6, R112), the capacity of FB (R25). -/
abbrev Config.frameBytes : Nat := 5808

/-- RESET_LOW_MS (R6). -/
abbrev Config.resetLowMs : Nat := 200

/-- RESET_HIGH_MS (R6). -/
abbrev Config.resetHighMs : Nat := 200

/-- POLL_MS (R6). -/
abbrev Config.pollMs : Nat := 50

/-- The default of LIMIT (R6). -/
abbrev Config.defaultLimit : Nat := 32

/-- The default of FAST_EN (R6). -/
abbrev Config.defaultFast : Bool := true

/-- The OPEN parameters of the machine that State.reset describes: a free constant (log 4). -/
opaque Config.params : Params

/-- Whether the n-th attempted micro-operation fails, where the state lists no answer: a free value,
the environment's choice (R85, D30, log 3). -/
opaque Config.freeFail : Nat → Bool

/-- The level of BUSY at the n-th reading, where the state lists none: a free value (R82, D36, log 3). -/
opaque Config.freeBusy : Nat → Level

end Sys2Proof
end

