-- ==== Sys2Proof/Syntax.lean ====
section
/-! DEFINITION. The twelve requests (30_encoding.md R62, R63), one constructor per row of
spec/opcode_table.json. The image and the region are not in the word: they are PIX and the operand
registers. -/

namespace Sys2Proof

/-- The source select of ENCODE_REGION: 0 = PIX, 1 = LAST (R63). -/
inductive Source
  | pix
  | last
  deriving DecidableEq, Repr

/-- A request. -/
inductive Instr
  /-- SEND_COMMAND b (R90). -/
  | sendCommand (b : Byte)
  /-- SEND_DATA b (R91). -/
  | sendData (b : Byte)
  /-- RESET (R92). -/
  | reset
  /-- WAIT_IDLE (R94). -/
  | waitIdle
  /-- ENCODE, full-panel form (R113). -/
  | encode
  /-- ENCODE_REGION src (R114). -/
  | encodeRegion (src : Source)
  /-- INIT (R101). -/
  | init
  /-- SLEEP (R102). -/
  | sleep
  /-- SET_LUT fast (R103). -/
  | setLut (fast : Bool)
  /-- DISPLAY_FRAME (R121). -/
  | displayFrame
  /-- DISPLAY_PARTIAL fast (R124). -/
  | displayPartial (fast : Bool)
  /-- SMART_UPDATE (R131). -/
  | smartUpdate
  deriving DecidableEq, Repr

/-- What the host can do between two steps of the block: present a request, or make one of the host
actions of R71 and R173 (register and PIX writes). -/
inductive HostAct
  /-- Present a request word (R60). -/
  | request (w : Word)
  /-- SETR: write `v` to register number `n` (R11, R12, R71). -/
  | writeReg (n : Nat) (v : Word)
  /-- LOADPIX: make the image of width `w` and height `h` with the raw intensities `raw`, row by row,
  the content of PIX, and set PIXW and PIXH (R71). -/
  | loadPix (w h : Word) (raw : List Nat)
  /-- Write one pixel of PIX at address `a` (R23: the host writes PIX between requests). -/
  | writePix (a : Nat) (raw : Nat)
  deriving DecidableEq, Repr

end Sys2Proof
end

