-- ==== Sys2Proof/Machine/State.lean ====
section
/-! DEFINITION. The state of the block (10_state.md R10 to R31), the reasons a step can stop, and the
constructed state (R30, R170). -/

namespace Sys2Proof.Machine

/-- LIFECYCLE (R15). -/
inductive Lifecycle
  | uninitialized
  | initializing
  | ready
  | sleeping
  deriving DecidableEq, Repr

/-- The operand registers, numbers 0 to 5 (R11, R12). -/
structure OperandRegs where
  /-- RX: left column x. -/
  rx : Word
  /-- RY: top row y. -/
  ry : Word
  /-- RH: height h in rows. -/
  rh : Word
  /-- RW: width w in columns. -/
  rw : Word
  /-- PIXW: width of the pixel source. -/
  pixW : Word
  /-- PIXH: height of the pixel source. -/
  pixH : Word
  deriving DecidableEq, Repr

/-- A memory: the listed cells, addresses strictly rising, none equal to what an unlisted address
reads as (Machine/Memory.lean says what that is). -/
abbrev Memory (α : Type) := List (Nat × α)

/-- The micro-operation that failed, as TransportError records it (R140). -/
inductive MicroOp
  | setLineRst
  | setLineDc
  | readLineBusy
  | writeByte
  deriving DecidableEq, Repr

/-- The four exceptions with their recorded values (R140). They are taken, not faults of the model. -/
inductive Exc
  /-- The offending (PIXW, PIXH) (R141). -/
  | dimension (w h : Word)
  /-- The micro-operation that failed (R142). -/
  | transport (op : MicroOp)
  /-- The number of busy readings (R143). -/
  | busyTimeout (n : Nat)
  /-- The request word (R144). -/
  | illegalRequest (w : Word)
  deriving DecidableEq, Repr

/-- The completion status of a request (R74), with the recorded value of R140. -/
inductive Status
  | ok
  | failed (e : Exc)
  deriving DecidableEq, Repr

/-- One line of a request's pseudocode: what a request is made of, and what is left of it while a
WAIT_IDLE polls. Nested calls are expanded in place (R72). -/
inductive Work
  /-- `call SEND_COMMAND(b)` (R90). -/
  | command (b : Byte)
  /-- `call SEND_DATA(b)` (R91). -/
  | data (b : Byte)
  /-- `call SendBlock(s)` (R93). -/
  | block (bs : List Byte)
  /-- `for i in 0 .. n-1: call SEND_DATA(MemRead(FB, i, 1))` (R121), and `call SendBlock` of the region
  just packed, which is FB bytes 0 to n-1 (R124). -/
  | fbBlock (n : Nat)
  /-- `call RESET()` (R92). -/
  | resetPulse
  /-- `Sleep(ms)` of a script item (R100). -/
  | delay (ms : Nat)
  /-- The poll loop of `call WAIT_IDLE()` after `n` busy readings (R94). -/
  | wait (n : Nat)
  /-- `call SET_LUT(fast)` (R103). -/
  | lut (fast : Bool)
  /-- `call ENCODE()` (R113). -/
  | encode
  /-- `FB <- pack(src, x, y, h, w); csr[FB_LEN] <- len` (R114, R124). -/
  | packRegion (src : Source) (x y h w : Nat)
  /-- `csr[LIFECYCLE] <- Initializing` (R101). -/
  | beginInit
  /-- `csr[LIFECYCLE] <- Ready` (R101). -/
  | endInit
  /-- `csr[LIFECYCLE] <- Sleeping` (R102). -/
  | endSleep
  /-- The last three effects of DISPLAY_FRAME: LAST, HAVE_LAST, COUNT <- 0 (R54, R121). -/
  | commitFrame
  /-- The last three effects of DISPLAY_PARTIAL: LAST, HAVE_LAST, COUNT <- COUNT + 1 (R54, R124). -/
  | commitPartial
  deriving DecidableEq, Repr

/-- The environment's coming choices (R31, R82, R85; log 3). Where a list is exhausted the choice is
a free value of Config at the counter beside it. -/
structure Env where
  /-- For each coming SetLine, ReadLine or WriteByte: does it fail? -/
  failIn : List Bool
  /-- How many such micro-operations have been attempted. -/
  opCount : Nat
  /-- The levels the coming successful ReadLines return. -/
  busyIn : List Level
  /-- How many levels have been drawn. -/
  readCount : Nat
  deriving DecidableEq, Repr

/-- The state of the block, with what the model carries beside it. -/
structure State where
  /-- RX, RY, RH, RW, PIXW, PIXH (R11, R12). -/
  regs : OperandRegs
  /-- CFG_LIMIT (R13). -/
  cfgLimit : Nat
  /-- CFG_FAST (R14). -/
  cfgFast : Bool
  /-- LIFECYCLE (R15). -/
  lifecycle : Lifecycle
  /-- COUNT (R16). -/
  count : Nat
  /-- HAVE_LAST (R17). -/
  haveLast : Bool
  /-- ERR (R18). -/
  err : BitVec 4
  /-- FB_LEN (R19). -/
  fbLen : Word
  /-- The RST latch; no value before the first SetLine (R20). -/
  rst : Option Level
  /-- The DC latch; no value before the first SetLine (R20). -/
  dc : Option Level
  /-- The trace (R22), newest event first (log 12); `State.trace` gives it in order. -/
  log : List Event
  /-- PIX, one bit per pixel (R23). -/
  pix : Memory Bool
  /-- LAST, one bit per pixel (R24). -/
  last : Memory Bool
  /-- FB, one byte per address (R25). -/
  fb : Memory Byte
  /-- The completion status last returned to the host; none before the first and while a request is
  running (R74, R146; log 16). -/
  status : Option Status
  /-- What is left of the running request; none between requests (R48; log 2). -/
  running : Option (List Work)
  /-- The position in the host's request list (R27): the number of requests that have ended (log 23). -/
  pos : Nat
  /-- The host acts not yet taken, oldest first (R31; log 1). -/
  host : List HostAct
  /-- The environment (R31; log 3). -/
  env : Env
  /-- The OPEN parameters (R6, R26; log 4). No step writes them. -/
  par : Params
  /-- WAIT_BOUND (R6, R143; log 5). No step writes it. -/
  waitBound : Option Nat
  deriving DecidableEq, Repr

/-- Where the model stops on an act of the host that describes nothing. No request faults: the
exceptions of R140 are taken. -/
inductive Fault
  /-- LOADPIX whose list has not one intensity per pixel. Raised by the host's act; safe: the spec has
  no such act (log 15). -/
  | imageIncomplete
  /-- A pixel write at an address that PIX does not have (R23). Raised by the host's act; safe. -/
  | pixelOutsidePix
  deriving DecidableEq, Repr

/-- The closed list of R151, whose cases the spec gives no step, and the arm without a meaning. Each
is safe: nothing is proved about what the hardware does there (log 8). -/
inductive Refusal
  /-- DISPLAY_FRAME or SMART_UPDATE in Sleeping or Initializing, DISPLAY_PARTIAL outside Ready (R120). -/
  | displayWhileNotReady
  /-- SLEEP outside Ready (R102). -/
  | sleepOutsideReady
  /-- DISPLAY_PARTIAL, or ENCODE_REGION of LAST, with no cached frame (R114, R125). -/
  | noLastFrame
  /-- DISPLAY_PARTIAL, or SMART_UPDATE's comparison, with an image that is not 176 x 264 (R125, R131). -/
  | imageNotPanelSized
  /-- DISPLAY_PARTIAL whose aligned region leaves the panel (R125). -/
  | regionOutsidePanel
  /-- ENCODE_REGION whose region leaves its source (R116). -/
  | regionOutsideSource
  /-- ENCODE_REGION of a width that is not a multiple of 8 (R115). -/
  | widthNotMultipleOf8
  /-- ENCODE_REGION of more than 5808 bytes (R116). -/
  | bufferTooLong
  /-- Raised by an arm of exec that has no meaning yet; safe. -/
  | notModelled (mnemonic : String)
  deriving DecidableEq, Repr

/-- The trace in the order in which the block performed it (R22). -/
def State.trace (s : State) : List Event := s.log.reverse

/-- Construction, the block's reset (R30, R170), from the construction parameters LIMIT, FAST_EN and
WAIT_BOUND and the OPEN parameters. It performs no micro-operation. -/
def State.construct (limit : Nat) (fast : Bool) (bound : Option Nat) (p : Params) : State where
  regs := ⟨0, 0, 0, 0, 0, 0⟩
  cfgLimit := limit
  cfgFast := fast
  lifecycle := .uninitialized
  count := 0
  haveLast := false
  err := 0
  fbLen := 0
  rst := none
  dc := none
  log := []
  pix := []
  last := []
  fb := []
  status := none
  running := none
  pos := 0
  host := []
  env := ⟨[], 0, [], 0⟩
  par := p
  waitBound := bound

/-- The constructed state with the defaults of R6: LIMIT 32, FAST_EN true, WAIT_BOUND none. -/
def State.reset : State :=
  .construct Config.defaultLimit Config.defaultFast none Config.params

end Sys2Proof.Machine
end

