-- ==== Sys2Proof/Machine/Flags.lean ====
section
/-! DEFINITION. The error bits and the completion codes (10_state.md R18, 30_encoding.md R74,
60_exceptions.md R140), and the numbering of the lifecycle (R15). The block has no condition codes (R28). -/

namespace Sys2Proof.Machine

/-- The code of an exception (R140). -/
def Exc.code : Exc → Nat
  | .dimension _ _ => 1
  | .transport _ => 2
  | .busyTimeout _ => 3
  | .illegalRequest _ => 4

/-- The ERR bit of an exception: bit `code - 1` (R74). -/
def Exc.bit (e : Exc) : BitVec 4 := 1#4 <<< (e.code - 1)

/-- The number of a completion status (R74). -/
def Status.code : Status → Nat
  | .ok => 0
  | .failed e => e.code

/-- The two-bit code of LIFECYCLE (R15). -/
def Lifecycle.code : Lifecycle → Nat
  | .uninitialized => 0
  | .initializing => 1
  | .ready => 2
  | .sleeping => 3

/-- ERR after an exception: the bit is set, none is cleared (R18). -/
def errAfter (err : BitVec 4) (e : Exc) : BitVec 4 := err ||| e.bit

/-- DISPLAY_FRAME and SMART_UPDATE are undefined in these two states (R120). -/
def Lifecycle.displayRefused : Lifecycle → Bool
  | .sleeping => true
  | .initializing => true
  | .uninitialized => false
  | .ready => false

end Sys2Proof.Machine
end

