-- ==== Sys2Proof/Machine/Memory.lean ====
section
/-! DEFINITION. The memories PIX, LAST and FB as sparse lists in canonical form: `MemRead` and
`MemWrite` of 00_scope.md R8. -/

namespace Sys2Proof.Machine

/-- What an address of PIX or LAST that nothing has written reads as: black (DESIGN CHOICE, unsafe,
log 6; the spec leaves it unspecified, R30, U20). -/
abbrev unlistedPixel : Bool := false

/-- What an address of FB that nothing has written reads as (DESIGN CHOICE, unsafe, log 6). -/
abbrev unlistedByte : Byte := 0#8

/-- Every address of `m` is at least `lo`, they rise strictly, and no entry is `d`. -/
def Memory.wfFrom {α : Type} [BEq α] (d : α) (lo : Nat) : Memory α → Bool
  | [] => true
  | (a, v) :: m => decide (lo ≤ a) && (v != d) && wfFrom d (a + 1) m

/-- The canonical form of a memory whose unlisted addresses read `d`. -/
def Memory.wf {α : Type} [BEq α] (d : α) (m : Memory α) : Bool := Memory.wfFrom d 0 m

/-- Every listed address lies below `n`. -/
def Memory.below {α : Type} (n : Nat) (m : Memory α) : Bool := m.all fun c => decide (c.1 < n)

/-- The unit at address `a`. -/
def Memory.read {α : Type} (d : α) : Memory α → Nat → α
  | [], _ => d
  | (b, v) :: m, a => if a = b then v else read d m a

/-- Write `v` at address `a`: the entry is put in its place, and removed when `v` is what an unlisted
address reads as. -/
def Memory.write {α : Type} [BEq α] (d : α) : Memory α → Nat → α → Memory α
  | [], a, v => if v == d then [] else [(a, v)]
  | (b, u) :: m, a, v =>
    if a < b then (if v == d then (b, u) :: m else (a, v) :: (b, u) :: m)
    else if a = b then (if v == d then m else (a, v) :: m)
    else (b, u) :: write d m a v

/-- The cells of the units `vs` at consecutive addresses from `a`. -/
def Memory.cells {α : Type} [BEq α] (d : α) (a : Nat) : List α → Memory α
  | [] => []
  | v :: vs => if v == d then cells d (a + 1) vs else (a, v) :: cells d (a + 1) vs

/-- `MemWrite(space, 0, len(vs), vs)`: the first units are replaced, the others keep their content. -/
def Memory.writeFront {α : Type} [BEq α] (d : α) (m : Memory α) (vs : List α) : Memory α :=
  Memory.cells d 0 vs ++ m.filter fun c => decide (vs.length ≤ c.1)

/-- `MemRead(space, 0, n)` as a memory of its own: the cells below address `n`. -/
def Memory.front {α : Type} (n : Nat) (m : Memory α) : Memory α := m.filter fun c => decide (c.1 < n)

/-- `MemRead(space, 0, n)` as a sequence of units. -/
def Memory.units {α : Type} (d : α) (m : Memory α) (n : Nat) : List α :=
  (List.range n).map (Memory.read d m)

end Sys2Proof.Machine
end

