-- ==== Sys2Proof/Machine/Operands.lean ====
section
/-! DEFINITION. Operand forms: the arithmetic of 00_scope.md R7, the dimension header (R66), the
alignment (R123), the pixel read (R8, R57) and the packing function (R111). -/

namespace Sys2Proof.Machine

/-- Round down to a multiple of 8 (R7). -/
def rd8 (v : Nat) : Nat := v - v % 8

/-- Round up to a multiple of 8 (R7). -/
def ru8 (v : Nat) : Nat := rd8 (v + 7)

/-- Ceiling division (R7). -/
def ceilDiv (a b : Nat) : Nat := (a + b - 1) / b

/-- A region: left column, top row, height, width, height before width (R9). -/
structure Region where
  x : Nat
  y : Nat
  h : Nat
  w : Nat
  deriving DecidableEq, Repr

/-- The region of the operand registers (R63). -/
def State.region (s : State) : Region :=
  ⟨s.regs.rx.toNat, s.regs.ry.toNat, s.regs.rh.toNat, s.regs.rw.toNat⟩

/-- `align`: x down, w up, independently; y and h pass unchanged (R123). -/
def Region.aligned (r : Region) : Region := { r with x := rd8 r.x, w := ru8 r.w }

/-- The two bytes of a header field, high byte first (R42). -/
def fieldBytes (v : Nat) : List Byte := [BitVec.ofNat 8 (v >>> 8), BitVec.ofNat 8 (v &&& 0xFF)]

/-- The dimension header `hdr(x, y, h, w)` (R66). -/
def Region.header (r : Region) : List Byte :=
  fieldBytes r.x ++ fieldBytes r.y ++ fieldBytes r.h ++ fieldBytes r.w

/-- The pixel at column `x`, row `y` of a frame of width `width` (R8). -/
def pixelAt (m : Memory Bool) (width x y : Nat) : Bool := Memory.read unlistedPixel m (x + y * width)

/-- The memory of a source (R114). -/
def State.srcMem (s : State) : Source → Memory Bool
  | .pix => s.pix
  | .last => s.last

/-- The width of a source (R114). -/
def State.srcWidth (s : State) : Source → Nat
  | .pix => s.regs.pixW.toNat
  | .last => Config.width

/-- The height of a source (R114). -/
def State.srcHeight (s : State) : Source → Nat
  | .pix => s.regs.pixH.toNat
  | .last => Config.height

/-- `pix(S, x, y)` (R8). -/
def State.pixel (s : State) (src : Source) (x y : Nat) : Bool :=
  pixelAt (s.srcMem src) (s.srcWidth src) x y

/-- Eight pixels as a byte, the leftmost in bit 7: the closed form of R111. -/
def byteOfPixels (f : Nat → Bool) : Byte :=
  BitVec.ofNat 8 ((f 0).toNat * 128 + (f 1).toNat * 64 + (f 2).toNat * 32 + (f 3).toNat * 16 +
    (f 4).toNat * 8 + (f 5).toNat * 4 + (f 6).toNat * 2 + (f 7).toNat)

/-- Row `j` of the region at column `x0` and row `y0`, `n` bytes wide, left to right. -/
def packRow (f : Nat → Nat → Bool) (x0 y0 j n : Nat) : List Byte :=
  (List.range n).map fun c => byteOfPixels fun t => f (x0 + 8 * c + t) (y0 + j)

/-- `pack(S, x0, y0, h, w)` for `w mod 8 = 0`, in the closed form of R111, which R46 allows; the pixels
are given by `f`. The requests admit no other width (R115). -/
def pack (f : Nat → Nat → Bool) (r : Region) : List Byte :=
  (List.range r.h).flatMap fun j => packRow f r.x r.y j (r.w / 8)

/-- One turn of the packing loop: or the mask `0x80 >> (i mod 8)` into byte `(i + j*w) div 8` when the
pixel is white (R111). -/
def packStep (f : Nat → Nat → Bool) (r : Region) (buf : List Byte) (j i : Nat) : List Byte :=
  if f (r.x + i) (r.y + j) then
    buf.modify ((i + j * r.w) / 8) fun b => b ||| (0x80#8 >>> (i % 8))
  else buf

/-- The packing function of R111 with its two loops as written, for any width. The requests run
`pack`; Obligations.PackAgreesWithTheLoopOfTheSpec says that the two agree on every admitted width. -/
def packLoop (f : Nat → Nat → Bool) (r : Region) : List Byte :=
  (List.range r.h).foldl
    (fun buf j => (List.range r.w).foldl (fun b i => packStep f r b j i) buf)
    (List.replicate (ceilDiv (r.w * r.h) 8) 0#8)

/-- `unpack(buf, h, w)(x, y)`, the inverse of packing (R117). The block contains no decoder. -/
def unpack (buf : List Byte) (w x y : Nat) : Bool :=
  ((buf.getD ((x + y * w) / 8) 0#8) >>> (7 - x % 8)).toNat % 2 == 1

/-- The whole panel as a region: (0, 0, 264, 176) (R113). -/
def panelRegion : Region := ⟨0, 0, Config.height, Config.width⟩

/-- PIX has the size of the panel (R113, R124, R131). -/
def State.panelSized (s : State) : Bool :=
  s.regs.pixW.toNat == Config.width && s.regs.pixH.toNat == Config.height

end Sys2Proof.Machine
end

