-- ==== Sys2Proof/Machine/Ops.lean ====
section
/-! DEFINITION. The named operations: the four micro-operations (40_transport.md), taking an exception
(60_exceptions.md R146), the subroutines of the requests, and the run of a request line by line. -/

namespace Sys2Proof.Machine

/-! ### The environment (R31) -/

/-- Does the `k`-th coming micro-operation fail? The listed answer, else the free value (R85). -/
def Env.fails (e : Env) (k : Nat) : Bool :=
  match e.failIn[k]? with
  | some b => b
  | none => Config.freeFail (e.opCount + k)

/-- The level the `k`-th coming ReadLine returns: the listed one, else the free value (R82). -/
def Env.level (e : Env) (k : Nat) : Level :=
  match e.busyIn[k]? with
  | some v => v
  | none => Config.freeBusy (e.readCount + k)

/-- The environment after `n` attempted micro-operations, `r` of which drew a level of BUSY. -/
def Env.advance (e : Env) (n r : Nat) : Env where
  failIn := e.failIn.drop n
  opCount := e.opCount + n
  busyIn := e.busyIn.drop r
  readCount := e.readCount + r

/-! ### State updates -/

/-- Append an event to the trace (R22). -/
def State.emit (s : State) (e : Event) : State := { s with log := e :: s.log }

/-- The environment moves on. -/
def State.tick (s : State) (n r : Nat) : State := { s with env := s.env.advance n r }

/-- Latch an output line (R20). -/
def State.latch (s : State) (l : OutLine) (v : Level) : State :=
  match l with
  | .rst => { s with rst := some v }
  | .dc => { s with dc := some v }

/-- Write LIFECYCLE (R15). -/
def State.setLifecycle (s : State) (l : Lifecycle) : State := { s with lifecycle := l }

/-- `MemWrite(FB, 0, len(buf), buf)` and `csr[FB_LEN] <- len(buf)` (R113, R114, R124). -/
def State.putFb (s : State) (buf : List Byte) : State :=
  { s with
    fb := s.fb.writeFront unlistedByte buf
    fbLen := BitVec.ofNat 16 buf.length }

/-- The last three effects of a display request, together: LAST becomes the whole image, HAVE_LAST 1,
COUNT `n` (R54, R121, R124). -/
def State.commit (s : State) (n : Nat) : State :=
  { s with
    last := s.pix.front Config.panelPixels
    haveLast := true
    count := n }

/-! ### Results of a line -/

/-- What a line of pseudocode comes to. -/
inductive Res
  /-- It is done. -/
  | done (s : State)
  /-- It raised an exception, with the state at that point (R146). -/
  | raised (e : Exc) (s : State)
  /-- It is a WAIT_IDLE that has read busy `n` times and goes round again (R94). -/
  | busy (n : Nat) (s : State)

/-- Go on with the next line unless the first stopped. -/
def Res.andThen (r : Res) (f : State → Res) : Res :=
  match r with
  | .done s => f s
  | .raised e s => .raised e s
  | .busy n s => .busy n s

/-! ### The micro-operations (R80 to R85) -/

/-- The micro-operation that a SetLine on `l` is (R140). -/
def lineMicroOp : OutLine → MicroOp
  | .rst => .setLineRst
  | .dc => .setLineDc

/-- A micro-operation that can fail: when it fails it has no effect and raises TransportError, else
`act` happens (R85, R142). -/
def attempt (op : MicroOp) (act : State → State) (s : State) : Res :=
  if s.env.fails 0 then .raised (.transport op) (s.tick 1 0)
  else .done ((act s).tick 1 0)

/-- `SetLine(l, v)` (R81). -/
def setLine (l : OutLine) (v : Level) (s : State) : Res :=
  attempt (lineMicroOp l) (fun s => (s.latch l v).emit (.set l v)) s

/-- `WriteByte(b)` (R83). -/
def writeByte (b : Byte) (s : State) : Res :=
  attempt .writeByte (fun s => s.emit (.wr b)) s

/-- `Sleep(ms)`: an event, which cannot fail (R84, R85). -/
def sleep (ms : Nat) (s : State) : State := s.emit (.slp ms)

/-- `ReadLine(BUSY)`: the level goes to the rest of the line (R82). A failing ReadLine draws no level
(log 20). -/
def readLine (k : Level → State → Res) (s : State) : Res :=
  if s.env.fails 0 then .raised (.transport .readLineBusy) (s.tick 1 0)
  else k (s.env.level 0) ((s.emit (.rd (s.env.level 0))).tick 1 1)

/-! ### Subroutines of the requests -/

/-- A frame: DC first, the byte second (R67). -/
def sendFrame (v : Level) (b : Byte) (s : State) : Res := (setLine .dc v s).andThen (writeByte b)

/-- SEND_COMMAND's two micro-operations (R90). -/
def sendCommand (b : Byte) (s : State) : Res := sendFrame s.par.cmdLevel b s

/-- SEND_DATA's two micro-operations (R91). -/
def sendData (b : Byte) (s : State) : Res := sendFrame s.par.dataLevel b s

/-- `SendBlock(s)`: every byte as a data frame, in increasing index (R93). -/
def sendBlock : List Byte → State → Res
  | [], s => .done s
  | b :: bs, s => (sendData b s).andThen (sendBlock bs)

/-- The reset pulse (R92). -/
def pulseReset (s : State) : Res :=
  (setLine .rst .low s).andThen fun s =>
    (setLine .rst .high (sleep Config.resetLowMs s)).andThen fun s =>
      .done (sleep Config.resetHighMs s)

/-- One of the five parts of SET_LUT: the register-select command, then the sequence (R103). -/
def sendLutPart (fast : Bool) (k : LutKey) (s : State) : Res :=
  (sendCommand (s.par.cmdLut.at k) s).andThen (sendBlock ((s.par.lutSet fast).at k))

/-- SET_LUT: the five parts in order (R103). -/
def setLut (fast : Bool) (s : State) : Res :=
  (sendLutPart fast .vcom s).andThen fun s =>
    (sendLutPart fast .ww s).andThen fun s =>
      (sendLutPart fast .bw s).andThen fun s =>
        (sendLutPart fast .wb s).andThen fun s => sendLutPart fast .bb s

/-- A WAIT_BOUND that `n` busy readings have reached (R94). -/
def boundReached : Option Nat → Nat → Bool
  | none, _ => false
  | some b, n => decide (b ≤ n)

/-- One turn of the poll loop of WAIT_IDLE, `n` busy readings having gone before (R94). -/
def pollBusy (n : Nat) (s : State) : Res :=
  readLine
    (fun v s =>
      if v = s.par.idleLevel then .done s
      else if boundReached s.waitBound (n + 1) then .raised (.busyTimeout (n + 1)) s
      else .busy (n + 1) (sleep Config.pollMs s))
    s

/-- ENCODE: the size check, then the packing of the whole panel into FB (R113, R141). -/
def encodeFull (s : State) : Res :=
  if s.panelSized then .done (s.putFb (pack (s.pixel .pix) panelRegion))
  else .raised (.dimension s.regs.pixW s.regs.pixH) s

/-- Perform one line. -/
def Work.perform : Work → State → Res
  | .command b, s => sendCommand b s
  | .data b, s => sendData b s
  | .block bs, s => sendBlock bs s
  | .fbBlock n, s => sendBlock (s.fb.units unlistedByte n) s
  | .resetPulse, s => pulseReset s
  | .delay ms, s => .done (sleep ms s)
  | .wait n, s => pollBusy n s
  | .lut fast, s => setLut fast s
  | .encode, s => encodeFull s
  | .packRegion src x y h w, s => .done (s.putFb (pack (s.pixel src) ⟨x, y, h, w⟩))
  | .beginInit, s => .done (s.setLifecycle .initializing)
  | .endInit, s => .done (s.setLifecycle .ready)
  | .endSleep, s => .done (s.setLifecycle .sleeping)
  | .commitFrame, s => .done (s.commit 0)
  | .commitPartial, s => .done (s.commit (s.count + 1))

/-! ### Completion, exception, poll -/

/-- The request completes with status OK, and the position in the host's list moves on by one (R27, R74,
log 23). -/
def complete (s : State) : State :=
  { s with status := some .ok, running := none, pos := s.pos + 1 }

/-- TAKING AN EXCEPTION (R146): the running request stops, the ERR bit is set, the status goes to the
host, the position moves on by one. Nothing is saved, masked or rolled back, and control goes nowhere;
there is no return from an exception (R150): the block takes the next request. -/
def takeException (e : Exc) (s : State) : State :=
  { s with err := errAfter s.err e, status := some (.failed e), running := none, pos := s.pos + 1 }

/-- The request goes round its poll loop: the lines still to perform stay in State, and the host gets
no status yet (R94, log 2). -/
def holdRequest (ws : List Work) (s : State) : State :=
  { s with status := none, running := some ws }

/-- Perform the lines of a request up to its completion, its exception, or a busy reading. -/
def runWork : List Work → State → State
  | [], s => complete s
  | w :: ws, s =>
    match w.perform s with
    | .done s' => runWork ws s'
    | .raised e s' => takeException e s'
    | .busy n s' => holdRequest (.wait n :: ws) s'

/-! ### The pseudocode of the requests that others call -/

/-- The line of a script item (R100). -/
def scriptWork : ScriptItem → Work
  | .cmd b => .command b
  | .dat b => .data b
  | .wait => .wait 0
  | .delay ms => .delay ms

/-- INIT (R101). -/
def initWork (p : Params) : List Work :=
  [.beginInit, .resetPulse] ++ p.initScript.map scriptWork ++ [.lut false, .endInit]

/-- DISPLAY_FRAME after its lazy INIT (R121). -/
def frameWork (p : Params) : List Work :=
  [.lut false, .encode, .command p.cmdDtx1, .block (List.replicate Config.frameBytes 0xFF#8),
   .command p.cmdDtx2, .fbBlock Config.frameBytes, .command p.cmdRefresh, .wait 0, .commitFrame]

/-- DISPLAY_FRAME: the lazy INIT in Uninitialized only (R121, 90_conflicts.md C1). -/
def displayFrameWork (s : State) : List Work :=
  if s.lifecycle = .uninitialized then initWork s.par ++ frameWork s.par else frameWork s.par

/-- DISPLAY_PARTIAL from its step 1 on, for the aligned region `r` (R124). -/
def partialWork (p : Params) (fast : Bool) (r : Region) : List Work :=
  (if fast then [.lut true] else []) ++
  [.command p.cmdPdtx1, .block r.header, .packRegion .last r.x r.y r.h r.w, .fbBlock (r.w / 8 * r.h),
   .command p.cmdPdtx2, .block r.header, .packRegion .pix r.x r.y r.h r.w, .fbBlock (r.w / 8 * r.h),
   .command p.cmdPrefresh, .block r.header, .wait 0] ++
  (if fast then [.lut false] else []) ++ [.commitPartial]

/-- DISPLAY_FRAME (R121). -/
def displayFrame (s : State) : Host.Outcome State Fault Refusal :=
  if s.lifecycle.displayRefused then .refused .displayWhileNotReady
  else .next (runWork (displayFrameWork s) s)

/-- DISPLAY_PARTIAL of the region `r`, given unaligned (R124). -/
def displayPartial (fast : Bool) (r : Region) (s : State) : Host.Outcome State Fault Refusal :=
  if s.lifecycle ≠ .ready then .refused .displayWhileNotReady
  else if s.haveLast = false then .refused .noLastFrame
  else if s.panelSized = false then .refused .imageNotPanelSized
  else if r.aligned.x + r.aligned.w > Config.width ∨ r.aligned.y + r.aligned.h > Config.height then
    .refused .regionOutsidePanel
  else .next (runWork (partialWork s.par fast r.aligned) s)

end Sys2Proof.Machine
end

