-- ==== Sys2Proof/WellFormed.lean ====
section
/-! DEFINITION. When a request word is legal (30_encoding.md R62 to R64), when a host act describes
something that exists, and when a construction parameter is admitted. The operand types of Instr hold
no ill-formed request: a request's form is checked on its word. -/

namespace Sys2Proof

/-- A row of the opcode table: the word of an instruction of this row has `mtch` under `mask`. -/
structure OpRow where
  mnemonic : String
  mtch : Word
  mask : Word
  deriving DecidableEq, Repr

/-- The table of R62 with the must-be-zero bits of R63, as spec/opcode_table.json has it. -/
def opTable : List OpRow :=
  [ ⟨"SEND_COMMAND", 0x0100#16, 0xFF00#16⟩, ⟨"SEND_DATA", 0x0200#16, 0xFF00#16⟩,
    ⟨"RESET", 0x0300#16, 0xFFFF#16⟩, ⟨"WAIT_IDLE", 0x0400#16, 0xFFFF#16⟩,
    ⟨"ENCODE", 0x0800#16, 0xFFFF#16⟩, ⟨"ENCODE_REGION", 0x0900#16, 0xFFFE#16⟩ ] ++
  [ ⟨"INIT", 0x1000#16, 0xFFFF#16⟩, ⟨"SLEEP", 0x1100#16, 0xFFFF#16⟩,
    ⟨"SET_LUT", 0x1200#16, 0xFFFE#16⟩, ⟨"DISPLAY_FRAME", 0x2000#16, 0xFFFF#16⟩,
    ⟨"DISPLAY_PARTIAL", 0x2100#16, 0xFFFE#16⟩, ⟨"SMART_UPDATE", 0x2200#16, 0xFFFF#16⟩ ]

/-- The word is one of this row's. -/
def OpRow.covers (r : OpRow) (w : Word) : Bool := w &&& r.mask == r.mtch

/-- A request word is legal when some row covers it (R64). -/
def legalWord (w : Word) : Bool := opTable.any (·.covers w)

/-- The mnemonic of a request, as the table spells it. -/
def Instr.mnemonic : Instr → String
  | .sendCommand _ => "SEND_COMMAND"
  | .sendData _ => "SEND_DATA"
  | .reset => "RESET"
  | .waitIdle => "WAIT_IDLE"
  | .encode => "ENCODE"
  | .encodeRegion _ => "ENCODE_REGION"
  | .init => "INIT"
  | .sleep => "SLEEP"
  | .setLut _ => "SET_LUT"
  | .displayFrame => "DISPLAY_FRAME"
  | .displayPartial _ => "DISPLAY_PARTIAL"
  | .smartUpdate => "SMART_UPDATE"

/-- A LOADPIX names an image: it lists one intensity per pixel (R23, R71). -/
def HostAct.imageComplete : HostAct → Bool
  | .loadPix w h raw => raw.length == w.toNat * h.toNat
  | _ => true

/-- A bound on the busy-wait is at least 1 (R143). -/
def waitBoundOk : Option Nat → Bool
  | some n => n != 0
  | none => true

end Sys2Proof
end

