-- ==== Sys2Proof/Machine/HostPort.lean ====
section
/-! DEFINITION. The host's side of the block: the register numbers 0 to 16 (10_state.md R11 to R19),
the host's reads of PIX and FB, and the host's actions between requests (30_encoding.md R71). -/

namespace Sys2Proof.Machine

/-- A host read of register `n`; a number that does not exist reads 0 (R12, R19). -/
def State.readReg (s : State) (n : Nat) : Nat :=
  match n with
  | 0 => s.regs.rx.toNat
  | 1 => s.regs.ry.toNat
  | 2 => s.regs.rh.toNat
  | 3 => s.regs.rw.toNat
  | 4 => s.regs.pixW.toNat
  | 5 => s.regs.pixH.toNat
  | 8 => s.cfgLimit
  | 9 => s.cfgFast.toNat
  | 10 => s.lifecycle.code
  | 11 => s.count
  | 12 => s.haveLast.toNat
  | 13 => s.err.toNat
  | 14 => Config.width
  | 15 => Config.height
  | 16 => s.fbLen.toNat
  | _ => 0

/-- A host write to an operand register. Numbers that do not exist ignore the write (R12, R19), and so
do the registers that the host can only read (DEDUCED from "The host can write none of them", log 9). -/
def OperandRegs.write (r : OperandRegs) (n : Nat) (v : Word) : OperandRegs :=
  match n with
  | 0 => { r with rx := v }
  | 1 => { r with ry := v }
  | 2 => { r with rh := v }
  | 3 => { r with rw := v }
  | 4 => { r with pixW := v }
  | 5 => { r with pixH := v }
  | _ => r

/-- SETR (R71). A new PIXW or PIXH moves no pixel of PIX: each keeps its address (DESIGN CHOICE, log 24). -/
def State.writeReg (s : State) (n : Nat) (v : Word) : State := { s with regs := s.regs.write n v }

/-- The reduction of a raw intensity to a bit: 1 when non-zero (R23, R44). -/
def reduceIntensity (raw : Nat) : Bool := raw != 0

/-- The number of pixels of PIX (R23). -/
def State.pixSize (s : State) : Nat := s.regs.pixW.toNat * s.regs.pixH.toNat

/-- LOADPIX: the image becomes the content of PIX, PIXW and PIXH its dimensions (R71). What an earlier,
larger image held beyond the new one is gone and reads 0 when a SETR enlarges PIXW or PIXH later: the spec
is silent there (DESIGN CHOICE, log 24). -/
def State.loadPix (s : State) (w h : Word) (raw : List Nat) : State :=
  { s with
    regs := { s.regs with pixW := w, pixH := h }
    pix := Memory.cells unlistedPixel 0 (raw.map reduceIntensity) }

/-- A host write of one pixel of PIX (R23). -/
def State.writePix (s : State) (a raw : Nat) : State :=
  { s with pix := s.pix.write unlistedPixel a (reduceIntensity raw) }

/-- A host read of PIX; an address outside the array does not exist (R23). -/
def State.readPix (s : State) (a : Nat) : Option Bool :=
  if a < s.pixSize then some (Memory.read unlistedPixel s.pix a) else none

/-- A host read of FB; addresses from 5808 on do not exist (R25). -/
def State.readFb (s : State) (a : Nat) : Option Byte :=
  if a < Config.frameBytes then some (Memory.read unlistedByte s.fb a) else none

/-- An act of the host that is no request. It adds nothing to the trace (R71). -/
def hostWrite (act : HostAct) (s : State) : Host.Outcome State Fault Refusal :=
  match act with
  | .request _ => .next s
  | .writeReg n v => .next (s.writeReg n v)
  | .loadPix w h raw =>
    if HostAct.imageComplete (.loadPix w h raw) then .next (s.loadPix w h raw)
    else .fault .imageIncomplete
  | .writePix a raw =>
    if a < s.pixSize then .next (s.writePix a raw) else .fault .pixelOutsidePix

end Sys2Proof.Machine
end

