-- ==== Sys2Proof/Decode.lean ====
section
/-! DEFINITION. The decoder of the request word, total, rejecting by name, and after it the encoder
(30_encoding.md R61 to R64). -/

namespace Sys2Proof

/-- Why a request word is illegal (R64). -/
inductive DecodeError
  /-- `op` is not one of the twelve of R62. -/
  | unknownOp (op : Byte)
  /-- A bit of `imm8` that R63 says must be 0 is 1. -/
  | reservedBits (op imm8 : Byte)
  deriving DecidableEq, Repr

/-- Field `op`, bits 15:8 (R61). -/
def opField (w : Word) : Byte := w.extractLsb' 8 8

/-- Field `imm8`, bits 7:0 (R61). -/
def immField (w : Word) : Byte := w.extractLsb' 0 8

/-- A request whose `imm8` must be 0 (R63). -/
def decodePlain (op imm : Byte) (i : Instr) : Except DecodeError Instr :=
  if imm = 0#8 then .ok i else .error (.reservedBits op imm)

/-- A request whose `imm8[0]` is a flag and whose `imm8[7:1]` must be 0 (R63). -/
def decodeFlag (op imm : Byte) (f : Bool → Instr) : Except DecodeError Instr :=
  if imm = 0#8 then .ok (f false)
  else if imm = 1#8 then .ok (f true)
  else .error (.reservedBits op imm)

/-- The source select of ENCODE_REGION from its bit: 0 = PIX, 1 = LAST (R63). -/
def Source.ofBit (b : Bool) : Source := if b then .last else .pix

/-- The decoder (R62, R63, R64). -/
def decode (w : Word) : Except DecodeError Instr :=
  let op := opField w
  let imm := immField w
  match op.toNat with
  | 0x01 => .ok (.sendCommand imm)
  | 0x02 => .ok (.sendData imm)
  | 0x03 => decodePlain op imm .reset
  | 0x04 => decodePlain op imm .waitIdle
  | 0x08 => decodePlain op imm .encode
  | 0x09 => decodeFlag op imm (fun b => .encodeRegion (Source.ofBit b))
  | 0x10 => decodePlain op imm .init
  | 0x11 => decodePlain op imm .sleep
  | 0x12 => decodeFlag op imm .setLut
  | 0x20 => decodePlain op imm .displayFrame
  | 0x21 => decodeFlag op imm .displayPartial
  | 0x22 => decodePlain op imm .smartUpdate
  | _ => .error (.unknownOp op)

/-- A flag bit as `imm8`. -/
def flagByte (b : Bool) : Byte := if b then 1#8 else 0#8

/-- The source select as its bit. -/
def Source.bit : Source → Bool
  | .pix => false
  | .last => true

/-- The opcode number of a request (R62). -/
def Instr.op : Instr → Byte
  | .sendCommand _ => 0x01#8
  | .sendData _ => 0x02#8
  | .reset => 0x03#8
  | .waitIdle => 0x04#8
  | .encode => 0x08#8
  | .encodeRegion _ => 0x09#8
  | .init => 0x10#8
  | .sleep => 0x11#8
  | .setLut _ => 0x12#8
  | .displayFrame => 0x20#8
  | .displayPartial _ => 0x21#8
  | .smartUpdate => 0x22#8

/-- The immediate of a request (R63). -/
def Instr.imm8 : Instr → Byte
  | .sendCommand b => b
  | .sendData b => b
  | .encodeRegion src => flagByte src.bit
  | .setLut fast => flagByte fast
  | .displayPartial fast => flagByte fast
  | .reset => 0#8
  | .waitIdle => 0#8
  | .encode => 0#8
  | .init => 0#8
  | .sleep => 0#8
  | .displayFrame => 0#8
  | .smartUpdate => 0#8

/-- The encoder: `op` in bits 15:8, `imm8` in bits 7:0 (R61). -/
def encode (i : Instr) : Word := i.op ++ i.imm8

/-- The instruction the decoder reads from the low `nbits` bits of `w`, bit 0 the least significant
bit of the one 16-bit word. -/
def decodeTableWord (nbits w : Nat) : Option Instr :=
  let v := w % 2 ^ nbits
  if v < 65536 then
    match decode (BitVec.ofNat 16 v) with
    | .ok i => some i
    | .error _ => none
  else none

end Sys2Proof
end

