-- ==== Sys2Proof/Machine/Codec.lean ====
section
/-! DEFINITION. ENCODE and ENCODE_REGION (43_framebuffer_codec.md). -/

namespace Sys2Proof.Machine

/-- ENCODE, full-panel form (R113). -/
def execEncode (s : State) : Host.Outcome State Fault Refusal := .next (runWork [.encode] s)

/-- ENCODE_REGION src (R114 to R116): the operand registers are used as they are. -/
def execEncodeRegion (src : Source) (s : State) : Host.Outcome State Fault Refusal :=
  let r := s.region
  if src = .last ∧ s.haveLast = false then .refused .noLastFrame
  else if r.w % 8 ≠ 0 then .refused .widthNotMultipleOf8
  else if r.x + r.w > s.srcWidth src ∨ r.y + r.h > s.srcHeight src then .refused .regionOutsideSource
  else if r.w / 8 * r.h > Config.frameBytes then .refused .bufferTooLong
  else .next (runWork [.packRegion src r.x r.y r.h r.w] s)

end Sys2Proof.Machine
end

