-- ==== Sys2Proof/Machine/Control.lean ====
section
/-! DEFINITION. INIT, SLEEP and SET_LUT (42_init_sleep_lut.md). -/

namespace Sys2Proof.Machine

/-- INIT (R101), accepted in every lifecycle state. -/
def execInit (s : State) : Host.Outcome State Fault Refusal := .next (runWork (initWork s.par) s)

/-- SLEEP (R102), from Ready only. -/
def execSleep (s : State) : Host.Outcome State Fault Refusal :=
  if s.lifecycle ≠ .ready then .refused .sleepOutsideReady
  else .next (runWork [.command s.par.cmdDeepSleep, .data s.par.sleepCheck, .endSleep] s)

/-- SET_LUT fast (R103). -/
def execSetLut (fast : Bool) (s : State) : Host.Outcome State Fault Refusal :=
  .next (runWork [.lut fast] s)

end Sys2Proof.Machine
end

