-- ==== Sys2Proof/Machine/Encoder.lean ====
section
/-! DEFINITION. The requests of the protocol encoder (41_protocol_encoder.md). -/

namespace Sys2Proof.Machine

/-- SEND_COMMAND b (R90). -/
def execSendCommand (b : Byte) (s : State) : Host.Outcome State Fault Refusal :=
  .next (runWork [.command b] s)

/-- SEND_DATA b (R91). -/
def execSendData (b : Byte) (s : State) : Host.Outcome State Fault Refusal :=
  .next (runWork [.data b] s)

/-- RESET (R92): LIFECYCLE is not written. -/
def execReset (s : State) : Host.Outcome State Fault Refusal := .next (runWork [.resetPulse] s)

/-- WAIT_IDLE (R94, R95). -/
def execWaitIdle (s : State) : Host.Outcome State Fault Refusal := .next (runWork [.wait 0] s)

end Sys2Proof.Machine
end

