-- ==== Sys2Proof/Machine/Policy.lean ====
section
/-! DEFINITION. SMART_UPDATE (45_smart_update.md): the difference box, the refresh rectangle, the
fast eligibility and the choice between full, partial and no refresh. -/

namespace Sys2Proof.Machine

/-- The difference box, half-open: columns `left` to `right - 1`, rows `top` to `bottom - 1` (R132). -/
structure Box where
  left : Nat
  top : Nat
  right : Nat
  bottom : Nat
  deriving DecidableEq, Repr

/-- Two frames of width `w` differ at column `x`, row `y`. -/
def pixelsDiffer (w : Nat) (a b : Memory Bool) (x y : Nat) : Bool :=
  pixelAt a w x y != pixelAt b w x y

/-- Some row differs in column `x`. -/
def columnDiffers (w h : Nat) (a b : Memory Bool) (x : Nat) : Bool :=
  (List.range h).any fun y => pixelsDiffer w a b x y

/-- Some column differs in row `y`. -/
def rowDiffers (w : Nat) (a b : Memory Bool) (y : Nat) : Bool :=
  (List.range w).any fun x => pixelsDiffer w a b x y

/-- `diffbox(A, B)` for two frames of `w` columns and `h` rows (R132). -/
def diffBox (w h : Nat) (a b : Memory Bool) : Option Box :=
  let cols := (List.range w).filter (columnDiffers w h a b)
  let rows := (List.range h).filter (rowDiffers w a b)
  match cols.head?, rows.head?, cols.getLast?, rows.getLast? with
  | some l, some t, some r, some b => some ⟨l, t, r + 1, b + 1⟩
  | _, _, _, _ => none

/-- The difference box of LAST and PIX. -/
def State.diff (s : State) : Option Box := diffBox Config.width Config.height s.last s.pix

/-- `rect(box)`, the refresh rectangle (R133). -/
def Box.rect (b : Box) : Region :=
  let x := rd8 b.left
  ⟨x, b.top, min (b.bottom - b.top) Config.height, min (ru8 (b.right - x)) Config.width⟩

/-- Every pixel of LAST in the box is white (R134). -/
def State.boxWasWhite (s : State) (b : Box) : Bool :=
  (List.range (b.right - b.left)).all fun i =>
    (List.range (b.bottom - b.top)).all fun j => s.pixel .last (b.left + i) (b.top + j)

/-- `eligible(box)` (R134). -/
def State.eligible (s : State) (b : Box) : Bool := s.cfgFast && s.boxWasWhite b

/-- SMART_UPDATE (R131). -/
def execSmartUpdate (s : State) : Host.Outcome State Fault Refusal :=
  if s.lifecycle.displayRefused then .refused .displayWhileNotReady
  else if s.haveLast = false ∨ s.count = s.cfgLimit then displayFrame s
  else if s.panelSized = false then .refused .imageNotPanelSized
  else
    match s.diff with
    | none => .next (runWork [] s)
    | some box => displayPartial (s.eligible box) box.rect s

end Sys2Proof.Machine
end

