-- ==== Sys2Proof/Machine/Refresh.lean ====
section
/-! DEFINITION. DISPLAY_FRAME and DISPLAY_PARTIAL (44_refresh_transactions.md). -/

namespace Sys2Proof.Machine

/-- DISPLAY_FRAME (R121). -/
def execDisplayFrame (s : State) : Host.Outcome State Fault Refusal := displayFrame s

/-- DISPLAY_PARTIAL fast, on the region of the operand registers (R124). -/
def execDisplayPartial (fast : Bool) (s : State) : Host.Outcome State Fault Refusal :=
  displayPartial fast s.region s

end Sys2Proof.Machine
end

