-- ==== Sys2Proof/Machine/Dispatch.lean ====
section
/-! DEFINITION. One arm per request. -/

namespace Sys2Proof.Machine

/-- The effect of a request, from its start to its completion, its exception or its first busy poll. -/
def exec (i : Instr) (s : State) : Host.Outcome State Fault Refusal :=
  match i with
  | .sendCommand b => Sys2Proof.Machine.execSendCommand b s
  | .sendData b => Sys2Proof.Machine.execSendData b s
  | .reset => Sys2Proof.Machine.execReset s
  | .waitIdle => Sys2Proof.Machine.execWaitIdle s
  | .encode => Sys2Proof.Machine.execEncode s
  | .encodeRegion src => Sys2Proof.Machine.execEncodeRegion src s
  | .init => Sys2Proof.Machine.execInit s
  | .sleep => Sys2Proof.Machine.execSleep s
  | .setLut fast => Sys2Proof.Machine.execSetLut fast s
  | .displayFrame => Sys2Proof.Machine.execDisplayFrame s
  | .displayPartial fast => Sys2Proof.Machine.execDisplayPartial fast s
  | .smartUpdate => Sys2Proof.Machine.execSmartUpdate s

end Sys2Proof.Machine
end

