-- ==== Sys2Proof/Machine/Request.lean ====
section
/-! DEFINITION. How a request word is presented and performed (10_state.md R27, 30_encoding.md R60,
R64). The block fetches nothing from a memory (R55). -/

namespace Sys2Proof.Machine

/-- A request is presented: the word is decoded and the request performed; an illegal word takes
IllegalRequest (R64, R144). The position moves on when the request ends (R27, R146, log 23). -/
def present (w : Word) (s : State) : Host.Outcome State Fault Refusal :=
  match decode w with
  | .ok i => exec i s
  | .error _ => .next (takeException (.illegalRequest w) s)

end Sys2Proof.Machine
end

