-- ==== Sys2Proof/Machine/Step.lean ====
section
/-! DEFINITION. One step of the block: the next poll of the running request, or the next act of the
host (10_state.md R27, 20_memory.md R52). -/

namespace Sys2Proof.Machine

/-- One step. While a request runs the host has no move (R52); with nothing presented the block is
idle and keeps all its state (R157). -/
def step (s : State) : Host.Outcome State Fault Refusal :=
  match s.running with
  | some ws => .next (runWork ws s)
  | none =>
    match s.host with
    | [] => .next s
    | .request w :: rest => present w { s with host := rest }
    | act :: rest => hostWrite act { s with host := rest }

/-- The state with the request word of the low `nbits` bits of `w` presented next (log 1). -/
def State.withFetchWord (s : State) (nbits w : Nat) : State :=
  { s with host := .request (BitVec.ofNat 16 (w % 2 ^ nbits)) :: s.host, running := none }

end Sys2Proof.Machine
end

