-- ==== Sys2Proof/Safety.lean ====
section
/-! DEFINITION. What a good state is: the invariant that every step keeps, and the words the
statements use for a run of several steps and for a run without a transport failure. -/

namespace Sys2Proof.Machine

/-- The memories are in canonical form and inside their spaces, and FB_LEN fits FB (R24, R25). -/
structure State.MemInv (s : State) : Prop where
  pix_wf : s.pix.wf unlistedPixel = true
  last_wf : s.last.wf unlistedPixel = true
  last_in_panel : s.last.below Config.panelPixels = true
  fb_wf : s.fb.wf unlistedByte = true
  fb_in_capacity : s.fb.below Config.frameBytes = true
  fbLen_le : s.fbLen.toNat ≤ Config.frameBytes

/-- A line that packs a region packs no more than FB holds (R116). -/
def Work.fits : Work → Bool
  | .packRegion _ _ _ h w => decide (w / 8 * h ≤ Config.frameBytes)
  | _ => true

/-- A line that writes LAST, HAVE_LAST and COUNT. -/
def Work.commits : Work → Bool
  | .commitFrame => true
  | .commitPartial => true
  | _ => false

/-- What holds of the lines left of a running request: the first is the poll of its WAIT_IDLE, they fit
FB, and a display request runs in no Uninitialized block (R94, R104, R116). -/
structure State.RunInv (s : State) (ws : List Work) : Prop where
  polls : ∃ n rest, ws = .wait n :: rest
  fits : ws.all Work.fits = true
  initialised : ws.any Work.commits = true → s.lifecycle ≠ .uninitialized
  no_status : s.status = none

/-- The invariant of the block: the memories are well-formed; a cached frame exists only outside
Uninitialized (R125); what is left of a running request is as above. -/
structure State.Inv (s : State) : Prop where
  mem : s.MemInv
  cached : s.haveLast = true → s.lifecycle ≠ .uninitialized
  run : ∀ ws, s.running = some ws → s.RunInv ws

/-- No exception has been recorded (R150). -/
def State.NoFaultRecorded (s : State) : Prop := s.err = 0#4

/-- The next `n` micro-operations that can fail succeed: the premise "no micro-operation failed" of R85. -/
def State.Quiet (s : State) (n : Nat) : Prop := ∀ k, k < n → s.env.fails k = false

/-- The controller is busy for the next `p` readings and then idle: the premise of R95. -/
def State.IdleAfter (s : State) (p : Nat) : Prop :=
  (∀ k, k < p → s.env.level k ≠ s.par.idleLevel) ∧ s.env.level p = s.par.idleLevel

/-- The next `n` readings of BUSY are idle. -/
def State.IdleFor (s : State) (n : Nat) : Prop := ∀ k, k < n → s.env.level k = s.par.idleLevel

/-- `k` steps, each the next poll of a running request. -/
def Polls : Nat → State → State → Prop
  | 0, s, t => t = s
  | k + 1, s, t => s.running ≠ none ∧ ∃ u, step s = .next u ∧ Polls k u t

/-- The request `i`, started in `s`, has returned its completion status in `t`, after some polls. -/
def Ends (i : Instr) (s t : State) : Prop :=
  ∃ u k, exec i s = .next u ∧ Polls k u t ∧ t.running = none

/-- The request `i`, started in `s`, is in `t` after `k` polls, ended or still waiting. -/
def RunsTo (i : Instr) (k : Nat) (s t : State) : Prop := ∃ u, exec i s = .next u ∧ Polls k u t

/-- The position moves on by one with the completion status of a request, and not before (R27, R74, R146). -/
def PosMovesAtTheEnd (s t : State) : Prop := t.pos = if t.running = none then s.pos + 1 else s.pos

/-- An act of the host that presents a request. -/
def isRequest : HostAct → Bool
  | .request _ => true
  | .writeReg _ _ => false
  | .loadPix _ _ _ => false
  | .writePix _ _ => false

/-- How many requests of the host's list have not ended: the one that runs and those to come. -/
def State.requestsLeft (s : State) : Nat :=
  (if s.running = none then 0 else 1) + s.host.countP isRequest

/-- What no request writes: operand registers, construction parameters, PIX, the OPEN parameters and
what the host has still to present (R11 to R14, R23, R170). -/
structure KeptByRequests (s t : State) : Prop where
  regs : t.regs = s.regs
  cfgLimit : t.cfgLimit = s.cfgLimit
  cfgFast : t.cfgFast = s.cfgFast
  pix : t.pix = s.pix
  par : t.par = s.par
  waitBound : t.waitBound = s.waitBound
  host : t.host = s.host

/-- A run of `n` SMART_UPDATE requests, each on an image that differs from the cached frame and each
ending with status OK; between them the host writes its registers and PIX. -/
def DifferingUpdates : Nat → State → State → Prop
  | 0, s, t => t = s
  | n + 1, s, t => ∃ regs pix u, ({ s with regs := regs, pix := pix } : State).diff ≠ none ∧
      Ends .smartUpdate { s with regs := regs, pix := pix } u ∧ u.status = some .ok ∧
      DifferingUpdates n u t

/-! ### Trace fragments (00_scope.md R8, 30_encoding.md R69) -/

/-- `C(b)`. -/
def commandEvents (p : Params) (b : Byte) : List Event := [.set .dc p.cmdLevel, .wr b]

/-- `D(b)`. -/
def dataEvents (p : Params) (b : Byte) : List Event := [.set .dc p.dataLevel, .wr b]

/-- `D*(s)`. -/
def blockEvents (p : Params) (bs : List Byte) : List Event := bs.flatMap (dataEvents p)

/-- One part of a table: `C(CMD_LUT[k]) D*(T[k])`. -/
def lutPartEvents (p : Params) (fast : Bool) (k : LutKey) : List Event :=
  commandEvents p (p.cmdLut.at k) ++ blockEvents p ((p.lutSet fast).at k)

/-- `LUT(T)`. -/
def lutEvents (p : Params) (fast : Bool) : List Event :=
  lutPartEvents p fast .vcom ++ lutPartEvents p fast .ww ++ lutPartEvents p fast .bw ++
    lutPartEvents p fast .wb ++ lutPartEvents p fast .bb

/-- The number of bytes of a table set: T of R122, Tf and Tn of R126. -/
def lutBytes (p : Params) (fast : Bool) : Nat :=
  (p.lutSet fast).vcom.length + (p.lutSet fast).ww.length + (p.lutSet fast).bw.length +
    (p.lutSet fast).wb.length + (p.lutSet fast).bb.length

/-- The level of DC after a table: that of its last frame. -/
def lutLastLevel (p : Params) (fast : Bool) : Level :=
  if (p.lutSet fast).bb = [] then p.cmdLevel else p.dataLevel

/-- The reset pulse (R92). -/
def resetEvents : List Event := [.set .rst .low, .slp 200, .set .rst .high, .slp 200]

/-- A WAIT_IDLE with `n` busy readings (R94). -/
def pollEvents (p : Params) (n : Nat) : List Event :=
  (List.replicate n [Event.rd p.busyLevel, .slp 50]).flatten ++ [.rd p.idleLevel]

/-- A script item whose Wait, if it is one, reads idle at once (R100). -/
def scriptItemEvents (p : Params) : ScriptItem → List Event
  | .cmd b => commandEvents p b
  | .dat b => dataEvents p b
  | .wait => [.rd p.idleLevel]
  | .delay ms => [.slp ms]

/-- INIT whose Wait items read idle at once (R101). -/
def initEvents (p : Params) : List Event :=
  resetEvents ++ p.initScript.flatMap (scriptItemEvents p) ++ lutEvents p false

/-- DISPLAY_FRAME from Ready up to its refresh command: FULL(buf) (R69, R121). -/
def frameEvents (p : Params) (buf : List Byte) : List Event :=
  lutEvents p false ++ commandEvents p p.cmdDtx1 ++
    blockEvents p (List.replicate Config.frameBytes 0xFF#8) ++ commandEvents p p.cmdDtx2 ++
    blockEvents p buf ++ commandEvents p p.cmdRefresh

/-- DISPLAY_PARTIAL: PART(old, new, H, fast), with the wait of `n` busy readings (R69, R124). -/
def partialEvents (p : Params) (fast : Bool) (hdr old new : List Byte) (n : Nat) : List Event :=
  (if fast then lutEvents p true else []) ++
    commandEvents p p.cmdPdtx1 ++ blockEvents p hdr ++ blockEvents p old ++
    commandEvents p p.cmdPdtx2 ++ blockEvents p hdr ++ blockEvents p new ++
    commandEvents p p.cmdPrefresh ++ blockEvents p hdr ++ pollEvents p n ++
    (if fast then lutEvents p false else [])

/-- An event of a micro-operation that can fail: all but Sleep (R85). -/
def Event.canFail : Event → Bool
  | .slp _ => false
  | .set _ _ => true
  | .rd _ => true
  | .wr _ => true

/-- How many micro-operations that can fail a trace fragment holds. -/
def microOps (es : List Event) : Nat := es.countP Event.canFail

/-- An event that is a reading of BUSY. -/
def Event.isRead : Event → Bool
  | .rd _ => true
  | .slp _ => false
  | .set _ _ => false
  | .wr _ => false

/-- How many readings of BUSY a trace fragment holds. -/
def busyReads (es : List Event) : Nat := es.countP Event.isRead

/-- An event that is a byte shifted out. -/
def Event.isWrite : Event → Bool
  | .wr _ => true
  | .slp _ => false
  | .set _ _ => false
  | .rd _ => false

/-- How many bytes a trace fragment shifts out. -/
def bytesWritten (es : List Event) : Nat := es.countP Event.isWrite

/-- The micro-operation that an event records, if it is one that can fail (R85, R140). -/
def Event.microOp : Event → Option MicroOp
  | .set .rst _ => some .setLineRst
  | .set .dc _ => some .setLineDc
  | .rd _ => some .readLineBusy
  | .wr _ => some .writeByte
  | .slp _ => none

/-- The micro-operation number `n` (from 0) of a trace fragment, Sleep not counted. -/
def microOpAt (es : List Event) (n : Nat) : Option MicroOp := (es.filterMap Event.microOp)[n]?

/-- The level of a line after a fragment: that of its last SetLine on `l`, else the old one (R20). -/
def lastSet (l : OutLine) (old : Option Level) : List Event → Option Level
  | [] => old
  | .set l' v :: es => lastSet l (if l' = l then some v else old) es
  | .rd _ :: es => lastSet l old es
  | .wr _ :: es => lastSet l old es
  | .slp _ :: es => lastSet l old es

/-- Every byte of the fragment is shifted out right after DC was set for it (R51, R67). -/
def framed : List Event → Bool
  | [] => true
  | .wr _ :: _ => false
  | .set .dc _ :: .wr _ :: es => framed es
  | .set _ _ :: es => framed es
  | .rd _ :: es => framed es
  | .slp _ :: es => framed es

end Sys2Proof.Machine
end

