-- ==== Sys2Proof/Certificates/Slice0/Obligations.lean ====
section
/-! DEFINITION. The statements for the provers. Each docstring names the rule of spec/ it formalises.
A statement that gives the next state as `{ s with … }` states its frame too: every field it does not
name is as it was, every byte of memory included. A request that ends moves the position in the host's list
on by one (R27). -/

open Sys2Proof Sys2Proof.Machine

/-! ### Encoding -/

/-- R61 to R64: a word decodes to a request exactly when it is that request's encoding. -/
def Obligations.DecodeReadsExactlyTheEncodedWord : Prop :=
  ∀ (w : Word) (i : Instr), decode w = .ok i ↔ encode i = w

/-- R62 to R64: the words that decode are those a row of the opcode table covers, and the row has the
mnemonic of the request read. -/
def Obligations.LegalWordsDecodeToTheirRow : Prop :=
  ∀ w : Word, (legalWord w = true ↔ ∃ i, decode w = .ok i) ∧
    ∀ i, decode w = .ok i → ∀ r ∈ opTable, (r.covers w = true ↔ r.mnemonic = i.mnemonic)

/-- R64, R144: an illegal word raises IllegalRequest: no micro-operation, no state change but ERR bit 3,
the status, and the position, which moves on as for any request (R27, R146). -/
def Obligations.IllegalWordRaisesIllegalRequest : Prop :=
  ∀ (s : State) (w : Word) (rest : List HostAct), s.running = none → s.host = .request w :: rest →
    legalWord w = false →
    step s = .next
      { s with
        host := rest
        pos := s.pos + 1
        err := s.err ||| 0b1000#4
        status := some (.failed (.illegalRequest w)) }

/-- Words written out from R62 and R63 decode to the requests they stand for. -/
def Obligations.WordsOfTheRequestTableDecode : Prop :=
  decode 0x01FF#16 = .ok (.sendCommand 0xFF#8) ∧ decode 0x0200#16 = .ok (.sendData 0x00#8) ∧
  decode 0x0300#16 = .ok .reset ∧ decode 0x0901#16 = .ok (.encodeRegion .last) ∧
  decode 0x1201#16 = .ok (.setLut true) ∧ decode 0x2101#16 = .ok (.displayPartial true) ∧
  decode 0x2200#16 = .ok .smartUpdate ∧ decode 0x0301#16 = .error (.reservedBits 0x03#8 0x01#8) ∧
  decode 0x0500#16 = .error (.unknownOp 0x05#8)

/-! ### The step and the host -/

/-- R27, R55: with no request running, a step takes the host's next act; a word that decodes is
performed. -/
def Obligations.StepPerformsThePresentedRequest : Prop :=
  ∀ (s : State) (w : Word) (rest : List HostAct) (i : Instr), s.running = none →
    s.host = .request w :: rest → decode w = .ok i →
    step s = exec i { s with host := rest }

/-- R52, R173: while a request runs the host has no move: no register, no pixel of PIX and no act of the
host changes, whatever the running request does. The position stays while the request waits and moves on
by one when it ends (R27, R146; at completion DEDUCED, log 23). -/
def Obligations.HostHasNoMoveWhileARequestRuns : Prop :=
  ∀ (s : State) (ws : List Work), s.running = some ws →
    ∃ t, step s = .next t ∧ KeptByRequests s t ∧ PosMovesAtTheEnd s t

/-- R157, R170, and the model's choice in log 1: with nothing presented the block is idle and keeps all
its state. -/
def Obligations.IdleBlockKeepsAllItsState : Prop :=
  ∀ s : State, s.running = none → s.host = [] → step s = .next s

/-- R11, R12, R19: a SETR writes its operand register and nothing else; a number that does not exist
ignores the write and reads 0; every register that exists reads its value, one-bit registers as 0 or 1 and
LIFECYCLE in the code of R15. That the registers the host can only read ignore a write is the model's
reading (log 9). -/
def Obligations.HostRegisterPort : Prop :=
  (∀ (s : State) (n : Nat) (v : Word) (rest : List HostAct), s.running = none →
    s.host = .writeReg n v :: rest →
    ∃ r, step s = .next { s with host := rest, regs := r } ∧
      ∀ m, ({ s with host := rest, regs := r } : State).readReg m =
        if m = n ∧ n < 6 then v.toNat else s.readReg m) ∧
  ∀ s : State,
    s.readReg 0 = s.regs.rx.toNat ∧ s.readReg 1 = s.regs.ry.toNat ∧ s.readReg 2 = s.regs.rh.toNat ∧
    s.readReg 3 = s.regs.rw.toNat ∧ s.readReg 4 = s.regs.pixW.toNat ∧ s.readReg 5 = s.regs.pixH.toNat ∧
    s.readReg 6 = 0 ∧ s.readReg 7 = 0 ∧ s.readReg 8 = s.cfgLimit ∧
    s.readReg 9 = (if s.cfgFast = true then 1 else 0) ∧
    s.readReg 10 = (match s.lifecycle with
      | .uninitialized => 0
      | .initializing => 1
      | .ready => 2
      | .sleeping => 3) ∧
    s.readReg 11 = s.count ∧ s.readReg 12 = (if s.haveLast = true then 1 else 0) ∧
    s.readReg 13 = s.err.toNat ∧ s.readReg 14 = 176 ∧ s.readReg 15 = 264 ∧ s.readReg 16 = s.fbLen.toNat ∧
    ∀ m, 16 < m → s.readReg m = 0

/-- R23, R44, R71: LOADPIX sets PIXW and PIXH and makes the pixel at column x, row y white exactly when
its raw intensity is non-zero; nothing else changes. A list that is no image faults (log 15). -/
def Obligations.LoadPixReducesIntensitiesToBits : Prop :=
  ∀ (s : State) (w h : Word) (raw : List Nat) (rest : List HostAct), s.running = none →
    s.host = .loadPix w h raw :: rest →
    (raw.length = w.toNat * h.toNat →
      ∃ m, step s = .next { s with host := rest, pix := m, regs := { s.regs with pixW := w, pixH := h } } ∧
        ∀ x y, x < w.toNat → y < h.toNat →
          pixelAt m w.toNat x y = (raw.getD (x + y * w.toNat) 0 != 0)) ∧
    (raw.length ≠ w.toNat * h.toNat → step s = .fault .imageIncomplete)

/-- R23: a host write of one pixel changes that pixel of PIX and no other; an address that PIX does not
have faults (log 15). -/
def Obligations.HostPixelWriteTouchesOnePixel : Prop :=
  ∀ (s : State) (a raw : Nat) (rest : List HostAct), s.running = none →
    s.host = .writePix a raw :: rest → s.pix.wf unlistedPixel = true →
    (a < s.regs.pixW.toNat * s.regs.pixH.toNat →
      ∃ m, step s = .next { s with host := rest, pix := m } ∧ m.wf unlistedPixel = true ∧
        ∀ b, Memory.read unlistedPixel m b =
          if b = a then raw != 0 else Memory.read unlistedPixel s.pix b) ∧
    (s.regs.pixW.toNat * s.regs.pixH.toNat ≤ a → step s = .fault .pixelOutsidePix)

/-- R23, R24, R25, R50: a host read of PIX gives the stored bit below PIXW * PIXH, of FB the stored byte
below 5808, and an address from there on does not exist; the host cannot read LAST: its reads of the
registers, of PIX and of FB do not depend on it. -/
def Obligations.HostReadsDoNotDependOnLast : Prop :=
  ∀ (s : State) (m : Memory Bool),
    (∀ a, s.readPix a = if a < s.regs.pixW.toNat * s.regs.pixH.toNat then
      some (Memory.read unlistedPixel s.pix a) else none) ∧
    (∀ a, s.readFb a = if a < 5808 then some (Memory.read unlistedByte s.fb a) else none) ∧
    (∀ n, ({ s with last := m } : State).readReg n = s.readReg n) ∧
    (∀ a, ({ s with last := m } : State).readPix a = s.readPix a) ∧
    ∀ a, ({ s with last := m } : State).readFb a = s.readFb a

/-! ### The protocol encoder -/

/-- R90: SEND_COMMAND sets DC to CMD_LEVEL, then writes the byte, in every lifecycle state and whatever
the byte; TransportError at either micro-operation leaves what had happened before it. -/
def Obligations.SendCommandSetsDcThenWritesTheByte : Prop :=
  ∀ (b : Byte) (s : State),
    (s.env.fails 0 = false → s.env.fails 1 = false →
      exec (.sendCommand b) s = .next
        { s with
          dc := some s.par.cmdLevel
          log := [.wr b, .set .dc s.par.cmdLevel] ++ s.log
          env := s.env.advance 2 0
          status := some .ok
          running := none
          pos := s.pos + 1 }) ∧
    (s.env.fails 0 = true →
      exec (.sendCommand b) s = .next
        { s with
          env := s.env.advance 1 0
          err := s.err ||| 0b0010#4
          status := some (.failed (.transport .setLineDc))
          running := none
          pos := s.pos + 1 }) ∧
    (s.env.fails 0 = false → s.env.fails 1 = true →
      exec (.sendCommand b) s = .next
        { s with
          dc := some s.par.cmdLevel
          log := [.set .dc s.par.cmdLevel] ++ s.log
          env := s.env.advance 2 0
          err := s.err ||| 0b0010#4
          status := some (.failed (.transport .writeByte))
          running := none
          pos := s.pos + 1 })

/-- R91: SEND_DATA, the same with DATA_LEVEL. -/
def Obligations.SendDataSetsDcThenWritesTheByte : Prop :=
  ∀ (b : Byte) (s : State),
    (s.env.fails 0 = false → s.env.fails 1 = false →
      exec (.sendData b) s = .next
        { s with
          dc := some s.par.dataLevel
          log := [.wr b, .set .dc s.par.dataLevel] ++ s.log
          env := s.env.advance 2 0
          status := some .ok
          running := none
          pos := s.pos + 1 }) ∧
    (s.env.fails 0 = true →
      exec (.sendData b) s = .next
        { s with
          env := s.env.advance 1 0
          err := s.err ||| 0b0010#4
          status := some (.failed (.transport .setLineDc))
          running := none
          pos := s.pos + 1 }) ∧
    (s.env.fails 0 = false → s.env.fails 1 = true →
      exec (.sendData b) s = .next
        { s with
          dc := some s.par.dataLevel
          log := [.set .dc s.par.dataLevel] ++ s.log
          env := s.env.advance 2 0
          err := s.err ||| 0b0010#4
          status := some (.failed (.transport .writeByte))
          running := none
          pos := s.pos + 1 })

/-- R92, R171: RESET drives RST low, waits 200 ms, drives it high, waits 200 ms; it writes no register
and no memory, LIFECYCLE included; a failure of the second SetLine leaves RST at 0. -/
def Obligations.ResetPulsesTheResetLine : Prop :=
  ∀ s : State,
    (s.env.fails 0 = false → s.env.fails 1 = false →
      exec .reset s = .next
        { s with
          rst := some .high
          log := [.slp 200, .set .rst .high, .slp 200, .set .rst .low] ++ s.log
          env := s.env.advance 2 0
          status := some .ok
          running := none
          pos := s.pos + 1 }) ∧
    (s.env.fails 0 = true →
      exec .reset s = .next
        { s with
          env := s.env.advance 1 0
          err := s.err ||| 0b0010#4
          status := some (.failed (.transport .setLineRst))
          running := none
          pos := s.pos + 1 }) ∧
    (s.env.fails 0 = false → s.env.fails 1 = true →
      exec .reset s = .next
        { s with
          rst := some .low
          log := [.slp 200, .set .rst .low] ++ s.log
          env := s.env.advance 2 0
          err := s.err ||| 0b0010#4
          status := some (.failed (.transport .setLineRst))
          running := none
          pos := s.pos + 1 })

/-- R94: WAIT_IDLE with `p` busy readings and then an idle one appends them, each busy one followed by a
delay of 50 ms, and changes nothing else; it is the start of the request and `p` polls (log 2). -/
def Obligations.WaitIdleReturnsAtTheFirstIdleReading : Prop :=
  ∀ (s : State) (p : Nat), s.Quiet (p + 1) → s.IdleAfter p → boundReached s.waitBound p = false →
    ∃ u, exec .waitIdle s = .next u ∧
      Polls p u
        { s with
          log := (pollEvents s.par p).reverse ++ s.log
          env := s.env.advance (p + 1) (p + 1)
          status := some .ok
          running := none
          pos := s.pos + 1 }

/-- R95: without a bound, a WAIT_IDLE that has read busy only is still running, with no status,
however many polls there have been. -/
def Obligations.WaitIdleHangsWhileBusy : Prop :=
  ∀ (s : State) (p : Nat), s.waitBound = none → s.Quiet (p + 1) →
    (∀ k, k < p + 1 → s.env.level k ≠ s.par.idleLevel) →
    ∃ u, exec .waitIdle s = .next u ∧
      Polls p u
        { s with
          log := ((List.replicate (p + 1) [Event.rd s.par.busyLevel, .slp 50]).flatten).reverse ++ s.log
          env := s.env.advance (p + 1) (p + 1)
          status := none
          running := some [.wait (p + 1)] }

/-- R143: with WAIT_BOUND = some(N), N at least 1, WAIT_IDLE raises BusyTimeout(N) after the N-th busy
reading, without a further delay. -/
def Obligations.BusyTimeoutAtTheBound : Prop :=
  ∀ (s : State) (n : Nat), s.waitBound = some (n + 1) → s.Quiet (n + 1) →
    (∀ k, k < n + 1 → s.env.level k ≠ s.par.idleLevel) →
    ∃ u, exec .waitIdle s = .next u ∧
      Polls n u
        { s with
          log := ((List.replicate n [Event.rd s.par.busyLevel, .slp 50]).flatten ++
            [Event.rd s.par.busyLevel]).reverse ++ s.log
          env := s.env.advance (n + 1) (n + 1)
          err := s.err ||| 0b0100#4
          status := some (.failed (.busyTimeout (n + 1)))
          running := none
          pos := s.pos + 1 }

/-- R94, R142, R143: the first poll of WAIT_IDLE, when its ReadLine fails, appends nothing and ends the
request with TransportError; a later poll of a running request does the same, or reads idle and goes on
with the rest of the request, or reads busy and goes round after a delay, or reads busy at the bound and
ends the request with BusyTimeout. -/
def Obligations.PollOfARunningRequest : Prop :=
  (∀ s : State, s.env.fails 0 = true →
    exec .waitIdle s = .next
      { s with
        env := s.env.advance 1 0
        err := s.err ||| 0b0010#4
        status := some (.failed (.transport .readLineBusy))
        running := none
        pos := s.pos + 1 }) ∧
  ∀ (s : State) (n : Nat) (ws : List Work), s.running = some (.wait n :: ws) →
    (s.env.fails 0 = true →
      step s = .next
        { s with
          env := s.env.advance 1 0
          err := s.err ||| 0b0010#4
          status := some (.failed (.transport .readLineBusy))
          running := none
          pos := s.pos + 1 }) ∧
    (s.env.fails 0 = false → s.env.level 0 = s.par.idleLevel →
      step s = .next (runWork ws
        { s with log := .rd s.par.idleLevel :: s.log, env := s.env.advance 1 1 })) ∧
    (s.env.fails 0 = false → s.env.level 0 ≠ s.par.idleLevel → boundReached s.waitBound (n + 1) = false →
      step s = .next
        { s with
          log := [.slp 50, .rd s.par.busyLevel] ++ s.log
          env := s.env.advance 1 1
          status := none
          running := some (.wait (n + 1) :: ws) }) ∧
    (s.env.fails 0 = false → s.env.level 0 ≠ s.par.idleLevel → boundReached s.waitBound (n + 1) = true →
      step s = .next
        { s with
          log := .rd s.par.busyLevel :: s.log
          env := s.env.advance 1 1
          err := s.err ||| 0b0100#4
          status := some (.failed (.busyTimeout (n + 1)))
          running := none
          pos := s.pos + 1 })

/-! ### Initialisation, sleep and the tables -/

/-- R103: SET_LUT sends the five parts of the chosen table in order and writes no register. -/
def Obligations.SetLutSendsTheFiveParts : Prop :=
  ∀ (fast : Bool) (s : State), s.Quiet (microOps (lutEvents s.par fast)) →
    exec (.setLut fast) s = .next
      { s with
        dc := some (lutLastLevel s.par fast)
        log := (lutEvents s.par fast).reverse ++ s.log
        env := s.env.advance (microOps (lutEvents s.par fast)) 0
        status := some .ok
        running := none
        pos := s.pos + 1 }

/-- R101: INIT from any lifecycle state, the Wait items of its script reading idle at once: the reset
pulse, the script, the normal table; LIFECYCLE ends Ready; COUNT, HAVE_LAST, LAST and FB are kept. -/
def Obligations.InitSendsResetScriptAndNormalTable : Prop :=
  ∀ s : State, s.Quiet (microOps (initEvents s.par)) → s.IdleFor (busyReads (initEvents s.par)) →
    exec .init s = .next
      { s with
        lifecycle := .ready
        rst := some .high
        dc := some (lutLastLevel s.par false)
        log := (initEvents s.par).reverse ++ s.log
        env := s.env.advance (microOps (initEvents s.par)) (busyReads (initEvents s.par))
        status := some .ok
        running := none
        pos := s.pos + 1 }

/-- R101, R147: an INIT, however often its script waits, ends in Ready with status OK or in Initializing
with an exception, and touches neither the cache, nor COUNT, nor FB. -/
def Obligations.InitEndsReadyOrInitializing : Prop :=
  ∀ s t : State, Ends .init s t →
    ((t.status = some .ok ∧ t.lifecycle = .ready) ∨
      ∃ e, t.status = some (.failed e) ∧ t.lifecycle = .initializing) ∧
    t.count = s.count ∧ t.haveLast = s.haveLast ∧ t.last = s.last ∧ t.fb = s.fb ∧ t.fbLen = s.fbLen ∧
    KeptByRequests s t

/-- R102: SLEEP from Ready sends the deep-sleep command and the check byte and moves to Sleeping; when
an exception ends it LIFECYCLE is still Ready; outside Ready it is refused. -/
def Obligations.SleepFromReadyOnly : Prop :=
  ∀ s : State,
    (s.lifecycle = .ready → s.Quiet 4 →
      exec .sleep s = .next
        { s with
          lifecycle := .sleeping
          dc := some s.par.dataLevel
          log := [.wr s.par.sleepCheck, .set .dc s.par.dataLevel, .wr s.par.cmdDeepSleep,
            .set .dc s.par.cmdLevel] ++ s.log
          env := s.env.advance 4 0
          status := some .ok
          running := none
          pos := s.pos + 1 }) ∧
    (s.lifecycle = .ready → ¬ s.Quiet 4 →
      ∃ t op, exec .sleep s = .next t ∧ t.status = some (.failed (.transport op)) ∧
        t.lifecycle = .ready ∧ t.count = s.count ∧ t.haveLast = s.haveLast ∧ t.last = s.last) ∧
    (s.lifecycle ≠ .ready → exec .sleep s = .refused .sleepOutsideReady)

/-- R104: LIFECYCLE changes only as the table says. That no frame is cached in Uninitialized (R125) is the
invariant's, Obligations.StepKeepsTheInvariant; SMART_UPDATE's row rests on it. -/
def Obligations.LifecycleChangesOnlyAsTheTableSays : Prop :=
  ∀ (i : Instr) (s t : State), Ends i s t →
    match i with
    | .init => (t.status = some .ok ∧ t.lifecycle = .ready) ∨
        (t.status ≠ some .ok ∧ t.lifecycle = .initializing)
    | .sleep => s.lifecycle = .ready ∧ ((t.status = some .ok ∧ t.lifecycle = .sleeping) ∨
        (t.status ≠ some .ok ∧ t.lifecycle = .ready))
    | .displayFrame =>
        (s.lifecycle = .ready ∧ t.lifecycle = .ready) ∨
        (s.lifecycle = .uninitialized ∧ (t.lifecycle = .ready ∨
          (t.status ≠ some .ok ∧ t.lifecycle = .initializing)))
    | .displayPartial _ => s.lifecycle = .ready ∧ t.lifecycle = .ready
    | .smartUpdate => s.Inv →
        (s.lifecycle = .ready ∧ t.lifecycle = .ready) ∨
        (s.lifecycle = .uninitialized ∧ (t.lifecycle = .ready ∨
          (t.status ≠ some .ok ∧ t.lifecycle = .initializing)))
    | .sendCommand _ => t.lifecycle = s.lifecycle
    | .sendData _ => t.lifecycle = s.lifecycle
    | .reset => t.lifecycle = s.lifecycle
    | .waitIdle => t.lifecycle = s.lifecycle
    | .encode => t.lifecycle = s.lifecycle
    | .encodeRegion _ => t.lifecycle = s.lifecycle
    | .setLut _ => t.lifecycle = s.lifecycle

/-- R120, R121, R124, R125, R151: in which lifecycle states the display requests are refused as
DisplayWhileNotReady, whatever else the state holds. -/
def Obligations.DisplayRequestsAreRefusedWhileNotReady : Prop :=
  ∀ s : State,
    (exec .displayFrame s = .refused .displayWhileNotReady ↔
      s.lifecycle = .sleeping ∨ s.lifecycle = .initializing) ∧
    (∀ fast, exec (.displayPartial fast) s = .refused .displayWhileNotReady ↔ s.lifecycle ≠ .ready) ∧
    (s.lifecycle = .sleeping ∨ s.lifecycle = .initializing →
      exec .smartUpdate s = .refused .displayWhileNotReady)

/-! ### The frame-buffer codec -/

/-- R41, R113: ENCODE of a 176 x 264 source packs pixel (x, y) into bit 7 - x mod 8 of byte
(x + 176*y) div 8 of FB, sets FB_LEN to 5808, and changes nothing else; any other size raises
DimensionError with the offending size, and FB and FB_LEN keep their values. -/
def Obligations.EncodePacksThePanelOrRaisesDimensionError : Prop :=
  ∀ s : State,
    (s.regs.pixW = 176#16 → s.regs.pixH = 264#16 →
      ∃ m, exec .encode s = .next
          { s with fb := m, fbLen := 5808#16, status := some .ok, running := none, pos := s.pos + 1 } ∧
        (∀ x y, x < 176 → y < 264 →
          ((Memory.read unlistedByte m ((x + y * 176) / 8) >>> (7 - x % 8)).toNat % 2 == 1) =
            s.pixel .pix x y) ∧
        ∀ a, 5808 ≤ a → Memory.read unlistedByte m a = Memory.read unlistedByte s.fb a) ∧
    (¬ (s.regs.pixW = 176#16 ∧ s.regs.pixH = 264#16) →
      exec .encode s = .next
        { s with
          err := s.err ||| 0b0001#4
          status := some (.failed (.dimension s.regs.pixW s.regs.pixH))
          running := none
          pos := s.pos + 1 })

/-- R114: ENCODE_REGION of an admitted region packs region pixel (i, j) into bit 7 - i mod 8 of byte
(i + j*w) div 8 of FB, sets FB_LEN to the packed length and changes nothing else; the bytes of FB from
that length on keep their content. -/
def Obligations.EncodeRegionPacksTheRegion : Prop :=
  ∀ (src : Source) (s : State),
    (src = .last → s.haveLast = true) → s.regs.rw.toNat % 8 = 0 →
    s.regs.rx.toNat + s.regs.rw.toNat ≤ s.srcWidth src →
    s.regs.ry.toNat + s.regs.rh.toNat ≤ s.srcHeight src →
    s.regs.rw.toNat / 8 * s.regs.rh.toNat ≤ 5808 →
    ∃ m n, exec (.encodeRegion src) s = .next
        { s with fb := m, fbLen := n, status := some .ok, running := none, pos := s.pos + 1 } ∧
      n.toNat = s.regs.rw.toNat / 8 * s.regs.rh.toNat ∧
      (∀ i j, i < s.regs.rw.toNat → j < s.regs.rh.toNat →
        ((Memory.read unlistedByte m ((i + j * s.regs.rw.toNat) / 8) >>> (7 - i % 8)).toNat % 2 == 1) =
          s.pixel src (s.regs.rx.toNat + i) (s.regs.ry.toNat + j)) ∧
      ∀ a, n.toNat ≤ a → Memory.read unlistedByte m a = Memory.read unlistedByte s.fb a

/-- R114 to R116: the four refusals of ENCODE_REGION, in their order. -/
def Obligations.EncodeRegionRefusals : Prop :=
  ∀ (src : Source) (s : State),
    (src = .last ∧ s.haveLast = false → exec (.encodeRegion src) s = .refused .noLastFrame) ∧
    (¬ (src = .last ∧ s.haveLast = false) → s.regs.rw.toNat % 8 ≠ 0 →
      exec (.encodeRegion src) s = .refused .widthNotMultipleOf8) ∧
    (¬ (src = .last ∧ s.haveLast = false) → s.regs.rw.toNat % 8 = 0 →
      (s.regs.rx.toNat + s.regs.rw.toNat > s.srcWidth src ∨
        s.regs.ry.toNat + s.regs.rh.toNat > s.srcHeight src) →
      exec (.encodeRegion src) s = .refused .regionOutsideSource) ∧
    (¬ (src = .last ∧ s.haveLast = false) → s.regs.rw.toNat % 8 = 0 →
      s.regs.rx.toNat + s.regs.rw.toNat ≤ s.srcWidth src →
      s.regs.ry.toNat + s.regs.rh.toNat ≤ s.srcHeight src →
      s.regs.rw.toNat / 8 * s.regs.rh.toNat > 5808 →
      exec (.encodeRegion src) s = .refused .bufferTooLong)

/-- R46, R111: for a width that is a multiple of 8 the byte-wise packing that the requests run is the
packing function of the spec with its two loops. -/
def Obligations.PackAgreesWithTheLoopOfTheSpec : Prop :=
  ∀ (f : Nat → Nat → Bool) (r : Region), r.w % 8 = 0 → pack f r = packLoop f r

/-- R112, R117: a packed region has w*h/8 bytes, and unpacking gives back every pixel. -/
def Obligations.UnpackInvertsPack : Prop :=
  ∀ (f : Nat → Nat → Bool) (r : Region), r.w % 8 = 0 →
    (pack f r).length = ceilDiv (r.w * r.h) 8 ∧
    ∀ i j, i < r.w → j < r.h → unpack (pack f r) r.w i j = f (r.x + i) (r.y + j)

/-! ### The refresh transactions -/

/-- R42, R66: the header is x, y, h, w, each the high byte first. -/
def Obligations.HeaderIsFourFieldsHighByteFirst : Prop :=
  ∀ r : Region, r.x < 65536 → r.y < 65536 → r.h < 65536 → r.w < 65536 →
    r.header.map BitVec.toNat =
      [r.x / 256, r.x % 256, r.y / 256, r.y % 256, r.h / 256, r.h % 256, r.w / 256, r.w % 256]

/-- R123: x goes down and w up to a multiple of 8, by at most 7, independently; y and h pass; the given
right edge is covered when x was a multiple of 8, and otherwise missed by at most 7 columns. -/
def Obligations.AlignmentOfAPartialRegion : Prop :=
  ∀ r : Region, r.aligned.x % 8 = 0 ∧ r.aligned.x ≤ r.x ∧ r.x ≤ r.aligned.x + 7 ∧
    r.aligned.w % 8 = 0 ∧ r.w ≤ r.aligned.w ∧ r.aligned.w ≤ r.w + 7 ∧
    r.aligned.y = r.y ∧ r.aligned.h = r.h ∧
    (r.x % 8 = 0 → r.x + r.w ≤ r.aligned.x + r.aligned.w) ∧
    r.x + r.w ≤ r.aligned.x + r.aligned.w + 7

/-- R121: DISPLAY_FRAME from Ready, the controller busy for `p` polls: the normal table, the dummy
buffer on channel 1, the image on channel 2, the refresh command, the wait; then LAST is the image,
HAVE_LAST 1 and COUNT 0. -/
def Obligations.DisplayFrameFromReady : Prop :=
  ∀ (s : State) (p : Nat), s.lifecycle = .ready → s.regs.pixW = 176#16 → s.regs.pixH = 264#16 →
    s.Quiet (microOps (frameEvents s.par (pack (s.pixel .pix) panelRegion)) + (p + 1)) →
    s.IdleAfter p → boundReached s.waitBound p = false →
    ∃ u, exec .displayFrame s = .next u ∧
      Polls p u
        { s with
          dc := some s.par.cmdLevel
          log := (frameEvents s.par (pack (s.pixel .pix) panelRegion) ++
            pollEvents s.par p).reverse ++ s.log
          env := s.env.advance
            (microOps (frameEvents s.par (pack (s.pixel .pix) panelRegion)) + (p + 1)) (p + 1)
          fb := s.fb.writeFront unlistedByte (pack (s.pixel .pix) panelRegion)
          fbLen := 5808#16
          last := s.pix.front 46464
          haveLast := true
          count := 0
          status := some .ok
          running := none
          pos := s.pos + 1 }

/-- R121, 90_conflicts.md C1: DISPLAY_FRAME from Uninitialized performs INIT first, and ends Ready. -/
def Obligations.DisplayFrameInitialisesFirst : Prop :=
  ∀ (s : State) (p r m : Nat), s.lifecycle = .uninitialized → s.regs.pixW = 176#16 →
    s.regs.pixH = 264#16 → r = busyReads (initEvents s.par) →
    m = microOps (initEvents s.par) +
      microOps (frameEvents s.par (pack (s.pixel .pix) panelRegion)) + (p + 1) →
    s.Quiet m → s.IdleFor r → (∀ k, k < p → s.env.level (r + k) ≠ s.par.idleLevel) →
    s.env.level (r + p) = s.par.idleLevel → boundReached s.waitBound p = false →
    ∃ u, exec .displayFrame s = .next u ∧
      Polls p u
        { s with
          lifecycle := .ready
          rst := some .high
          dc := some s.par.cmdLevel
          log := (initEvents s.par ++ frameEvents s.par (pack (s.pixel .pix) panelRegion) ++
            pollEvents s.par p).reverse ++ s.log
          env := s.env.advance m (r + (p + 1))
          fb := s.fb.writeFront unlistedByte (pack (s.pixel .pix) panelRegion)
          fbLen := 5808#16
          last := s.pix.front 46464
          haveLast := true
          count := 0
          status := some .ok
          running := none
          pos := s.pos + 1 }

/-- R121, R141, D37: a wrong-sized image stops DISPLAY_FRAME with DimensionError after the normal table
has been sent, and from Uninitialized after INIT and the table, LIFECYCLE then Ready; LAST, HAVE_LAST, COUNT
and FB are kept. -/
def Obligations.DisplayFrameOfAWrongSizeSendsTheTableFirst : Prop :=
  (∀ s : State, s.lifecycle = .uninitialized → ¬ (s.regs.pixW = 176#16 ∧ s.regs.pixH = 264#16) →
    s.Quiet (microOps (initEvents s.par ++ lutEvents s.par false)) →
    s.IdleFor (busyReads (initEvents s.par)) →
    exec .displayFrame s = .next
      { s with
        lifecycle := .ready
        rst := some .high
        dc := some (lutLastLevel s.par false)
        log := (initEvents s.par ++ lutEvents s.par false).reverse ++ s.log
        env := s.env.advance (microOps (initEvents s.par ++ lutEvents s.par false))
          (busyReads (initEvents s.par))
        err := s.err ||| 0b0001#4
        status := some (.failed (.dimension s.regs.pixW s.regs.pixH))
        running := none
        pos := s.pos + 1 }) ∧
  ∀ s : State, s.lifecycle = .ready → ¬ (s.regs.pixW = 176#16 ∧ s.regs.pixH = 264#16) →
    s.Quiet (microOps (lutEvents s.par false)) →
    exec .displayFrame s = .next
      { s with
        dc := some (lutLastLevel s.par false)
        log := (lutEvents s.par false).reverse ++ s.log
        env := s.env.advance (microOps (lutEvents s.par false)) 0
        err := s.err ||| 0b0001#4
        status := some (.failed (.dimension s.regs.pixW s.regs.pixH))
        running := none
        pos := s.pos + 1 }

/-- R122: a successful DISPLAY_FRAME from Ready with `p` busy polls appends 2*T + 23 249 + 2*p events, of
which 11 624 + T are bytes written. -/
def Obligations.EventCountOfDisplayFrame : Prop :=
  ∀ (s : State) (p : Nat), s.lifecycle = .ready → s.regs.pixW = 176#16 → s.regs.pixH = 264#16 →
    s.Quiet (microOps (frameEvents s.par (pack (s.pixel .pix) panelRegion)) + (p + 1)) →
    s.IdleAfter p → boundReached s.waitBound p = false →
    ∃ t es, RunsTo .displayFrame p s t ∧ t.status = some .ok ∧ t.trace = s.trace ++ es ∧
      es.length = 2 * lutBytes s.par false + 23249 + 2 * p ∧
      bytesWritten es = 11624 + lutBytes s.par false

/-- R124: DISPLAY_PARTIAL on a panel-sized image with a cached frame, the aligned region inside the
panel, the controller busy for `p` polls: the fast table if asked, header and old content, header and new
content, header with the refresh command, the wait, the normal table if the fast one was sent; then LAST
is the whole image and COUNT one more. RX and RW are not changed. -/
def Obligations.DisplayPartialTransaction : Prop :=
  ∀ (fast : Bool) (s : State) (r : Region) (old new : List Byte) (p : Nat),
    s.lifecycle = .ready → s.haveLast = true → s.regs.pixW = 176#16 → s.regs.pixH = 264#16 →
    r = s.region.aligned → r.x + r.w ≤ 176 → r.y + r.h ≤ 264 →
    old = pack (s.pixel .last) r → new = pack (s.pixel .pix) r →
    s.Quiet (microOps (partialEvents s.par fast r.header old new p)) →
    s.IdleAfter p → boundReached s.waitBound p = false →
    ∃ u, exec (.displayPartial fast) s = .next u ∧
      Polls p u
        { s with
          dc := some (if fast then lutLastLevel s.par false else s.par.dataLevel)
          log := (partialEvents s.par fast r.header old new p).reverse ++ s.log
          env := s.env.advance (microOps (partialEvents s.par fast r.header old new p)) (p + 1)
          fb := (s.fb.writeFront unlistedByte old).writeFront unlistedByte new
          fbLen := BitVec.ofNat 16 (r.w / 8 * r.h)
          last := s.pix.front 46464
          haveLast := true
          count := s.count + 1
          status := some .ok
          running := none
          pos := s.pos + 1 }

/-- R124, R125: the refusals of DISPLAY_PARTIAL, in their order, the bound tested on the aligned region. -/
def Obligations.DisplayPartialRefusals : Prop :=
  ∀ (fast : Bool) (s : State),
    (s.lifecycle ≠ .ready → exec (.displayPartial fast) s = .refused .displayWhileNotReady) ∧
    (s.lifecycle = .ready → s.haveLast = false →
      exec (.displayPartial fast) s = .refused .noLastFrame) ∧
    (s.lifecycle = .ready → s.haveLast = true → ¬ (s.regs.pixW = 176#16 ∧ s.regs.pixH = 264#16) →
      exec (.displayPartial fast) s = .refused .imageNotPanelSized) ∧
    (s.lifecycle = .ready → s.haveLast = true → s.regs.pixW = 176#16 → s.regs.pixH = 264#16 →
      (rd8 s.regs.rx.toNat + ru8 s.regs.rw.toNat > 176 ∨ s.regs.ry.toNat + s.regs.rh.toNat > 264) →
      exec (.displayPartial fast) s = .refused .regionOutsidePanel)

/-- R126: the number of events that a successful DISPLAY_PARTIAL appends. -/
def Obligations.EventCountOfDisplayPartial : Prop :=
  ∀ (fast : Bool) (s : State) (r : Region) (n p : Nat),
    s.lifecycle = .ready → s.haveLast = true → s.regs.pixW = 176#16 → s.regs.pixH = 264#16 →
    r = s.region.aligned → r.x + r.w ≤ 176 → r.y + r.h ≤ 264 → n = r.w / 8 * r.h →
    s.Quiet (microOps (partialEvents s.par fast r.header (pack (s.pixel .last) r)
      (pack (s.pixel .pix) r) p)) →
    s.IdleAfter p → boundReached s.waitBound p = false →
    ∃ t es, RunsTo (.displayPartial fast) p s t ∧ t.status = some .ok ∧ t.trace = s.trace ++ es ∧
      es.length = 2 * (27 + 2 * n) + (2 * p + 1) +
        (if fast then 2 * (5 + lutBytes s.par true) + 2 * (5 + lutBytes s.par false) else 0)

/-- R54, R127: when a display request has ended, after however many polls, either its status is OK and
LAST equals PIX in all 46 464 pixels, HAVE_LAST is 1, LIFECYCLE is Ready and COUNT is 0 (frame) or one
more (partial), or it ended in an exception and LAST, HAVE_LAST and COUNT are what they were. -/
def Obligations.CacheAndCounterCommitTogetherOrNotAtAll : Prop :=
  ∀ (i : Instr) (s t : State), (i = .displayFrame ∨ ∃ fast, i = .displayPartial fast) → Ends i s t →
    (t.status = some .ok ∧ (∀ a, a < 46464 →
        Memory.read unlistedPixel t.last a = Memory.read unlistedPixel s.pix a) ∧
      t.haveLast = true ∧ t.lifecycle = .ready ∧
      t.count = (if i = .displayFrame then 0 else s.count + 1)) ∨
    (∃ e, t.status = some (.failed e) ∧ t.last = s.last ∧ t.haveLast = s.haveLast ∧ t.count = s.count)

/-! ### The policy -/

/-- R132: there is no difference box exactly when every pixel of the panel agrees. -/
def Obligations.NoDifferenceBoxMeansIdenticalFrames : Prop :=
  ∀ s : State, s.diff = none ↔
    ∀ x y, x < 176 → y < 264 → pixelAt s.last 176 x y = pixelAt s.pix 176 x y

/-- R132: the difference box lies in the panel, holds every differing pixel, and each of its four edges
is one that a differing pixel forces: it is the smallest. -/
def Obligations.DifferenceBoxIsTheSmallest : Prop :=
  ∀ (s : State) (b : Box), s.diff = some b →
    b.left < b.right ∧ b.right ≤ 176 ∧ b.top < b.bottom ∧ b.bottom ≤ 264 ∧
    (∀ x y, x < 176 → y < 264 → pixelAt s.last 176 x y ≠ pixelAt s.pix 176 x y →
      b.left ≤ x ∧ x < b.right ∧ b.top ≤ y ∧ y < b.bottom) ∧
    (∃ y, y < 264 ∧ pixelAt s.last 176 b.left y ≠ pixelAt s.pix 176 b.left y) ∧
    (∃ y, y < 264 ∧ pixelAt s.last 176 (b.right - 1) y ≠ pixelAt s.pix 176 (b.right - 1) y) ∧
    (∃ x, x < 176 ∧ pixelAt s.last 176 x b.top ≠ pixelAt s.pix 176 x b.top) ∧
    ∃ x, x < 176 ∧ pixelAt s.last 176 x (b.bottom - 1) ≠ pixelAt s.pix 176 x (b.bottom - 1)

/-- R133: the rectangle of a difference box is byte-aligned, inside the panel, covers the box, is left
as it is by DISPLAY_PARTIAL's alignment, and both of its clamps change nothing. -/
def Obligations.RefreshRectangleCoversTheBox : Prop :=
  ∀ (s : State) (b : Box), s.diff = some b →
    b.rect.x = rd8 b.left ∧ b.rect.x % 8 = 0 ∧ b.rect.w % 8 = 0 ∧ 8 ≤ b.rect.w ∧ 1 ≤ b.rect.h ∧
    b.rect.x ≤ b.left ∧ b.right ≤ b.rect.x + b.rect.w ∧ b.rect.x + b.rect.w ≤ 176 ∧
    b.rect.y = b.top ∧ b.rect.y + b.rect.h = b.bottom ∧ b.rect.y + b.rect.h ≤ 264 ∧
    b.rect.w = ru8 (b.right - b.rect.x) ∧ b.rect.h = b.bottom - b.top ∧ b.rect.aligned = b.rect

/-- R134: a box is eligible for the fast table exactly when CFG_FAST is 1 and every pixel of the previous
frame in the unrounded box was white. -/
def Obligations.FastEligibilityReadsTheOldFrame : Prop :=
  ∀ (s : State) (b : Box), s.eligible b = true ↔
    s.cfgFast = true ∧ ∀ x y, b.left ≤ x → x < b.right → b.top ≤ y → y < b.bottom →
      pixelAt s.last 176 x y = true

/-- R131: with no cached frame, or with COUNT equal to CFG_LIMIT, SMART_UPDATE is DISPLAY_FRAME, whatever
the image. -/
def Obligations.SmartUpdateFullPath : Prop :=
  ∀ s : State, s.haveLast = false ∨ s.count = s.cfgLimit → exec .smartUpdate s = exec .displayFrame s

/-- R131, 90_conflicts.md C6: with an identical image SMART_UPDATE performs no transaction and changes
nothing but the status and the position; with an image that is not panel-sized it is refused. -/
def Obligations.SmartUpdateOfAnIdenticalImageDoesNothing : Prop :=
  ∀ s : State, (s.lifecycle = .ready ∨ s.lifecycle = .uninitialized) → s.haveLast = true →
    s.count ≠ s.cfgLimit →
    (s.regs.pixW = 176#16 → s.regs.pixH = 264#16 →
      (∀ x y, x < 176 → y < 264 → pixelAt s.last 176 x y = pixelAt s.pix 176 x y) →
      exec .smartUpdate s = .next { s with status := some .ok, running := none, pos := s.pos + 1 }) ∧
    (¬ (s.regs.pixW = 176#16 ∧ s.regs.pixH = 264#16) →
      exec .smartUpdate s = .refused .imageNotPanelSized)

/-- R131, R133: from Ready, with a cached frame, COUNT not at the limit and a different panel-sized
image, SMART_UPDATE is never refused: it performs the partial refresh of the rectangle of the difference
box, fast exactly when the box is eligible, without reading or writing RX, RY, RH, RW. -/
def Obligations.SmartUpdatePartialPath : Prop :=
  ∀ (s : State) (b : Box) (fast : Bool) (old new : List Byte) (p : Nat),
    s.lifecycle = .ready → s.haveLast = true → s.count ≠ s.cfgLimit →
    s.regs.pixW = 176#16 → s.regs.pixH = 264#16 → s.diff = some b → fast = s.eligible b →
    old = pack (s.pixel .last) b.rect → new = pack (s.pixel .pix) b.rect →
    s.Quiet (microOps (partialEvents s.par fast b.rect.header old new p)) →
    s.IdleAfter p → boundReached s.waitBound p = false →
    ∃ u, exec .smartUpdate s = .next u ∧
      Polls p u
        { s with
          dc := some (if fast then lutLastLevel s.par false else s.par.dataLevel)
          log := (partialEvents s.par fast b.rect.header old new p).reverse ++ s.log
          env := s.env.advance (microOps (partialEvents s.par fast b.rect.header old new p)) (p + 1)
          fb := (s.fb.writeFront unlistedByte old).writeFront unlistedByte new
          fbLen := BitVec.ofNat 16 (b.rect.w / 8 * b.rect.h)
          last := s.pix.front 46464
          haveLast := true
          count := s.count + 1
          status := some .ok
          running := none
          pos := s.pos + 1 }

/-- R135: from COUNT = 0 with a cached frame, after CFG_LIMIT consecutive SMART_UPDATEs that each
found a difference, COUNT has gone up by one each time, and the next SMART_UPDATE is a full refresh,
whatever the image. -/
def Obligations.BurnInBound : Prop :=
  ∀ (n : Nat) (s t : State), s.count = 0 → s.haveLast = true → n ≤ s.cfgLimit →
    DifferingUpdates n s t →
    t.count = n ∧
    (n = s.cfgLimit → ∀ regs pix,
      exec .smartUpdate { t with regs := regs, pix := pix } =
        exec .displayFrame { t with regs := regs, pix := pix })

/-- R136, 90_conflicts.md C5: a second SMART_UPDATE with the same image performs no transaction and
changes nothing but the position, when COUNT after the first differs from CFG_LIMIT. -/
def Obligations.SecondSmartUpdateDoesNothing : Prop :=
  ∀ s t : State, Ends .smartUpdate s t → t.status = some .ok → t.count ≠ t.cfgLimit →
    exec .smartUpdate t = .next { t with pos := t.pos + 1 }

/-! ### Exceptions -/

/-- R18, R146: no step clears an ERR bit, and every step only appends to the trace. -/
def Obligations.ErrIsStickyAndTheTraceOnlyGrows : Prop :=
  ∀ s t : State, step s = .next t → s.err &&& t.err = s.err ∧ ∃ es, t.trace = s.trace ++ es

/-- R51, R67: in the events a step appends, every byte is shifted out right after DC was set for it. -/
def Obligations.EveryByteHasItsDcSetting : Prop :=
  ∀ s t : State, step s = .next t → ∃ es, t.trace = s.trace ++ es ∧ framed es = true

/-- R74, R146: a request that is performed ends with status OK and ERR as it was, or with an exception
whose bit alone is added to ERR, or is still waiting, with no status. -/
def Obligations.StatusAndErrAgree : Prop :=
  ∀ (i : Instr) (s t : State), exec i s = .next t →
    (t.status = some .ok ∧ t.err = s.err ∧ t.running = none) ∨
    (∃ e, t.status = some (.failed e) ∧ t.err = s.err ||| (1#4 <<< ((Status.failed e).code - 1)) ∧
      t.running = none) ∨
    (t.status = none ∧ t.err = s.err ∧ ∃ n ws, t.running = some (.wait n :: ws))

/-- R140, R143: which request raises which exception, after however many polls, and with which recorded
value: the size, a micro-operation that the request performs, the number of busy readings. -/
def Obligations.ExceptionsOfEachRequest : Prop :=
  ∀ (i : Instr) (s t : State) (e : Exc), Ends i s t → t.status = some (.failed e) →
    match e with
    | .dimension w h => w = s.regs.pixW ∧ h = s.regs.pixH ∧ ¬ (w = 176#16 ∧ h = 264#16) ∧
        (i = .encode ∨ i = .displayFrame ∨
          (i = .smartUpdate ∧ (s.haveLast = false ∨ s.count = s.cfgLimit)))
    | .transport op =>
        match i with
        | .sendCommand _ => op = .setLineDc ∨ op = .writeByte
        | .sendData _ => op = .setLineDc ∨ op = .writeByte
        | .reset => op = .setLineRst
        | .waitIdle => op = .readLineBusy
        | .encode => False
        | .encodeRegion _ => False
        | .init => op = .readLineBusy → .wait ∈ s.par.initScript
        | .sleep => op = .setLineDc ∨ op = .writeByte
        | .setLut _ => op = .setLineDc ∨ op = .writeByte
        | .displayFrame => op = .setLineRst → s.lifecycle = .uninitialized
        | .displayPartial _ => op ≠ .setLineRst
        | .smartUpdate => op = .setLineRst → s.lifecycle = .uninitialized
    | .busyTimeout n => (∃ b, s.waitBound = some b ∧ n = max b 1) ∧
        (i = .waitIdle ∨ (i = .init ∧ .wait ∈ s.par.initScript) ∨ i = .displayFrame ∨
          (∃ fast, i = .displayPartial fast) ∨ i = .smartUpdate)
    | .illegalRequest _ => False

/-- R11 to R14, R23, R31: no request writes an operand register, a construction parameter, PIX, or what
the host has still to present. R27, R146: it moves the position by one when it ends, and not while it waits
(at completion DEDUCED, log 23). -/
def Obligations.RequestsWriteNothingOfTheHosts : Prop :=
  ∀ (i : Instr) (s t : State), exec i s = .next t → KeptByRequests s t ∧ PosMovesAtTheEnd s t

/-- R93, R142, R146: exceptions are precise. When the micro-operation number `n` of a SET_LUT is the first
to fail, TransportError names it, the trace shows exactly the `n` before it, DC is at the level of the last
SetLine before it, and no register and no memory but ERR has changed. -/
def Obligations.SetLutFailureIsPrecise : Prop :=
  ∀ (fast : Bool) (s : State) (n : Nat), n < microOps (lutEvents s.par fast) → s.Quiet n →
    s.env.fails n = true →
    ∃ pre op, pre <+: lutEvents s.par fast ∧ microOps pre = n ∧
      microOpAt (lutEvents s.par fast) n = some op ∧
      exec (.setLut fast) s = .next
        { s with
          dc := lastSet .dc s.dc pre
          log := pre.reverse ++ s.log
          env := s.env.advance (n + 1) 0
          err := s.err ||| 0b0010#4
          status := some (.failed (.transport op))
          running := none
          pos := s.pos + 1 }

/-- R142, R146, R147: the same for a DISPLAY_FRAME from Ready up to its refresh command: nothing after
the failure is sent, FB and FB_LEN hold the new encoding when the ENCODE step was passed and are as they
were before it, and LAST, HAVE_LAST, COUNT and LIFECYCLE are kept. -/
def Obligations.DisplayFrameFailureIsPrecise : Prop :=
  ∀ (s : State) (buf : List Byte) (n : Nat), s.lifecycle = .ready → s.regs.pixW = 176#16 →
    s.regs.pixH = 264#16 → buf = pack (s.pixel .pix) panelRegion →
    n < microOps (frameEvents s.par buf) → s.Quiet n → s.env.fails n = true →
    ∃ pre op, pre <+: frameEvents s.par buf ∧ microOps pre = n ∧
      microOpAt (frameEvents s.par buf) n = some op ∧
      exec .displayFrame s = .next
        { s with
          dc := lastSet .dc s.dc pre
          log := pre.reverse ++ s.log
          env := s.env.advance (n + 1) 0
          fb := if n < microOps (lutEvents s.par false) then s.fb else s.fb.writeFront unlistedByte buf
          fbLen := if n < microOps (lutEvents s.par false) then s.fbLen else 5808#16
          err := s.err ||| 0b0010#4
          status := some (.failed (.transport op))
          running := none
          pos := s.pos + 1 }

/-- R24: while HAVE_LAST is 0 no request reads LAST: whatever it holds, a request does the same, up to any
number of polls and to its end. -/
def Obligations.LastIsNotReadWithoutACachedFrame : Prop :=
  ∀ (i : Instr) (s : State) (m : Memory Bool), s.haveLast = false →
    (∀ k t, RunsTo i k s t → t.haveLast = false → RunsTo i k { s with last := m } { t with last := m }) ∧
    (∀ k t, RunsTo i k s t → t.haveLast = true → RunsTo i k { s with last := m } t) ∧
    ∀ r, exec i s = .refused r → exec i { s with last := m } = .refused r

/-! ### The invariant and reset -/

/-- R24, R25, R104, R116, R125: every step keeps the invariant: the memories stay in canonical form
and inside their spaces, FB_LEN fits FB, and a cached frame exists only outside Uninitialized. -/
def Obligations.StepKeepsTheInvariant : Prop :=
  ∀ s t : State, s.Inv → step s = .next t → t.Inv

/-- The constructed state meets the invariant. -/
def Obligations.ConstructedStateMeetsTheInvariant : Prop :=
  ∀ limit fast bound par, (State.construct limit fast bound par).Inv

/-- R30, R170: construction takes LIMIT, FAST_EN and WAIT_BOUND (defaults 32, true, none) and puts every
register at its value, the latches without one, the trace empty. -/
def Obligations.ConstructedValues : Prop :=
  (∀ limit fast bound par, ∀ s, s = State.construct limit fast bound par →
    s.lifecycle = .uninitialized ∧ s.count = 0 ∧ s.haveLast = false ∧ s.err = 0#4 ∧ s.fbLen = 0#16 ∧
    s.regs = ⟨0#16, 0#16, 0#16, 0#16, 0#16, 0#16⟩ ∧ s.pos = 0 ∧ s.trace = [] ∧ s.rst = none ∧ s.dc = none ∧
    s.cfgLimit = limit ∧ s.cfgFast = fast ∧ s.waitBound = bound ∧ s.readReg 14 = 176 ∧
    s.readReg 15 = 264) ∧
  ∃ par, State.reset = State.construct 32 true none par

/-- R13, R14, R170: no step writes a construction parameter or an OPEN parameter. R27, R31, R174: nor does
it change the length of the host's list: the position and the requests that have not ended add up to it, so
that the position equals the length exactly when the last request has returned its status. -/
def Obligations.ParametersNeverChange : Prop :=
  ∀ s t : State, step s = .next t →
    t.cfgLimit = s.cfgLimit ∧ t.cfgFast = s.cfgFast ∧ t.waitBound = s.waitBound ∧ t.par = s.par ∧
    t.pos + t.requestsLeft = s.pos + s.requestsLeft
end

