-- ==== Sys2Proof/Laws/Memory.lean ====
section
/-! SUPPORT. What every memory operation reads back as, that each keeps the canonical form, and that two
memories in canonical form with the same content are equal. -/

namespace Sys2Proof.Machine

variable {α : Type} [BEq α] [LawfulBEq α] {d : α}

/-! ### The canonical form -/

theorem wfFrom_cons {lo a : Nat} {v : α} {m : Memory α} :
    Memory.wfFrom d lo ((a, v) :: m) = true ↔ lo ≤ a ∧ v ≠ d ∧ Memory.wfFrom d (a + 1) m = true := by
  simp [Memory.wfFrom, and_assoc]

theorem wfFrom_mono {lo lo' : Nat} {m : Memory α} (h : Memory.wfFrom d lo m = true) (hle : lo' ≤ lo) :
    Memory.wfFrom d lo' m = true := by
  cases m with
  | nil => rfl
  | cons c m =>
    obtain ⟨h1, h2, h3⟩ := wfFrom_cons.mp h
    exact wfFrom_cons.mpr ⟨by omega, h2, h3⟩

theorem wfFrom_filter {lo : Nat} {m : Memory α} (p : Nat × α → Bool) (h : Memory.wfFrom d lo m = true) :
    Memory.wfFrom d lo (m.filter p) = true := by
  induction m generalizing lo with
  | nil => rfl
  | cons c m ih =>
    obtain ⟨h1, h2, h3⟩ := wfFrom_cons.mp h
    by_cases hp : p c = true
    · rw [List.filter_cons_of_pos hp]
      exact wfFrom_cons.mpr ⟨h1, h2, ih h3⟩
    · rw [List.filter_cons_of_neg hp]
      exact wfFrom_mono (ih h3) (by omega)

theorem wfFrom_filter_from {lo : Nat} {m : Memory α} (n : Nat) (h : Memory.wfFrom d lo m = true) :
    Memory.wfFrom d n (m.filter fun c => decide (n ≤ c.1)) = true := by
  induction m generalizing lo with
  | nil => rfl
  | cons c m ih =>
    obtain ⟨h1, h2, h3⟩ := wfFrom_cons.mp h
    by_cases hp : n ≤ c.1
    · rw [List.filter_cons_of_pos (by simpa using hp)]
      exact wfFrom_cons.mpr ⟨hp, h2, wfFrom_filter _ h3⟩
    · rw [List.filter_cons_of_neg (by simpa using hp)]
      exact ih h3

/-! ### read -/

theorem read_below {lo a : Nat} {m : Memory α} (h : Memory.wfFrom d lo m = true) (ha : a < lo) :
    Memory.read d m a = d := by
  induction m generalizing lo with
  | nil => rfl
  | cons c m ih =>
    obtain ⟨h1, h2, h3⟩ := wfFrom_cons.mp h
    simp only [Memory.read]
    rw [if_neg (by omega), ih h3 (by omega)]

/-- Equal memories are equal data. -/
theorem memory_ext {lo : Nat} {m m' : Memory α} (h : Memory.wfFrom d lo m = true)
    (h' : Memory.wfFrom d lo m' = true) (heq : ∀ a, Memory.read d m a = Memory.read d m' a) : m = m' := by
  induction m generalizing lo m' with
  | nil =>
    cases m' with
    | nil => rfl
    | cons c m' =>
      obtain ⟨h1, h2, h3⟩ := wfFrom_cons.mp h'
      exact absurd (heq c.1).symm (by simpa [Memory.read] using h2)
  | cons c m ih =>
    obtain ⟨h1, h2, h3⟩ := wfFrom_cons.mp h
    cases m' with
    | nil => exact absurd (heq c.1) (by simpa [Memory.read] using h2)
    | cons c' m' =>
      obtain ⟨h1', h2', h3'⟩ := wfFrom_cons.mp h'
      obtain ⟨a, v⟩ := c
      obtain ⟨a', v'⟩ := c'
      have haa : a = a' := by
        rcases Nat.lt_trichotomy a a' with hlt | heq' | hgt
        · have := heq a
          simp only [Memory.read, if_true] at this
          rw [if_neg (by omega), read_below h3' (by simpa using Nat.lt_succ_of_lt hlt)] at this
          exact absurd this h2
        · exact heq'
        · have := heq a'
          simp only [Memory.read, if_true] at this
          rw [if_neg (by omega), read_below h3 (by simpa using Nat.lt_succ_of_lt hgt)] at this
          exact absurd this.symm h2'
      subst haa
      have hv : v = v' := by simpa [Memory.read] using heq a
      subst hv
      have : m = m' := by
        refine ih h3 h3' fun b => ?_
        by_cases hb : b = a
        · subst hb
          rw [read_below h3 (by simp), read_below h3' (by simp)]
        · simpa [Memory.read, hb] using heq b
      rw [this]

omit [BEq α] [LawfulBEq α] in
theorem read_filter {m : Memory α} (p : Nat → Bool) (a : Nat) :
    Memory.read d (m.filter fun c => p c.1) a = if p a then Memory.read d m a else d := by
  induction m with
  | nil => simp [Memory.read]
  | cons c m ih =>
    by_cases hp : p c.1 = true
    · rw [List.filter_cons_of_pos (by simpa using hp)]
      simp only [Memory.read]
      by_cases ha : a = c.1
      · subst ha
        simp [hp]
      · simp [ha, ih]
    · rw [List.filter_cons_of_neg (by simpa using hp), ih]
      by_cases ha : a = c.1
      · subst ha
        simp [hp]
      · simp [Memory.read, ha]

/-! ### write -/

theorem write_wfFrom {lo : Nat} {m : Memory α} (a : Nat) (v : α) (h : Memory.wfFrom d lo m = true)
    (ha : lo ≤ a) : Memory.wfFrom d lo (m.write d a v) = true := by
  induction m generalizing lo with
  | nil =>
    by_cases hv : v = d
    · simp [Memory.write, hv, Memory.wfFrom]
    · simp [Memory.write, hv, Memory.wfFrom, ha]
  | cons c m ih =>
    obtain ⟨h1, h2, h3⟩ := wfFrom_cons.mp h
    by_cases hv : v = d <;> simp only [Memory.write, beq_iff_eq, hv, if_true, if_false] <;> split_ifs
    · exact h
    · exact wfFrom_mono h3 (by omega)
    · exact wfFrom_cons.mpr ⟨h1, h2, by simpa [hv] using ih h3 (by omega)⟩
    · exact wfFrom_cons.mpr ⟨ha, hv, wfFrom_cons.mpr ⟨by omega, h2, h3⟩⟩
    · exact wfFrom_cons.mpr ⟨ha, hv, wfFrom_mono h3 (by omega)⟩
    · exact wfFrom_cons.mpr ⟨h1, h2, ih h3 (by omega)⟩

/-- A write keeps the canonical form. -/
theorem write_wf {m : Memory α} (a : Nat) (v : α) (h : m.wf d = true) : (m.write d a v).wf d = true :=
  write_wfFrom a v h (Nat.zero_le _)

theorem read_writeFrom {lo : Nat} {m : Memory α} (a : Nat) (v : α) (h : Memory.wfFrom d lo m = true)
    (b : Nat) : Memory.read d (m.write d a v) b = if b = a then v else Memory.read d m b := by
  induction m generalizing lo with
  | nil =>
    by_cases hv : v = d <;> by_cases hb : b = a <;> simp [Memory.write, Memory.read, hv, hb]
  | cons c m ih =>
    obtain ⟨h1, h2, h3⟩ := wfFrom_cons.mp h
    have hbelow : ∀ x, x ≤ c.1 → Memory.read d m x = d := fun x hx => read_below h3 (by omega)
    simp only [Memory.write, beq_iff_eq]
    by_cases hb : b = a
    · subst hb
      rw [if_pos rfl]
      split_ifs with h4 h5 h6 h7
      · simp only [Memory.read]
        rw [if_neg (by omega), hbelow b (by omega), eq_of_beq h5]
      · simp [Memory.read]
      · rw [hbelow b (by omega), eq_of_beq h7]
      · simp [Memory.read]
      · simp only [Memory.read]
        rw [if_neg h6, ih h3, if_pos rfl]
    · rw [if_neg hb]
      split_ifs with h4 h5 h6 h7
      · rfl
      · simp [Memory.read, hb]
      · simp [Memory.read, hb, ← h6]
      · simp [Memory.read, hb, ← h6]
      · simp [Memory.read, ih h3, hb]

/-- A read after a write: the value written at its address, and the old content everywhere else. -/
theorem read_write {m : Memory α} (a : Nat) (v : α) (h : m.wf d = true) (b : Nat) :
    Memory.read d (m.write d a v) b = if b = a then v else Memory.read d m b :=
  read_writeFrom a v h b

theorem write_below {n : Nat} {m : Memory α} (a : Nat) (v : α) (h : m.below n = true) (ha : a < n) :
    (m.write d a v).below n = true := by
  induction m with
  | nil => by_cases hv : v = d <;> simp [Memory.write, Memory.below, hv, ha]
  | cons c m ih =>
    simp only [Memory.below, List.all_cons, Bool.and_eq_true, decide_eq_true_eq] at h ih ⊢
    simp only [Memory.write, beq_iff_eq]
    split_ifs <;> simp [h.1, h.2, ha, ih]

/-! ### cells and writeFront -/

theorem cells_wfFrom (a : Nat) (vs : List α) : Memory.wfFrom d a (Memory.cells d a vs) = true := by
  induction vs generalizing a with
  | nil => rfl
  | cons v vs ih =>
    by_cases hv : v = d
    · simpa [Memory.cells, hv] using wfFrom_mono (ih (a + 1)) (Nat.le_succ a)
    · simp only [Memory.cells, beq_iff_eq, hv, if_false]
      exact wfFrom_cons.mpr ⟨Nat.le_refl a, hv, ih (a + 1)⟩

theorem cells_wf (vs : List α) : (Memory.cells d 0 vs).wf d = true := cells_wfFrom 0 vs

theorem read_cells_from (a : Nat) (vs : List α) (k : Nat) :
    Memory.read d (Memory.cells d a vs) (a + k) = vs.getD k d := by
  induction vs generalizing a k with
  | nil => simp [Memory.cells, Memory.read]
  | cons v vs ih =>
    cases k with
    | zero =>
      by_cases hv : v = d
      · simpa [Memory.cells, hv] using
          read_below (d := d) (cells_wfFrom (a + 1) vs) (Nat.lt_succ_self a)
      · simp [Memory.cells, hv, Memory.read]
    | succ k =>
      have hk : a + (k + 1) = a + 1 + k := by omega
      by_cases hv : v = d
      · simp only [Memory.cells, hv, beq_self_eq_true, if_true]
        rw [hk, ih (a + 1) k]
        simp
      · simp only [Memory.cells, beq_iff_eq, hv, if_false, Memory.read]
        rw [if_neg (by omega), hk, ih (a + 1) k]
        simp

/-- The cells of a sequence read back as the sequence. -/
theorem read_cells (vs : List α) (k : Nat) : Memory.read d (Memory.cells d 0 vs) k = vs.getD k d := by
  simpa using read_cells_from (d := d) 0 vs k

theorem cells_fst_lt (a : Nat) (vs : List α) : ∀ c ∈ Memory.cells d a vs, c.1 < a + vs.length := by
  induction vs generalizing a with
  | nil => simp [Memory.cells]
  | cons v vs ih =>
    intro c hc
    by_cases hv : v = d
    · have := ih (a + 1) c (by simpa [Memory.cells, hv] using hc)
      simp only [List.length_cons]
      omega
    · simp only [Memory.cells, beq_iff_eq, hv, if_false, List.mem_cons] at hc
      rcases hc with rfl | hc
      · simp
      · have := ih (a + 1) c hc
        simp only [List.length_cons]
        omega

theorem wfFrom_append {lo n : Nat} {m m' : Memory α} (h : Memory.wfFrom d lo m = true)
    (hm : ∀ c ∈ m, c.1 < n) (h' : Memory.wfFrom d n m' = true) (hn : lo ≤ n) :
    Memory.wfFrom d lo (m ++ m') = true := by
  induction m generalizing lo with
  | nil => exact wfFrom_mono h' hn
  | cons c m ih =>
    obtain ⟨h1, h2, h3⟩ := wfFrom_cons.mp h
    have hc := hm c (by simp)
    exact wfFrom_cons.mpr ⟨h1, h2, ih h3 (fun c' h => hm c' (by simp [h])) hc⟩

omit [BEq α] [LawfulBEq α] in
theorem read_append {m m' : Memory α} (a : Nat) :
    Memory.read d (m ++ m') a = if ∃ c ∈ m, c.1 = a then Memory.read d m a else Memory.read d m' a := by
  induction m with
  | nil => simp
  | cons c m ih =>
    simp only [List.cons_append, Memory.read]
    by_cases ha : a = c.1
    · simp [ha]
    · rw [if_neg ha, ih]
      have hc : ¬ c.1 = a := fun h => ha h.symm
      have hiff : (∃ c' ∈ c :: m, c'.1 = a) ↔ ∃ c' ∈ m, c'.1 = a := by simp [hc]
      by_cases hm : ∃ c' ∈ m, c'.1 = a
      · rw [if_pos hm, if_pos (hiff.mpr hm), if_neg ha]
      · rw [if_neg hm, if_neg (fun h => hm (hiff.mp h))]

omit [BEq α] [LawfulBEq α] in
theorem read_eq_default_of_not_listed {m : Memory α} {a : Nat} (h : ¬ ∃ c ∈ m, c.1 = a) :
    Memory.read d m a = d := by
  induction m with
  | nil => rfl
  | cons c m ih =>
    simp only [Memory.read]
    rw [if_neg (fun ha => h ⟨c, by simp, ha.symm⟩), ih fun ⟨c', hc', h'⟩ => h ⟨c', by simp [hc'], h'⟩]

/-- Writing the front of a memory keeps the canonical form. -/
theorem writeFront_wf {m : Memory α} (vs : List α) (h : m.wf d = true) :
    (m.writeFront d vs).wf d = true :=
  wfFrom_append (n := vs.length) (cells_wfFrom 0 vs)
    (fun c hc => by simpa using cells_fst_lt (d := d) 0 vs c hc)
    (wfFrom_filter_from vs.length h) (Nat.zero_le _)

/-- After `writeFront` the first addresses hold the sequence and the others what they held. -/
theorem read_writeFront (m : Memory α) (vs : List α) (a : Nat) :
    Memory.read d (m.writeFront d vs) a =
      if a < vs.length then vs.getD a d else Memory.read d m a := by
  unfold Memory.writeFront
  rw [read_append]
  have hread : Memory.read d (m.filter fun c => decide (vs.length ≤ c.1)) a =
      if vs.length ≤ a then Memory.read d m a else d := by
    simpa using read_filter (d := d) (m := m) (fun b => decide (vs.length ≤ b)) a
  by_cases hlt : a < vs.length
  · rw [if_pos hlt]
    by_cases hl : ∃ c ∈ Memory.cells d 0 vs, c.1 = a
    · rw [if_pos hl]
      exact read_cells vs a
    · rw [if_neg hl, hread, if_neg (by omega), ← read_cells (d := d) vs a,
        read_eq_default_of_not_listed hl]
  · have hl : ¬ ∃ c ∈ Memory.cells d 0 vs, c.1 = a := by
      rintro ⟨c, hc, rfl⟩
      exact hlt (by simpa using cells_fst_lt (d := d) 0 vs c hc)
    rw [if_neg hl, if_neg hlt, hread, if_pos (by omega)]

omit [BEq α] [LawfulBEq α] in
theorem filter_below {n : Nat} {m : Memory α} (p : Nat × α → Bool) (h : m.below n = true) :
    Memory.below n (m.filter p) = true := by
  simp only [Memory.below, List.all_eq_true] at h ⊢
  exact fun c hc => h c (List.mem_of_mem_filter hc)

theorem writeFront_below {n : Nat} {m : Memory α} (vs : List α) (h : m.below n = true)
    (hn : vs.length ≤ n) : (m.writeFront d vs).below n = true := by
  unfold Memory.writeFront
  rw [Memory.below, List.all_append, Bool.and_eq_true]
  refine ⟨?_, filter_below _ h⟩
  simp only [List.all_eq_true, decide_eq_true_eq]
  intro c hc
  have := cells_fst_lt (d := d) 0 vs c hc
  omega

/-- The front of a memory read as a sequence is what was written there. -/
theorem units_writeFront (m : Memory α) (vs : List α) :
    (m.writeFront d vs).units d vs.length = vs := by
  apply List.ext_getElem
  · simp [Memory.units]
  · intro i h1 h2
    simp [Memory.units, read_writeFront, h2]

/-! ### front -/

theorem front_wf {m : Memory α} (n : Nat) (h : m.wf d = true) : (m.front n).wf d = true :=
  wfFrom_filter _ h

omit [BEq α] [LawfulBEq α] in
theorem front_below (m : Memory α) (n : Nat) : (m.front n).below n = true := by
  simp only [Memory.front, Memory.below, List.all_eq_true, List.mem_filter]
  exact fun c hc => hc.2

omit [BEq α] [LawfulBEq α] in
/-- The copy of the first `n` units reads as the original below `n`. -/
theorem read_front (m : Memory α) (n a : Nat) :
    Memory.read d (m.front n) a = if a < n then Memory.read d m a else d := by
  simpa [Memory.front] using read_filter (d := d) (m := m) (fun b => decide (b < n)) a

end Sys2Proof.Machine
end

