-- ==== Sys2Proof/Laws/Operands.lean ====
section
/-! SUPPORT. The roundings, the header and the packing function, each with the facts that its callers
need. -/

namespace Sys2Proof.Machine

/-! ### The roundings (R7) -/

theorem rd8_eq (v : Nat) : rd8 v = 8 * (v / 8) := by
  unfold rd8
  omega

theorem ru8_eq (v : Nat) : ru8 v = 8 * ((v + 7) / 8) := by
  unfold ru8
  rw [rd8_eq]

@[simp] theorem rd8_mod (v : Nat) : rd8 v % 8 = 0 := by
  rw [rd8_eq]
  omega

@[simp] theorem ru8_mod (v : Nat) : ru8 v % 8 = 0 := by
  rw [ru8_eq]
  omega

theorem rd8_le (v : Nat) : rd8 v ≤ v := by
  rw [rd8_eq]
  omega

theorem le_ru8 (v : Nat) : v ≤ ru8 v := by
  rw [ru8_eq]
  omega

theorem rd8_of_mod {v : Nat} (h : v % 8 = 0) : rd8 v = v := by
  rw [rd8_eq]
  omega

theorem ru8_of_mod {v : Nat} (h : v % 8 = 0) : ru8 v = v := by
  rw [ru8_eq]
  omega

/-- The width taken from a rounded left edge reaches exactly the rounded right edge (R133). -/
theorem rd8_add_ru8_sub {l r : Nat} (h : l < r) : rd8 l + ru8 (r - rd8 l) = ru8 r := by
  rw [rd8_eq, ru8_eq, ru8_eq]
  omega

/-- An aligned region is left as it is by alignment. -/
theorem aligned_of_mod {r : Region} (hx : r.x % 8 = 0) (hw : r.w % 8 = 0) : r.aligned = r := by
  cases r
  simp_all [Region.aligned, rd8_of_mod, ru8_of_mod]

/-! ### The header (R42, R66) -/

@[simp] theorem fieldBytes_length (v : Nat) : (fieldBytes v).length = 2 := rfl

@[simp] theorem header_length (r : Region) : r.header.length = 8 := rfl

/-! ### Packing (R111, R112) -/

@[simp] theorem packRow_length (f : Nat → Nat → Bool) (x0 y0 j n : Nat) :
    (packRow f x0 y0 j n).length = n := by
  simp [packRow]

theorem length_flatMap_const {β γ : Type} (l : List β) (g : β → List γ) {n : Nat}
    (h : ∀ b, (g b).length = n) : (l.flatMap g).length = l.length * n := by
  induction l with
  | nil => simp
  | cons b l ih => simp [h, ih, Nat.succ_mul, Nat.add_comm]

@[simp] theorem pack_length (f : Nat → Nat → Bool) (r : Region) :
    (pack f r).length = r.w / 8 * r.h := by
  unfold pack
  rw [length_flatMap_const _ _ fun j => packRow_length f r.x r.y j (r.w / 8)]
  simp [Nat.mul_comm]

theorem getD_flatMap_range {γ : Type} (g : Nat → List γ) {n : Nat} (hg : ∀ b, (g b).length = n)
    (d : γ) (h j c : Nat) (hj : j < h) (hc : c < n) :
    ((List.range h).flatMap g).getD (j * n + c) d = (g j).getD c d := by
  induction h with
  | zero => omega
  | succ h ih =>
    have hlen : ((List.range h).flatMap g).length = h * n := by
      rw [length_flatMap_const _ _ hg, List.length_range]
    rw [List.range_succ, List.flatMap_append]
    by_cases hlt : j < h
    · have : j * n + c < h * n := by
        calc j * n + c < j * n + n := by omega
          _ = (j + 1) * n := by ring
          _ ≤ h * n := Nat.mul_le_mul_right n hlt
      rw [List.getD_append _ _ _ _ (by omega), ih hlt]
    · have : j = h := by omega
      subst this
      rw [List.getD_append_right _ _ _ _ (by omega), hlen]
      simp

/-- Byte `c` of row `j` of a packed region (the closed form of R111). -/
theorem pack_getD (f : Nat → Nat → Bool) (r : Region) (d : Byte) {j c : Nat} (hj : j < r.h)
    (hc : c < r.w / 8) :
    (pack f r).getD (j * (r.w / 8) + c) d = byteOfPixels fun t => f (r.x + 8 * c + t) (r.y + j) := by
  unfold pack
  rw [getD_flatMap_range _ (fun j => packRow_length f r.x r.y j (r.w / 8)) d r.h j c hj hc]
  simp [packRow, hc]

theorem byteOfBools_bit : ∀ b0 b1 b2 b3 b4 b5 b6 b7 : Bool, ∀ t : Fin 8,
    (((BitVec.ofNat 8 (b0.toNat * 128 + b1.toNat * 64 + b2.toNat * 32 + b3.toNat * 16 + b4.toNat * 8 +
      b5.toNat * 4 + b6.toNat * 2 + b7.toNat)) >>> (7 - t.val)).toNat % 2 == 1) =
      [b0, b1, b2, b3, b4, b5, b6, b7].getD t.val false := by
  decide

/-- Pixel `t` of a packed byte is its bit `7 - t` (R41). -/
theorem byteOfPixels_bit (f : Nat → Bool) {t : Nat} (ht : t < 8) :
    ((byteOfPixels f >>> (7 - t)).toNat % 2 == 1) = f t := by
  have h := byteOfBools_bit (f 0) (f 1) (f 2) (f 3) (f 4) (f 5) (f 6) (f 7) ⟨t, ht⟩
  unfold byteOfPixels
  rw [h]
  interval_cases t <;> rfl

/-- A byte depends on its eight pixels only. -/
theorem byteOfPixels_congr {f g : Nat → Bool} (h : ∀ t, t < 8 → f t = g t) :
    byteOfPixels f = byteOfPixels g := by
  simp [byteOfPixels, h]

/-- Packing depends on the pixels of the region only. -/
theorem pack_congr {f g : Nat → Nat → Bool} {r : Region}
    (h : ∀ i j, i < r.w → j < r.h → f (r.x + i) (r.y + j) = g (r.x + i) (r.y + j)) :
    pack f r = pack g r := by
  unfold pack packRow
  simp only [List.flatMap_eq_foldl]
  refine List.foldl_ext _ _ _ fun acc j hj => ?_
  congr 1
  refine List.map_congr_left fun c hc => byteOfPixels_congr fun t ht => ?_
  rw [List.mem_range] at hj hc
  have := h (8 * c + t) j (by omega) hj
  simpa [Nat.add_assoc] using this

end Sys2Proof.Machine
end

