-- ==== Sys2Proof/Laws/State.lean ====
section
/-! SUPPORT. One lemma per field per state update of Machine/Ops.lean, so that no proof unfolds a record
update. -/

namespace Sys2Proof.Machine

/-! ### emit -/

@[simp] theorem emit_regs (s : State) (e : Event) : (s.emit e).regs = s.regs := rfl
@[simp] theorem emit_cfgLimit (s : State) (e : Event) : (s.emit e).cfgLimit = s.cfgLimit := rfl
@[simp] theorem emit_cfgFast (s : State) (e : Event) : (s.emit e).cfgFast = s.cfgFast := rfl
@[simp] theorem emit_lifecycle (s : State) (e : Event) : (s.emit e).lifecycle = s.lifecycle := rfl
@[simp] theorem emit_count (s : State) (e : Event) : (s.emit e).count = s.count := rfl
@[simp] theorem emit_haveLast (s : State) (e : Event) : (s.emit e).haveLast = s.haveLast := rfl
@[simp] theorem emit_err (s : State) (e : Event) : (s.emit e).err = s.err := rfl
@[simp] theorem emit_fbLen (s : State) (e : Event) : (s.emit e).fbLen = s.fbLen := rfl
@[simp] theorem emit_rst (s : State) (e : Event) : (s.emit e).rst = s.rst := rfl
@[simp] theorem emit_dc (s : State) (e : Event) : (s.emit e).dc = s.dc := rfl
@[simp] theorem emit_log (s : State) (e : Event) : (s.emit e).log = e :: s.log := rfl
@[simp] theorem emit_pix (s : State) (e : Event) : (s.emit e).pix = s.pix := rfl
@[simp] theorem emit_last (s : State) (e : Event) : (s.emit e).last = s.last := rfl
@[simp] theorem emit_fb (s : State) (e : Event) : (s.emit e).fb = s.fb := rfl
@[simp] theorem emit_status (s : State) (e : Event) : (s.emit e).status = s.status := rfl
@[simp] theorem emit_running (s : State) (e : Event) : (s.emit e).running = s.running := rfl
@[simp] theorem emit_pos (s : State) (e : Event) : (s.emit e).pos = s.pos := rfl
@[simp] theorem emit_host (s : State) (e : Event) : (s.emit e).host = s.host := rfl
@[simp] theorem emit_env (s : State) (e : Event) : (s.emit e).env = s.env := rfl
@[simp] theorem emit_par (s : State) (e : Event) : (s.emit e).par = s.par := rfl
@[simp] theorem emit_waitBound (s : State) (e : Event) : (s.emit e).waitBound = s.waitBound := rfl

/-! ### tick -/

@[simp] theorem tick_regs (s : State) (n r : Nat) : (s.tick n r).regs = s.regs := rfl
@[simp] theorem tick_cfgLimit (s : State) (n r : Nat) : (s.tick n r).cfgLimit = s.cfgLimit := rfl
@[simp] theorem tick_cfgFast (s : State) (n r : Nat) : (s.tick n r).cfgFast = s.cfgFast := rfl
@[simp] theorem tick_lifecycle (s : State) (n r : Nat) : (s.tick n r).lifecycle = s.lifecycle := rfl
@[simp] theorem tick_count (s : State) (n r : Nat) : (s.tick n r).count = s.count := rfl
@[simp] theorem tick_haveLast (s : State) (n r : Nat) : (s.tick n r).haveLast = s.haveLast := rfl
@[simp] theorem tick_err (s : State) (n r : Nat) : (s.tick n r).err = s.err := rfl
@[simp] theorem tick_fbLen (s : State) (n r : Nat) : (s.tick n r).fbLen = s.fbLen := rfl
@[simp] theorem tick_rst (s : State) (n r : Nat) : (s.tick n r).rst = s.rst := rfl
@[simp] theorem tick_dc (s : State) (n r : Nat) : (s.tick n r).dc = s.dc := rfl
@[simp] theorem tick_log (s : State) (n r : Nat) : (s.tick n r).log = s.log := rfl
@[simp] theorem tick_pix (s : State) (n r : Nat) : (s.tick n r).pix = s.pix := rfl
@[simp] theorem tick_last (s : State) (n r : Nat) : (s.tick n r).last = s.last := rfl
@[simp] theorem tick_fb (s : State) (n r : Nat) : (s.tick n r).fb = s.fb := rfl
@[simp] theorem tick_status (s : State) (n r : Nat) : (s.tick n r).status = s.status := rfl
@[simp] theorem tick_running (s : State) (n r : Nat) : (s.tick n r).running = s.running := rfl
@[simp] theorem tick_pos (s : State) (n r : Nat) : (s.tick n r).pos = s.pos := rfl
@[simp] theorem tick_host (s : State) (n r : Nat) : (s.tick n r).host = s.host := rfl
@[simp] theorem tick_env (s : State) (n r : Nat) : (s.tick n r).env = s.env.advance n r := rfl
@[simp] theorem tick_par (s : State) (n r : Nat) : (s.tick n r).par = s.par := rfl
@[simp] theorem tick_waitBound (s : State) (n r : Nat) : (s.tick n r).waitBound = s.waitBound := rfl

/-! ### setLifecycle -/

@[simp] theorem setLifecycle_regs (s : State) (l : Lifecycle) : (s.setLifecycle l).regs = s.regs := rfl
@[simp] theorem setLifecycle_cfgLimit (s : State) (l : Lifecycle) : (s.setLifecycle l).cfgLimit = s.cfgLimit := rfl
@[simp] theorem setLifecycle_cfgFast (s : State) (l : Lifecycle) : (s.setLifecycle l).cfgFast = s.cfgFast := rfl
@[simp] theorem setLifecycle_lifecycle (s : State) (l : Lifecycle) : (s.setLifecycle l).lifecycle = l := rfl
@[simp] theorem setLifecycle_count (s : State) (l : Lifecycle) : (s.setLifecycle l).count = s.count := rfl
@[simp] theorem setLifecycle_haveLast (s : State) (l : Lifecycle) : (s.setLifecycle l).haveLast = s.haveLast := rfl
@[simp] theorem setLifecycle_err (s : State) (l : Lifecycle) : (s.setLifecycle l).err = s.err := rfl
@[simp] theorem setLifecycle_fbLen (s : State) (l : Lifecycle) : (s.setLifecycle l).fbLen = s.fbLen := rfl
@[simp] theorem setLifecycle_rst (s : State) (l : Lifecycle) : (s.setLifecycle l).rst = s.rst := rfl
@[simp] theorem setLifecycle_dc (s : State) (l : Lifecycle) : (s.setLifecycle l).dc = s.dc := rfl
@[simp] theorem setLifecycle_log (s : State) (l : Lifecycle) : (s.setLifecycle l).log = s.log := rfl
@[simp] theorem setLifecycle_pix (s : State) (l : Lifecycle) : (s.setLifecycle l).pix = s.pix := rfl
@[simp] theorem setLifecycle_last (s : State) (l : Lifecycle) : (s.setLifecycle l).last = s.last := rfl
@[simp] theorem setLifecycle_fb (s : State) (l : Lifecycle) : (s.setLifecycle l).fb = s.fb := rfl
@[simp] theorem setLifecycle_status (s : State) (l : Lifecycle) : (s.setLifecycle l).status = s.status := rfl
@[simp] theorem setLifecycle_running (s : State) (l : Lifecycle) : (s.setLifecycle l).running = s.running := rfl
@[simp] theorem setLifecycle_pos (s : State) (l : Lifecycle) : (s.setLifecycle l).pos = s.pos := rfl
@[simp] theorem setLifecycle_host (s : State) (l : Lifecycle) : (s.setLifecycle l).host = s.host := rfl
@[simp] theorem setLifecycle_env (s : State) (l : Lifecycle) : (s.setLifecycle l).env = s.env := rfl
@[simp] theorem setLifecycle_par (s : State) (l : Lifecycle) : (s.setLifecycle l).par = s.par := rfl
@[simp] theorem setLifecycle_waitBound (s : State) (l : Lifecycle) : (s.setLifecycle l).waitBound = s.waitBound := rfl

/-! ### putFb -/

@[simp] theorem putFb_regs (s : State) (buf : List Byte) : (s.putFb buf).regs = s.regs := rfl
@[simp] theorem putFb_cfgLimit (s : State) (buf : List Byte) : (s.putFb buf).cfgLimit = s.cfgLimit := rfl
@[simp] theorem putFb_cfgFast (s : State) (buf : List Byte) : (s.putFb buf).cfgFast = s.cfgFast := rfl
@[simp] theorem putFb_lifecycle (s : State) (buf : List Byte) : (s.putFb buf).lifecycle = s.lifecycle := rfl
@[simp] theorem putFb_count (s : State) (buf : List Byte) : (s.putFb buf).count = s.count := rfl
@[simp] theorem putFb_haveLast (s : State) (buf : List Byte) : (s.putFb buf).haveLast = s.haveLast := rfl
@[simp] theorem putFb_err (s : State) (buf : List Byte) : (s.putFb buf).err = s.err := rfl
@[simp] theorem putFb_fbLen (s : State) (buf : List Byte) : (s.putFb buf).fbLen = BitVec.ofNat 16 buf.length := rfl
@[simp] theorem putFb_rst (s : State) (buf : List Byte) : (s.putFb buf).rst = s.rst := rfl
@[simp] theorem putFb_dc (s : State) (buf : List Byte) : (s.putFb buf).dc = s.dc := rfl
@[simp] theorem putFb_log (s : State) (buf : List Byte) : (s.putFb buf).log = s.log := rfl
@[simp] theorem putFb_pix (s : State) (buf : List Byte) : (s.putFb buf).pix = s.pix := rfl
@[simp] theorem putFb_last (s : State) (buf : List Byte) : (s.putFb buf).last = s.last := rfl
@[simp] theorem putFb_fb (s : State) (buf : List Byte) : (s.putFb buf).fb = s.fb.writeFront unlistedByte buf := rfl
@[simp] theorem putFb_status (s : State) (buf : List Byte) : (s.putFb buf).status = s.status := rfl
@[simp] theorem putFb_running (s : State) (buf : List Byte) : (s.putFb buf).running = s.running := rfl
@[simp] theorem putFb_pos (s : State) (buf : List Byte) : (s.putFb buf).pos = s.pos := rfl
@[simp] theorem putFb_host (s : State) (buf : List Byte) : (s.putFb buf).host = s.host := rfl
@[simp] theorem putFb_env (s : State) (buf : List Byte) : (s.putFb buf).env = s.env := rfl
@[simp] theorem putFb_par (s : State) (buf : List Byte) : (s.putFb buf).par = s.par := rfl
@[simp] theorem putFb_waitBound (s : State) (buf : List Byte) : (s.putFb buf).waitBound = s.waitBound := rfl

/-! ### commit -/

@[simp] theorem commit_regs (s : State) (n : Nat) : (s.commit n).regs = s.regs := rfl
@[simp] theorem commit_cfgLimit (s : State) (n : Nat) : (s.commit n).cfgLimit = s.cfgLimit := rfl
@[simp] theorem commit_cfgFast (s : State) (n : Nat) : (s.commit n).cfgFast = s.cfgFast := rfl
@[simp] theorem commit_lifecycle (s : State) (n : Nat) : (s.commit n).lifecycle = s.lifecycle := rfl
@[simp] theorem commit_count (s : State) (n : Nat) : (s.commit n).count = n := rfl
@[simp] theorem commit_haveLast (s : State) (n : Nat) : (s.commit n).haveLast = true := rfl
@[simp] theorem commit_err (s : State) (n : Nat) : (s.commit n).err = s.err := rfl
@[simp] theorem commit_fbLen (s : State) (n : Nat) : (s.commit n).fbLen = s.fbLen := rfl
@[simp] theorem commit_rst (s : State) (n : Nat) : (s.commit n).rst = s.rst := rfl
@[simp] theorem commit_dc (s : State) (n : Nat) : (s.commit n).dc = s.dc := rfl
@[simp] theorem commit_log (s : State) (n : Nat) : (s.commit n).log = s.log := rfl
@[simp] theorem commit_pix (s : State) (n : Nat) : (s.commit n).pix = s.pix := rfl
@[simp] theorem commit_last (s : State) (n : Nat) : (s.commit n).last = s.pix.front Config.panelPixels := rfl
@[simp] theorem commit_fb (s : State) (n : Nat) : (s.commit n).fb = s.fb := rfl
@[simp] theorem commit_status (s : State) (n : Nat) : (s.commit n).status = s.status := rfl
@[simp] theorem commit_running (s : State) (n : Nat) : (s.commit n).running = s.running := rfl
@[simp] theorem commit_pos (s : State) (n : Nat) : (s.commit n).pos = s.pos := rfl
@[simp] theorem commit_host (s : State) (n : Nat) : (s.commit n).host = s.host := rfl
@[simp] theorem commit_env (s : State) (n : Nat) : (s.commit n).env = s.env := rfl
@[simp] theorem commit_par (s : State) (n : Nat) : (s.commit n).par = s.par := rfl
@[simp] theorem commit_waitBound (s : State) (n : Nat) : (s.commit n).waitBound = s.waitBound := rfl

/-! ### complete -/

@[simp] theorem complete_regs (s : State) : (complete s).regs = s.regs := rfl
@[simp] theorem complete_cfgLimit (s : State) : (complete s).cfgLimit = s.cfgLimit := rfl
@[simp] theorem complete_cfgFast (s : State) : (complete s).cfgFast = s.cfgFast := rfl
@[simp] theorem complete_lifecycle (s : State) : (complete s).lifecycle = s.lifecycle := rfl
@[simp] theorem complete_count (s : State) : (complete s).count = s.count := rfl
@[simp] theorem complete_haveLast (s : State) : (complete s).haveLast = s.haveLast := rfl
@[simp] theorem complete_err (s : State) : (complete s).err = s.err := rfl
@[simp] theorem complete_fbLen (s : State) : (complete s).fbLen = s.fbLen := rfl
@[simp] theorem complete_rst (s : State) : (complete s).rst = s.rst := rfl
@[simp] theorem complete_dc (s : State) : (complete s).dc = s.dc := rfl
@[simp] theorem complete_log (s : State) : (complete s).log = s.log := rfl
@[simp] theorem complete_pix (s : State) : (complete s).pix = s.pix := rfl
@[simp] theorem complete_last (s : State) : (complete s).last = s.last := rfl
@[simp] theorem complete_fb (s : State) : (complete s).fb = s.fb := rfl
@[simp] theorem complete_status (s : State) : (complete s).status = some .ok := rfl
@[simp] theorem complete_running (s : State) : (complete s).running = none := rfl
@[simp] theorem complete_pos (s : State) : (complete s).pos = s.pos + 1 := rfl
@[simp] theorem complete_host (s : State) : (complete s).host = s.host := rfl
@[simp] theorem complete_env (s : State) : (complete s).env = s.env := rfl
@[simp] theorem complete_par (s : State) : (complete s).par = s.par := rfl
@[simp] theorem complete_waitBound (s : State) : (complete s).waitBound = s.waitBound := rfl

/-! ### takeException -/

@[simp] theorem takeException_regs (s : State) (e : Exc) : (takeException e s).regs = s.regs := rfl
@[simp] theorem takeException_cfgLimit (s : State) (e : Exc) : (takeException e s).cfgLimit = s.cfgLimit := rfl
@[simp] theorem takeException_cfgFast (s : State) (e : Exc) : (takeException e s).cfgFast = s.cfgFast := rfl
@[simp] theorem takeException_lifecycle (s : State) (e : Exc) : (takeException e s).lifecycle = s.lifecycle := rfl
@[simp] theorem takeException_count (s : State) (e : Exc) : (takeException e s).count = s.count := rfl
@[simp] theorem takeException_haveLast (s : State) (e : Exc) : (takeException e s).haveLast = s.haveLast := rfl
@[simp] theorem takeException_err (s : State) (e : Exc) : (takeException e s).err = errAfter s.err e := rfl
@[simp] theorem takeException_fbLen (s : State) (e : Exc) : (takeException e s).fbLen = s.fbLen := rfl
@[simp] theorem takeException_rst (s : State) (e : Exc) : (takeException e s).rst = s.rst := rfl
@[simp] theorem takeException_dc (s : State) (e : Exc) : (takeException e s).dc = s.dc := rfl
@[simp] theorem takeException_log (s : State) (e : Exc) : (takeException e s).log = s.log := rfl
@[simp] theorem takeException_pix (s : State) (e : Exc) : (takeException e s).pix = s.pix := rfl
@[simp] theorem takeException_last (s : State) (e : Exc) : (takeException e s).last = s.last := rfl
@[simp] theorem takeException_fb (s : State) (e : Exc) : (takeException e s).fb = s.fb := rfl
@[simp] theorem takeException_status (s : State) (e : Exc) : (takeException e s).status = some (.failed e) := rfl
@[simp] theorem takeException_running (s : State) (e : Exc) : (takeException e s).running = none := rfl
@[simp] theorem takeException_pos (s : State) (e : Exc) : (takeException e s).pos = s.pos + 1 := rfl
@[simp] theorem takeException_host (s : State) (e : Exc) : (takeException e s).host = s.host := rfl
@[simp] theorem takeException_env (s : State) (e : Exc) : (takeException e s).env = s.env := rfl
@[simp] theorem takeException_par (s : State) (e : Exc) : (takeException e s).par = s.par := rfl
@[simp] theorem takeException_waitBound (s : State) (e : Exc) : (takeException e s).waitBound = s.waitBound := rfl

/-! ### holdRequest -/

@[simp] theorem holdRequest_regs (s : State) (ws : List Work) : (holdRequest ws s).regs = s.regs := rfl
@[simp] theorem holdRequest_cfgLimit (s : State) (ws : List Work) : (holdRequest ws s).cfgLimit = s.cfgLimit := rfl
@[simp] theorem holdRequest_cfgFast (s : State) (ws : List Work) : (holdRequest ws s).cfgFast = s.cfgFast := rfl
@[simp] theorem holdRequest_lifecycle (s : State) (ws : List Work) : (holdRequest ws s).lifecycle = s.lifecycle := rfl
@[simp] theorem holdRequest_count (s : State) (ws : List Work) : (holdRequest ws s).count = s.count := rfl
@[simp] theorem holdRequest_haveLast (s : State) (ws : List Work) : (holdRequest ws s).haveLast = s.haveLast := rfl
@[simp] theorem holdRequest_err (s : State) (ws : List Work) : (holdRequest ws s).err = s.err := rfl
@[simp] theorem holdRequest_fbLen (s : State) (ws : List Work) : (holdRequest ws s).fbLen = s.fbLen := rfl
@[simp] theorem holdRequest_rst (s : State) (ws : List Work) : (holdRequest ws s).rst = s.rst := rfl
@[simp] theorem holdRequest_dc (s : State) (ws : List Work) : (holdRequest ws s).dc = s.dc := rfl
@[simp] theorem holdRequest_log (s : State) (ws : List Work) : (holdRequest ws s).log = s.log := rfl
@[simp] theorem holdRequest_pix (s : State) (ws : List Work) : (holdRequest ws s).pix = s.pix := rfl
@[simp] theorem holdRequest_last (s : State) (ws : List Work) : (holdRequest ws s).last = s.last := rfl
@[simp] theorem holdRequest_fb (s : State) (ws : List Work) : (holdRequest ws s).fb = s.fb := rfl
@[simp] theorem holdRequest_status (s : State) (ws : List Work) : (holdRequest ws s).status = none := rfl
@[simp] theorem holdRequest_running (s : State) (ws : List Work) : (holdRequest ws s).running = some ws := rfl
@[simp] theorem holdRequest_pos (s : State) (ws : List Work) : (holdRequest ws s).pos = s.pos := rfl
@[simp] theorem holdRequest_host (s : State) (ws : List Work) : (holdRequest ws s).host = s.host := rfl
@[simp] theorem holdRequest_env (s : State) (ws : List Work) : (holdRequest ws s).env = s.env := rfl
@[simp] theorem holdRequest_par (s : State) (ws : List Work) : (holdRequest ws s).par = s.par := rfl
@[simp] theorem holdRequest_waitBound (s : State) (ws : List Work) : (holdRequest ws s).waitBound = s.waitBound := rfl

/-! ### latch -/

@[simp] theorem latch_regs (s : State) (l : OutLine) (v : Level) : (s.latch l v).regs = s.regs := by
  cases l <;> rfl
@[simp] theorem latch_cfgLimit (s : State) (l : OutLine) (v : Level) : (s.latch l v).cfgLimit = s.cfgLimit := by
  cases l <;> rfl
@[simp] theorem latch_cfgFast (s : State) (l : OutLine) (v : Level) : (s.latch l v).cfgFast = s.cfgFast := by
  cases l <;> rfl
@[simp] theorem latch_lifecycle (s : State) (l : OutLine) (v : Level) : (s.latch l v).lifecycle = s.lifecycle := by
  cases l <;> rfl
@[simp] theorem latch_count (s : State) (l : OutLine) (v : Level) : (s.latch l v).count = s.count := by
  cases l <;> rfl
@[simp] theorem latch_haveLast (s : State) (l : OutLine) (v : Level) : (s.latch l v).haveLast = s.haveLast := by
  cases l <;> rfl
@[simp] theorem latch_err (s : State) (l : OutLine) (v : Level) : (s.latch l v).err = s.err := by
  cases l <;> rfl
@[simp] theorem latch_fbLen (s : State) (l : OutLine) (v : Level) : (s.latch l v).fbLen = s.fbLen := by
  cases l <;> rfl
@[simp] theorem latch_log (s : State) (l : OutLine) (v : Level) : (s.latch l v).log = s.log := by
  cases l <;> rfl
@[simp] theorem latch_pix (s : State) (l : OutLine) (v : Level) : (s.latch l v).pix = s.pix := by
  cases l <;> rfl
@[simp] theorem latch_last (s : State) (l : OutLine) (v : Level) : (s.latch l v).last = s.last := by
  cases l <;> rfl
@[simp] theorem latch_fb (s : State) (l : OutLine) (v : Level) : (s.latch l v).fb = s.fb := by
  cases l <;> rfl
@[simp] theorem latch_status (s : State) (l : OutLine) (v : Level) : (s.latch l v).status = s.status := by
  cases l <;> rfl
@[simp] theorem latch_running (s : State) (l : OutLine) (v : Level) : (s.latch l v).running = s.running := by
  cases l <;> rfl
@[simp] theorem latch_pos (s : State) (l : OutLine) (v : Level) : (s.latch l v).pos = s.pos := by
  cases l <;> rfl
@[simp] theorem latch_host (s : State) (l : OutLine) (v : Level) : (s.latch l v).host = s.host := by
  cases l <;> rfl
@[simp] theorem latch_env (s : State) (l : OutLine) (v : Level) : (s.latch l v).env = s.env := by
  cases l <;> rfl
@[simp] theorem latch_par (s : State) (l : OutLine) (v : Level) : (s.latch l v).par = s.par := by
  cases l <;> rfl
@[simp] theorem latch_waitBound (s : State) (l : OutLine) (v : Level) : (s.latch l v).waitBound = s.waitBound := by
  cases l <;> rfl
@[simp] theorem latch_rst_rst (s : State) (v : Level) : (s.latch .rst v).rst = some v := rfl
@[simp] theorem latch_rst_dc (s : State) (v : Level) : (s.latch .rst v).dc = s.dc := rfl
@[simp] theorem latch_dc_rst (s : State) (v : Level) : (s.latch .dc v).rst = s.rst := rfl
@[simp] theorem latch_dc_dc (s : State) (v : Level) : (s.latch .dc v).dc = some v := rfl

/-! ### The trace (R22) -/

@[simp] theorem trace_emit (s : State) (e : Event) : (s.emit e).trace = s.trace ++ [e] := by
  simp [State.trace]

theorem trace_eq_of_log {s t : State} (h : t.log = s.log) : t.trace = s.trace := by
  simp [State.trace, h]

theorem trace_append_of_log {s t : State} {es : List Event} (h : t.log = es.reverse ++ s.log) :
    t.trace = s.trace ++ es := by
  simp [State.trace, h]

end Sys2Proof.Machine
end

