-- ==== Sys2Proof/Laws/Ops.lean ====
section
/-! SUPPORT. What the micro-operations and the subroutines do: the state after a trace fragment that
succeeds, and what none of them touches. -/

namespace Sys2Proof.Machine

/-! ### The environment -/

@[simp] theorem fails_advance (e : Env) (n r k : Nat) : (e.advance n r).fails k = e.fails (n + k) := by
  simp [Env.fails, Env.advance, Nat.add_assoc]

@[simp] theorem level_advance (e : Env) (n r k : Nat) : (e.advance n r).level k = e.level (r + k) := by
  simp [Env.level, Env.advance, Nat.add_assoc]

@[simp] theorem advance_advance (e : Env) (n r n' r' : Nat) :
    (e.advance n r).advance n' r' = e.advance (n + n') (r + r') := by
  simp only [Env.advance, List.drop_drop, Nat.add_assoc]

@[simp] theorem advance_zero (e : Env) : e.advance 0 0 = e := by
  cases e
  simp [Env.advance]

theorem State.Quiet.mono {s : State} {m n : Nat} (h : s.Quiet n) (hmn : m ≤ n) : s.Quiet m :=
  fun k hk => h k (by omega)

theorem State.Quiet.fails_zero {s : State} {n : Nat} (h : s.Quiet (n + 1)) : s.env.fails 0 = false :=
  h 0 (by omega)

theorem quiet_congr {s t : State} (h : t.env = s.env) (n : Nat) : t.Quiet n ↔ s.Quiet n := by
  simp [State.Quiet, h]

/-- A listed answer for each of the next `n` micro-operations. -/
theorem quiet_of_replicate {s : State} {n : Nat} (h : s.env.failIn = List.replicate n false) :
    s.Quiet n := by
  intro k hk
  simp [Env.fails, h, hk]

/-! ### The state after a trace fragment that succeeded -/

/-- The state after one micro-operation with this event. -/
def State.after1 (s : State) : Event → State
  | .set l v => ((s.latch l v).emit (.set l v)).tick 1 0
  | .wr b => (s.emit (.wr b)).tick 1 0
  | .rd v => (s.emit (.rd v)).tick 1 1
  | .slp ms => s.emit (.slp ms)

/-- The state after the micro-operations of a trace fragment. -/
def State.afterAll (s : State) (es : List Event) : State := es.foldl State.after1 s

@[simp] theorem afterAll_nil (s : State) : s.afterAll [] = s := rfl

@[simp] theorem afterAll_cons (s : State) (e : Event) (es : List Event) :
    s.afterAll (e :: es) = (s.after1 e).afterAll es := rfl

@[simp] theorem afterAll_append (s : State) (es es' : List Event) :
    s.afterAll (es ++ es') = (s.afterAll es).afterAll es' := List.foldl_append

@[simp] theorem microOps_nil : microOps [] = 0 := rfl

@[simp] theorem microOps_append (es es' : List Event) :
    microOps (es ++ es') = microOps es + microOps es' := List.countP_append

@[simp] theorem microOps_cons (e : Event) (es : List Event) :
    microOps (e :: es) = (if Event.canFail e then 1 else 0) + microOps es := by
  simp [microOps, List.countP_cons, Nat.add_comm]

@[simp] theorem busyReads_nil : busyReads [] = 0 := rfl

@[simp] theorem busyReads_append (es es' : List Event) :
    busyReads (es ++ es') = busyReads es + busyReads es' := List.countP_append

@[simp] theorem busyReads_cons (e : Event) (es : List Event) :
    busyReads (e :: es) = (if Event.isRead e then 1 else 0) + busyReads es := by
  simp [busyReads, List.countP_cons, Nat.add_comm]

theorem length_filterMap_microOp (es : List Event) : (es.filterMap Event.microOp).length = microOps es := by
  induction es with
  | nil => rfl
  | cons e es ih =>
    rw [microOps_cons, ← ih]
    rcases e with ⟨_ | _, v⟩ | v | b | ms <;> simp [List.filterMap_cons, Event.microOp, Event.canFail, Nat.add_comm]

theorem microOpAt_append_left {es : List Event} {n : Nat} (h : n < microOps es) (es' : List Event) :
    microOpAt (es ++ es') n = microOpAt es n := by
  rw [microOpAt, List.filterMap_append, List.getElem?_append_left (by rwa [length_filterMap_microOp]), microOpAt]

theorem microOpAt_append_right (es es' : List Event) (n : Nat) :
    microOpAt (es ++ es') (microOps es + n) = microOpAt es' n := by
  rw [microOpAt, List.filterMap_append, List.getElem?_append_right (by rw [length_filterMap_microOp]; omega),
    length_filterMap_microOp, Nat.add_sub_cancel_left, microOpAt]

theorem lastSet_append (l : OutLine) (old : Option Level) (es es' : List Event) :
    lastSet l old (es ++ es') = lastSet l (lastSet l old es) es' := by
  induction es generalizing old with
  | nil => rfl
  | cons e es ih => cases e <;> simp [lastSet, ih]

/-- The whole effect of a trace fragment that succeeds: the trace, the latches and the environment. -/
theorem afterAll_eq (s : State) (es : List Event) :
    s.afterAll es =
      { s with
        log := es.reverse ++ s.log
        env := s.env.advance (microOps es) (busyReads es)
        rst := lastSet .rst s.rst es
        dc := lastSet .dc s.dc es } := by
  induction es generalizing s with
  | nil => simp [lastSet]
  | cons e es ih =>
    rw [afterAll_cons, ih]
    cases e with
    | set l v =>
      cases l <;>
        simp [State.after1, State.latch, State.emit, State.tick, lastSet, Event.canFail, Event.isRead]
    | rd v => simp [State.after1, State.emit, State.tick, lastSet, Event.canFail, Event.isRead]
    | wr b => simp [State.after1, State.emit, State.tick, lastSet, Event.canFail, Event.isRead]
    | slp ms => simp [State.after1, State.emit, lastSet, Event.canFail, Event.isRead]

section AfterAll
variable (s : State) (es : List Event)

@[simp] theorem afterAll_regs : (s.afterAll es).regs = s.regs := by rw [afterAll_eq]
@[simp] theorem afterAll_cfgLimit : (s.afterAll es).cfgLimit = s.cfgLimit := by rw [afterAll_eq]
@[simp] theorem afterAll_cfgFast : (s.afterAll es).cfgFast = s.cfgFast := by rw [afterAll_eq]
@[simp] theorem afterAll_lifecycle : (s.afterAll es).lifecycle = s.lifecycle := by rw [afterAll_eq]
@[simp] theorem afterAll_count : (s.afterAll es).count = s.count := by rw [afterAll_eq]
@[simp] theorem afterAll_haveLast : (s.afterAll es).haveLast = s.haveLast := by rw [afterAll_eq]
@[simp] theorem afterAll_err : (s.afterAll es).err = s.err := by rw [afterAll_eq]
@[simp] theorem afterAll_fbLen : (s.afterAll es).fbLen = s.fbLen := by rw [afterAll_eq]
@[simp] theorem afterAll_pix : (s.afterAll es).pix = s.pix := by rw [afterAll_eq]
@[simp] theorem afterAll_last : (s.afterAll es).last = s.last := by rw [afterAll_eq]
@[simp] theorem afterAll_fb : (s.afterAll es).fb = s.fb := by rw [afterAll_eq]
@[simp] theorem afterAll_status : (s.afterAll es).status = s.status := by rw [afterAll_eq]
@[simp] theorem afterAll_running : (s.afterAll es).running = s.running := by rw [afterAll_eq]
@[simp] theorem afterAll_pos : (s.afterAll es).pos = s.pos := by rw [afterAll_eq]
@[simp] theorem afterAll_host : (s.afterAll es).host = s.host := by rw [afterAll_eq]
@[simp] theorem afterAll_par : (s.afterAll es).par = s.par := by rw [afterAll_eq]
@[simp] theorem afterAll_waitBound : (s.afterAll es).waitBound = s.waitBound := by rw [afterAll_eq]
theorem afterAll_log : (s.afterAll es).log = es.reverse ++ s.log := by rw [afterAll_eq]
theorem afterAll_env : (s.afterAll es).env = s.env.advance (microOps es) (busyReads es) := by
  rw [afterAll_eq]
theorem afterAll_rst : (s.afterAll es).rst = lastSet .rst s.rst es := by rw [afterAll_eq]
theorem afterAll_dc : (s.afterAll es).dc = lastSet .dc s.dc es := by rw [afterAll_eq]

@[simp] theorem afterAll_trace : (s.afterAll es).trace = s.trace ++ es :=
  trace_append_of_log (afterAll_log s es)

@[simp] theorem after1_par (e : Event) : (s.after1 e).par = s.par := by
  simpa using afterAll_par s [e]

@[simp] theorem after1_waitBound (e : Event) : (s.after1 e).waitBound = s.waitBound := by
  simpa using afterAll_waitBound s [e]

/-- What is left of a quiet stretch after a fragment of it. -/
theorem quiet_afterAll {n : Nat} (h : s.Quiet (microOps es + n)) : (s.afterAll es).Quiet n := by
  intro k hk
  rw [afterAll_env, fails_advance]
  exact h _ (by omega)

end AfterAll

/-! ### The subroutines when no micro-operation fails -/

theorem attempt_done {s : State} (h : s.Quiet 1) (op : MicroOp) (act : State → State) :
    attempt op act s = .done ((act s).tick 1 0) := by
  simp [attempt, h.fails_zero]

theorem setLine_done {s : State} (h : s.Quiet 1) (l : OutLine) (v : Level) :
    setLine l v s = .done (s.afterAll [.set l v]) := by
  rw [setLine, attempt_done h]
  rfl

theorem writeByte_done {s : State} (h : s.Quiet 1) (b : Byte) :
    writeByte b s = .done (s.afterAll [.wr b]) := by
  rw [writeByte, attempt_done h]
  rfl

theorem sleep_eq (ms : Nat) (s : State) : sleep ms s = s.afterAll [.slp ms] := rfl

theorem sendFrame_done {s : State} (h : s.Quiet 2) (v : Level) (b : Byte) :
    sendFrame v b s = .done (s.afterAll [.set .dc v, .wr b]) := by
  rw [sendFrame, setLine_done (h.mono (by omega))]
  have h1 : (s.afterAll [.set .dc v]).Quiet 1 := quiet_afterAll s _ (by simpa [Event.canFail] using h)
  rw [Res.andThen, writeByte_done h1, ← afterAll_append]
  rfl

theorem sendCommand_done {s : State} (h : s.Quiet 2) (b : Byte) :
    sendCommand b s = .done (s.afterAll (commandEvents s.par b)) :=
  sendFrame_done h _ b

theorem sendData_done {s : State} (h : s.Quiet 2) (b : Byte) :
    sendData b s = .done (s.afterAll (dataEvents s.par b)) :=
  sendFrame_done h _ b

@[simp] theorem microOps_commandEvents (p : Params) (b : Byte) : microOps (commandEvents p b) = 2 := rfl

@[simp] theorem busyReads_commandEvents (p : Params) (b : Byte) : busyReads (commandEvents p b) = 0 := rfl

@[simp] theorem microOps_dataEvents (p : Params) (b : Byte) : microOps (dataEvents p b) = 2 := rfl

@[simp] theorem blockEvents_nil (p : Params) : blockEvents p [] = [] := rfl

@[simp] theorem blockEvents_cons (p : Params) (b : Byte) (bs : List Byte) :
    blockEvents p (b :: bs) = dataEvents p b ++ blockEvents p bs := rfl

@[simp] theorem length_blockEvents (p : Params) (bs : List Byte) :
    (blockEvents p bs).length = 2 * bs.length := by
  induction bs with
  | nil => rfl
  | cons b bs ih =>
    simp only [blockEvents_cons, List.length_append, ih, List.length_cons]
    simp [dataEvents]
    omega

@[simp] theorem microOps_blockEvents (p : Params) (bs : List Byte) :
    microOps (blockEvents p bs) = 2 * bs.length := by
  induction bs with
  | nil => rfl
  | cons b bs ih =>
    simp only [blockEvents_cons, microOps_append, microOps_dataEvents, ih, List.length_cons]
    omega

@[simp] theorem busyReads_blockEvents (p : Params) (bs : List Byte) :
    busyReads (blockEvents p bs) = 0 := by
  induction bs with
  | nil => rfl
  | cons b bs ih => simp [ih, dataEvents, Event.isRead]

/-- SendBlock when nothing fails (R93). -/
theorem sendBlock_done (bs : List Byte) {s : State} (h : s.Quiet (2 * bs.length)) :
    sendBlock bs s = .done (s.afterAll (blockEvents s.par bs)) := by
  induction bs generalizing s with
  | nil => rfl
  | cons b bs ih =>
    have h2 : s.Quiet 2 := h.mono (by simp)
    rw [sendBlock, sendData_done h2, Res.andThen]
    have h3 : (s.afterAll (dataEvents s.par b)).Quiet (2 * bs.length) :=
      quiet_afterAll s _ (by simpa [Nat.mul_add, Nat.add_comm] using h)
    rw [ih h3]
    simp

/-- A fragment, then another, when nothing fails. -/
theorem andThen_done {s : State} {r : Res} {f : State → Res} {es es' : List Event}
    (hr : r = .done (s.afterAll es)) (hf : f (s.afterAll es) = .done ((s.afterAll es).afterAll es')) :
    r.andThen f = .done (s.afterAll (es ++ es')) := by
  rw [hr, afterAll_append]
  exact hf

theorem sendLutPart_done {s : State} (fast : Bool) (k : LutKey)
    (h : s.Quiet (microOps (lutPartEvents s.par fast k))) :
    sendLutPart fast k s = .done (s.afterAll (lutPartEvents s.par fast k)) := by
  simp only [lutPartEvents, microOps_append, microOps_commandEvents, microOps_blockEvents] at h
  refine andThen_done (sendCommand_done (h.mono (by omega)) _) ?_
  have := sendBlock_done ((s.par.lutSet fast).at k)
    (quiet_afterAll s (commandEvents s.par (s.par.cmdLut.at k)) (by simpa using h))
  simpa using this

/-- SET_LUT when nothing fails (R103). -/
theorem setLut_done {s : State} (fast : Bool) (h : s.Quiet (microOps (lutEvents s.par fast))) :
    setLut fast s = .done (s.afterAll (lutEvents s.par fast)) := by
  simp only [lutEvents, microOps_append] at h
  have part : ∀ (es : List Event) (k : LutKey),
      s.Quiet (microOps es + microOps (lutPartEvents s.par fast k)) →
      sendLutPart fast k (s.afterAll es) =
        .done ((s.afterAll es).afterAll (lutPartEvents s.par fast k)) := by
    intro es k hq
    have := sendLutPart_done fast k (s := s.afterAll es) (quiet_afterAll s es (by simpa using hq))
    simpa using this
  rw [setLut, sendLutPart_done fast .vcom (h.mono (by omega))]
  simp only [Res.andThen]
  rw [part _ .ww (h.mono (by omega))]
  simp only [← afterAll_append]
  rw [part _ .bw (h.mono (by simp; omega))]
  simp only [← afterAll_append]
  rw [part _ .wb (h.mono (by simp; omega))]
  simp only [← afterAll_append]
  rw [part _ .bb (h.mono (by simp; omega))]
  simp [lutEvents]

/-- The reset pulse when nothing fails (R92). -/
theorem pulseReset_done {s : State} (h : s.Quiet 2) :
    pulseReset s = .done (s.afterAll resetEvents) := by
  rw [pulseReset, setLine_done (h.mono (by omega))]
  have h1 : (sleep 200 (s.afterAll [.set .rst .low])).Quiet 1 := by
    rw [sleep_eq, ← afterAll_append]
    exact quiet_afterAll s _ (by simpa [Event.canFail] using h)
  rw [Res.andThen, setLine_done h1]
  simp [Res.andThen, sleep_eq, resetEvents]

/-- One poll that reads idle (R94). -/
theorem pollBusy_idle {s : State} (h : s.Quiet 1) (hl : s.env.level 0 = s.par.idleLevel) (n : Nat) :
    pollBusy n s = .done (s.afterAll [.rd s.par.idleLevel]) := by
  simp [pollBusy, readLine, h.fails_zero, hl, State.after1]

theorem level_eq_busy {v : Level} {p : Params} (h : v ≠ p.idleLevel) : v = p.busyLevel := by
  unfold Params.busyLevel
  cases v <;> cases hp : p.idleLevel <;> simp_all [Level.other]

/-- One poll that reads busy, below the bound (R94). -/
theorem pollBusy_busy {s : State} (h : s.Quiet 1) (hl : s.env.level 0 ≠ s.par.idleLevel) {n : Nat}
    (hb : boundReached s.waitBound (n + 1) = false) :
    pollBusy n s = .busy (n + 1) (s.afterAll [.rd s.par.busyLevel, .slp 50]) := by
  have hv := level_eq_busy hl
  have hne : s.par.busyLevel ≠ s.par.idleLevel := hv ▸ hl
  simp [pollBusy, readLine, h.fails_zero, hv, hne, hb, State.after1, sleep]

/-- One poll that reads busy and reaches the bound (R143). -/
theorem pollBusy_bound {s : State} (h : s.Quiet 1) (hl : s.env.level 0 ≠ s.par.idleLevel) {n : Nat}
    (hb : boundReached s.waitBound (n + 1) = true) :
    pollBusy n s = .raised (.busyTimeout (n + 1)) (s.afterAll [.rd s.par.busyLevel]) := by
  have hv := level_eq_busy hl
  have hne : s.par.busyLevel ≠ s.par.idleLevel := hv ▸ hl
  simp [pollBusy, readLine, h.fails_zero, hv, hne, hb, State.after1]

/-! ### What the lines never touch -/

/-- `P` holds of the state a line comes to, however it ends. -/
def Res.All (P : State → Prop) : Res → Prop
  | .done s => P s
  | .raised _ s => P s
  | .busy _ s => P s

theorem Res.All.mono {P Q : State → Prop} {r : Res} (h : r.All P) (hPQ : ∀ s, P s → Q s) : r.All Q := by
  cases r <;> exact hPQ _ h

theorem Res.All.andThen {P : State → Prop} {r : Res} {f : State → Res} (hr : r.All P)
    (hf : ∀ s, P s → (f s).All P) : (r.andThen f).All P := by
  cases r with
  | done s => exact hf s hr
  | raised e s => exact hr
  | busy n s => exact hr

/-- Only the latches, the trace and the environment differ. -/
def WireOnly (s t : State) : Prop :=
  t = { s with rst := t.rst, dc := t.dc, log := t.log, env := t.env }

theorem WireOnly.refl (s : State) : WireOnly s s := rfl

theorem WireOnly.trans {s t u : State} (h : WireOnly s t) (h' : WireOnly t u) : WireOnly s u := by
  unfold WireOnly at *
  rw [h'] at *
  rw [h]

theorem wireOnly_tick (s : State) (n r : Nat) : WireOnly s (s.tick n r) := rfl

theorem wireOnly_emit (s : State) (e : Event) : WireOnly s (s.emit e) := rfl

theorem wireOnly_latch (s : State) (l : OutLine) (v : Level) : WireOnly s (s.latch l v) := by
  cases l <;> rfl

theorem wireOnly_attempt {s s₀ : State} {op : MicroOp} {act : State → State} (h : WireOnly s₀ s)
    (hact : WireOnly s (act s)) : (attempt op act s).All (WireOnly s₀) := by
  unfold attempt
  split
  · exact h.trans (wireOnly_tick _ _ _)
  · exact (h.trans hact).trans (wireOnly_tick _ _ _)

theorem wireOnly_setLine {s s₀ : State} (h : WireOnly s₀ s) (l : OutLine) (v : Level) :
    (setLine l v s).All (WireOnly s₀) :=
  wireOnly_attempt h ((wireOnly_latch _ _ _).trans (wireOnly_emit _ _))

theorem wireOnly_sleep {s s₀ : State} (h : WireOnly s₀ s) (ms : Nat) : WireOnly s₀ (sleep ms s) :=
  h.trans (wireOnly_emit _ _)

theorem wireOnly_sendFrame {s s₀ : State} (h : WireOnly s₀ s) (v : Level) (b : Byte) :
    (sendFrame v b s).All (WireOnly s₀) :=
  (wireOnly_setLine h _ _).andThen fun _ h => wireOnly_attempt h (wireOnly_emit _ _)

theorem wireOnly_sendBlock (bs : List Byte) {s s₀ : State} (h : WireOnly s₀ s) :
    (sendBlock bs s).All (WireOnly s₀) := by
  induction bs generalizing s with
  | nil => exact h
  | cons b bs ih => exact (wireOnly_sendFrame h _ _).andThen fun _ h => ih h

theorem wireOnly_sendLutPart {s s₀ : State} (h : WireOnly s₀ s) (fast : Bool) (k : LutKey) :
    (sendLutPart fast k s).All (WireOnly s₀) :=
  (wireOnly_sendFrame h _ _).andThen fun _ h => wireOnly_sendBlock _ h

theorem wireOnly_setLut {s s₀ : State} (h : WireOnly s₀ s) (fast : Bool) :
    (setLut fast s).All (WireOnly s₀) :=
  (wireOnly_sendLutPart h _ _).andThen fun _ h => (wireOnly_sendLutPart h _ _).andThen fun _ h =>
    (wireOnly_sendLutPart h _ _).andThen fun _ h => (wireOnly_sendLutPart h _ _).andThen fun _ h =>
      wireOnly_sendLutPart h _ _

theorem wireOnly_pulseReset {s s₀ : State} (h : WireOnly s₀ s) : (pulseReset s).All (WireOnly s₀) :=
  (wireOnly_setLine h _ _).andThen fun _ h =>
    (wireOnly_setLine (wireOnly_sleep h _) _ _).andThen fun _ h => wireOnly_sleep h _

theorem wireOnly_pollBusy {s s₀ : State} (h : WireOnly s₀ s) (n : Nat) :
    (pollBusy n s).All (WireOnly s₀) := by
  unfold pollBusy readLine
  have h' : WireOnly s₀ ((s.emit (.rd (s.env.level 0))).tick 1 1) :=
    (h.trans (wireOnly_emit _ _)).trans (wireOnly_tick _ _ _)
  split
  · exact h.trans (wireOnly_tick _ _ _)
  · dsimp only
    split
    · exact h'
    · split
      · exact h'
      · exact wireOnly_sleep h' _

end Sys2Proof.Machine
end

