-- ==== Sys2Proof/Laws/Run.lean ====
section
/-! SUPPORT. What a line, a run of lines, a request and a step can do, said once each. -/

namespace Sys2Proof.Machine

/-! ### The run of a request -/

@[simp] theorem runWork_nil (s : State) : runWork [] s = complete s := rfl

theorem runWork_done {w : Work} {ws : List Work} {s s' : State} (h : w.perform s = .done s') :
    runWork (w :: ws) s = runWork ws s' := by
  rw [runWork, h]

theorem runWork_raised {w : Work} {ws : List Work} {s s' : State} {e : Exc}
    (h : w.perform s = .raised e s') : runWork (w :: ws) s = takeException e s' := by
  rw [runWork, h]

theorem runWork_busy {w : Work} {ws : List Work} {s s' : State} {n : Nat}
    (h : w.perform s = .busy n s') : runWork (w :: ws) s = holdRequest (.wait n :: ws) s' := by
  rw [runWork, h]

/-- A request ends in its completion, in an exception or in a busy poll: what holds before a line and
is kept by it leads to what holds of the three ends. -/
theorem runWork_induct {P : List Work → State → Prop} {Q : State → Prop}
    (nil : ∀ s, P [] s → Q (complete s))
    (done : ∀ w ws s s', P (w :: ws) s → w.perform s = .done s' → P ws s')
    (raised : ∀ w ws s e s', P (w :: ws) s → w.perform s = .raised e s' → Q (takeException e s'))
    (busy : ∀ w ws s n s', P (w :: ws) s → w.perform s = .busy n s' →
      Q (holdRequest (.wait n :: ws) s')) :
    ∀ ws s, P ws s → Q (runWork ws s) := by
  intro ws
  induction ws with
  | nil => exact fun s h => nil s h
  | cons w ws ih =>
    intro s h
    rcases hw : w.perform s with s' | ⟨e, s'⟩ | ⟨n, s'⟩
    · rw [runWork_done hw]
      exact ih s' (done w ws s s' h hw)
    · rw [runWork_raised hw]
      exact raised w ws s e s' h hw
    · rw [runWork_busy hw]
      exact busy w ws s n s' h hw

/-! ### One line -/

/-- The lines that act on the wire only. The six others are bookkeeping and read off their definition. -/
def Work.isWire : Work → Bool
  | .command _ => true
  | .data _ => true
  | .block _ => true
  | .fbBlock _ => true
  | .resetPulse => true
  | .delay _ => true
  | .wait _ => true
  | .lut _ => true
  | .encode => false
  | .packRegion _ _ _ _ _ => false
  | .beginInit => false
  | .endInit => false
  | .endSleep => false
  | .commitFrame => false
  | .commitPartial => false

theorem perform_wire {w : Work} (h : w.isWire = true) (s : State) : (w.perform s).All (WireOnly s) := by
  cases w with
  | command b => exact wireOnly_sendFrame (.refl s) _ _
  | data b => exact wireOnly_sendFrame (.refl s) _ _
  | block bs => exact wireOnly_sendBlock bs (.refl s)
  | fbBlock n => exact wireOnly_sendBlock _ (.refl s)
  | resetPulse => exact wireOnly_pulseReset (.refl s)
  | delay ms => exact wireOnly_sleep (.refl s) ms
  | wait n => exact wireOnly_pollBusy (.refl s) n
  | lut fast => exact wireOnly_setLut (.refl s) fast
  | encode => cases h
  | packRegion src x y h w => cases h
  | beginInit => cases h
  | endInit => cases h
  | endSleep => cases h
  | commitFrame => cases h
  | commitPartial => cases h

theorem encode_done {s : State} (h : s.panelSized = true) :
    Work.encode.perform s = .done (s.putFb (pack (s.pixel .pix) panelRegion)) := if_pos h

theorem encode_raised {s : State} (h : ¬ s.panelSized = true) :
    Work.encode.perform s = .raised (.dimension s.regs.pixW s.regs.pixH) s := if_neg h

/-- A line that raises an exception has written the latches, the trace and the environment only. -/
theorem perform_raised {w : Work} {s s' : State} {e : Exc} (h : w.perform s = .raised e s') :
    WireOnly s s' := by
  by_cases hw : w.isWire = true
  · simpa [h, Res.All] using perform_wire hw s
  · cases w <;> simp_all [Work.isWire, Work.perform, encodeFull]
    split at h
    · cases h
    · cases h
      exact WireOnly.refl _

/-- Only a poll goes round again, and it too has written the wire only. -/
theorem perform_busy {w : Work} {s s' : State} {n : Nat} (h : w.perform s = .busy n s') :
    WireOnly s s' := by
  by_cases hw : w.isWire = true
  · simpa [h, Res.All] using perform_wire hw s
  · cases w <;> simp_all [Work.isWire, Work.perform, encodeFull]
    split at h <;> cases h

/-- A line that stops or is done, but goes round no poll loop. -/
def Res.NotBusy : Res → Prop
  | .done _ => True
  | .raised _ _ => True
  | .busy _ _ => False

theorem notBusy_andThen {r : Res} {f : State → Res} (hr : r.NotBusy) (hf : ∀ s, (f s).NotBusy) :
    (r.andThen f).NotBusy := by
  cases r with
  | done s => exact hf s
  | raised e s => trivial
  | busy n s => exact hr

theorem notBusy_attempt (op : MicroOp) (act : State → State) (s : State) :
    (attempt op act s).NotBusy := by
  unfold attempt
  split <;> trivial

theorem notBusy_sendFrame (v : Level) (b : Byte) (s : State) : (sendFrame v b s).NotBusy :=
  notBusy_andThen (notBusy_attempt _ _ s) fun _ => notBusy_attempt _ _ _

theorem notBusy_sendBlock (bs : List Byte) (s : State) : (sendBlock bs s).NotBusy := by
  induction bs generalizing s with
  | nil => trivial
  | cons b bs ih => exact notBusy_andThen (notBusy_sendFrame _ b s) ih

theorem notBusy_sendLutPart (fast : Bool) (k : LutKey) (s : State) : (sendLutPart fast k s).NotBusy :=
  notBusy_andThen (notBusy_sendFrame _ _ s) (notBusy_sendBlock _)

theorem notBusy_setLut (fast : Bool) (s : State) : (setLut fast s).NotBusy :=
  notBusy_andThen (notBusy_sendLutPart fast .vcom s) fun _ =>
    notBusy_andThen (notBusy_sendLutPart fast .ww _) fun _ =>
      notBusy_andThen (notBusy_sendLutPart fast .bw _) fun _ =>
        notBusy_andThen (notBusy_sendLutPart fast .wb _) fun _ => notBusy_sendLutPart fast .bb _

theorem notBusy_pulseReset (s : State) : (pulseReset s).NotBusy :=
  notBusy_andThen (notBusy_attempt _ _ s) fun _ =>
    notBusy_andThen (notBusy_attempt _ _ _) fun _ => trivial

/-- Only a WAIT_IDLE goes round again. -/
theorem perform_busy_wait {w : Work} {s s' : State} {n : Nat} (h : w.perform s = .busy n s') :
    ∃ m, w = .wait m := by
  have key : ∀ {r : Res}, r.NotBusy → r ≠ .busy n s' := by
    rintro r hr rfl
    exact hr
  cases w with
  | command b => exact absurd h (key (notBusy_sendFrame _ b s))
  | data b => exact absurd h (key (notBusy_sendFrame _ b s))
  | block bs => exact absurd h (key (notBusy_sendBlock bs s))
  | fbBlock n => exact absurd h (key (notBusy_sendBlock _ s))
  | resetPulse => exact absurd h (key (notBusy_pulseReset s))
  | delay ms => cases h
  | wait m => exact ⟨m, rfl⟩
  | lut fast => exact absurd h (key (notBusy_setLut fast s))
  | encode =>
    by_cases hp : s.panelSized = true
    · rw [encode_done hp] at h
      cases h
    · rw [encode_raised hp] at h
      cases h
  | packRegion src x y h' w => cases h
  | beginInit => cases h
  | endInit => cases h
  | endSleep => cases h
  | commitFrame => cases h
  | commitPartial => cases h

/-- What a line that is done may have written: the wire, FB, LIFECYCLE, or the cache. -/
theorem perform_done {w : Work} {s s' : State} (h : w.perform s = .done s') :
    WireOnly s s' ∨
    (w = .encode ∧ s.panelSized = true ∧ s' = s.putFb (pack (s.pixel .pix) panelRegion)) ∨
    (∃ src x y h w', w = .packRegion src x y h w' ∧
      s' = s.putFb (pack (s.pixel src) ⟨x, y, h, w'⟩)) ∨
    (w = .beginInit ∧ s' = s.setLifecycle .initializing) ∨
    (w = .endInit ∧ s' = s.setLifecycle .ready) ∨
    (w = .endSleep ∧ s' = s.setLifecycle .sleeping) ∨
    (w = .commitFrame ∧ s' = s.commit 0) ∨
    (w = .commitPartial ∧ s' = s.commit (s.count + 1)) := by
  by_cases hw : w.isWire = true
  · exact .inl (by simpa [h, Res.All] using perform_wire hw s)
  · refine .inr ?_
    cases w <;> simp_all [Work.isWire, Work.perform, encodeFull]
    split at h <;> simp_all

/-- What no line writes. -/
structure LineKeeps (s t : State) : Prop extends KeptByRequests s t where
  pos : t.pos = s.pos
  err : t.err = s.err
  status : t.status = s.status
  running : t.running = s.running

theorem LineKeeps.of_wireOnly {s t : State} (h : WireOnly s t) : LineKeeps s t := by
  unfold WireOnly at h
  rw [h]
  exact ⟨⟨rfl, rfl, rfl, rfl, rfl, rfl, rfl⟩, rfl, rfl, rfl, rfl⟩

theorem KeptByRequests.refl (s : State) : KeptByRequests s s := ⟨rfl, rfl, rfl, rfl, rfl, rfl, rfl⟩

theorem KeptByRequests.trans {s t u : State} (h : KeptByRequests s t) (h' : KeptByRequests t u) :
    KeptByRequests s u :=
  ⟨h'.regs.trans h.regs, h'.cfgLimit.trans h.cfgLimit, h'.cfgFast.trans h.cfgFast, h'.pix.trans h.pix,
    h'.par.trans h.par, h'.waitBound.trans h.waitBound, h'.host.trans h.host⟩

theorem LineKeeps.trans {s t u : State} (h : LineKeeps s t) (h' : LineKeeps t u) : LineKeeps s u :=
  ⟨h.toKeptByRequests.trans h'.toKeptByRequests, h'.pos.trans h.pos, h'.err.trans h.err, h'.status.trans h.status,
    h'.running.trans h.running⟩

theorem keeps_putFb (s : State) (buf : List Byte) : LineKeeps s (s.putFb buf) :=
  ⟨⟨rfl, rfl, rfl, rfl, rfl, rfl, rfl⟩, rfl, rfl, rfl, rfl⟩

theorem perform_keeps (w : Work) (s : State) : (w.perform s).All (LineKeeps s) := by
  rcases h : w.perform s with s' | ⟨e, s'⟩ | ⟨n, s'⟩
  · rcases perform_done h with h | ⟨-, -, rfl⟩ | ⟨_, _, _, _, _, -, rfl⟩ | ⟨-, rfl⟩ | ⟨-, rfl⟩ | ⟨-, rfl⟩ |
      ⟨-, rfl⟩ | ⟨-, rfl⟩
    · exact .of_wireOnly h
    · exact keeps_putFb s _
    · exact keeps_putFb s _
    all_goals exact ⟨⟨rfl, rfl, rfl, rfl, rfl, rfl, rfl⟩, rfl, rfl, rfl, rfl⟩
  · exact .of_wireOnly (perform_raised h)
  · exact .of_wireOnly (perform_busy h)

/-- A line that writes neither LIFECYCLE nor the cache. -/
def Work.plain : Work → Bool
  | .beginInit => false
  | .endInit => false
  | .endSleep => false
  | .commitFrame => false
  | .commitPartial => false
  | _ => true

/-- LIFECYCLE, the cache, ERR and what no request writes are as they were. -/
structure ControlKept (s t : State) : Prop extends KeptByRequests s t where
  err : t.err = s.err
  lifecycle : t.lifecycle = s.lifecycle
  last : t.last = s.last
  haveLast : t.haveLast = s.haveLast
  count : t.count = s.count

theorem ControlKept.refl (s : State) : ControlKept s s := ⟨KeptByRequests.refl s, rfl, rfl, rfl, rfl, rfl⟩

theorem ControlKept.trans {s t u : State} (h : ControlKept s t) (h' : ControlKept t u) :
    ControlKept s u :=
  ⟨h.toKeptByRequests.trans h'.toKeptByRequests, h'.err.trans h.err, h'.lifecycle.trans h.lifecycle,
    h'.last.trans h.last, h'.haveLast.trans h.haveLast, h'.count.trans h.count⟩

theorem ControlKept.of_wireOnly {s t : State} (h : WireOnly s t) : ControlKept s t := by
  refine ⟨(LineKeeps.of_wireOnly h).toKeptByRequests, ?_, ?_, ?_, ?_, ?_⟩ <;> unfold WireOnly at h <;> rw [h]

/-- Going round the poll loop keeps them too. -/
theorem ControlKept.hold {s t : State} (h : ControlKept s t) (ws : List Work) :
    ControlKept s (holdRequest ws t) :=
  h.trans ⟨⟨rfl, rfl, rfl, rfl, rfl, rfl, rfl⟩, rfl, rfl, rfl, rfl, rfl⟩

theorem keeps_control_putFb (s : State) (buf : List Byte) : ControlKept s (s.putFb buf) :=
  ⟨(keeps_putFb s buf).toKeptByRequests, rfl, rfl, rfl, rfl, rfl⟩

/-- A plain line that is done keeps LIFECYCLE and the cache; a line that raises an exception or goes
round again keeps them whatever it is (`perform_raised`, `perform_busy`). -/
theorem perform_plain {w : Work} {s s' : State} (hp : w.plain = true) (h : w.perform s = .done s') :
    ControlKept s s' := by
  rcases perform_done h with hw | ⟨-, -, rfl⟩ | ⟨_, _, _, _, _, -, rfl⟩ | ⟨rfl, -⟩ | ⟨rfl, -⟩ | ⟨rfl, -⟩ |
    ⟨rfl, -⟩ | ⟨rfl, -⟩
  · exact .of_wireOnly hw
  · exact keeps_control_putFb s _
  · exact keeps_control_putFb s _
  all_goals cases hp

/-- A run of lines keeps what no request writes, moves the position at its end, and sets ERR, the status and what is left of the
request in one of three ways: completion, exception, poll. -/
theorem runWork_ends (ws : List Work) (s : State) :
    KeptByRequests s (runWork ws s) ∧ PosMovesAtTheEnd s (runWork ws s) ∧
    (((runWork ws s).err = s.err ∧ (runWork ws s).status = some .ok ∧ (runWork ws s).running = none) ∨
     (∃ e, (runWork ws s).err = errAfter s.err e ∧ (runWork ws s).status = some (.failed e) ∧
       (runWork ws s).running = none) ∨
     (∃ n rest, (runWork ws s).err = s.err ∧ (runWork ws s).status = none ∧
       (runWork ws s).running = some (.wait n :: rest))) := by
  refine runWork_induct (P := fun _ t => LineKeeps s t)
    (Q := fun t => KeptByRequests s t ∧ PosMovesAtTheEnd s t ∧ ((t.err = s.err ∧ t.status = some .ok ∧ t.running = none) ∨
      (∃ e, t.err = errAfter s.err e ∧ t.status = some (.failed e) ∧ t.running = none) ∨
      (∃ n rest, t.err = s.err ∧ t.status = none ∧ t.running = some (.wait n :: rest))))
    ?_ ?_ ?_ ?_ ws s ⟨.refl s, rfl, rfl, rfl, rfl⟩
  · intro t h
    exact ⟨⟨h.regs, h.cfgLimit, h.cfgFast, h.pix, h.par, h.waitBound, h.host⟩, by simp [PosMovesAtTheEnd, h.pos],
      .inl ⟨h.err, rfl, rfl⟩⟩
  · intro w ws t t' h hw
    have := perform_keeps w t
    rw [hw] at this
    exact h.trans this
  · intro w ws t e t' h hw
    have h' := h.trans (.of_wireOnly (perform_raised hw))
    exact ⟨⟨h'.regs, h'.cfgLimit, h'.cfgFast, h'.pix, h'.par, h'.waitBound, h'.host⟩, by simp [PosMovesAtTheEnd, h'.pos],
      .inr (.inl ⟨e, by simp [h'.err], rfl, rfl⟩)⟩
  · intro w ws t n t' h hw
    have h' := h.trans (.of_wireOnly (perform_busy hw))
    exact ⟨⟨h'.regs, h'.cfgLimit, h'.cfgFast, h'.pix, h'.par, h'.waitBound, h'.host⟩, by simp [PosMovesAtTheEnd, h'.pos],
      .inr (.inr ⟨n, ws, h'.err, rfl, rfl⟩)⟩

/-! ### The invariant's pieces -/

theorem State.MemInv.of_eq {s t : State} (h : s.MemInv) (hp : t.pix = s.pix) (hl : t.last = s.last)
    (hf : t.fb = s.fb) (hn : t.fbLen = s.fbLen) : t.MemInv :=
  ⟨hp ▸ h.pix_wf, hl ▸ h.last_wf, hl ▸ h.last_in_panel, hf ▸ h.fb_wf, hf ▸ h.fb_in_capacity,
    hn ▸ h.fbLen_le⟩

theorem State.MemInv.of_wireOnly {s t : State} (h : s.MemInv) (hw : WireOnly s t) : t.MemInv := by
  unfold WireOnly at hw
  rw [hw]
  exact h.of_eq rfl rfl rfl rfl

theorem State.MemInv.putFb {s : State} (h : s.MemInv) {buf : List Byte} (hb : buf.length ≤ Config.frameBytes) :
    (s.putFb buf).MemInv where
  pix_wf := h.pix_wf
  last_wf := h.last_wf
  last_in_panel := h.last_in_panel
  fb_wf := writeFront_wf _ h.fb_wf
  fb_in_capacity := writeFront_below _ h.fb_in_capacity hb
  fbLen_le := by
    simp only [putFb_fbLen, BitVec.toNat_ofNat]
    exact (Nat.mod_le _ _).trans hb

theorem State.MemInv.commit {s : State} (h : s.MemInv) (n : Nat) : (s.commit n).MemInv where
  pix_wf := h.pix_wf
  last_wf := front_wf _ h.pix_wf
  last_in_panel := front_below _ _
  fb_wf := h.fb_wf
  fb_in_capacity := h.fb_in_capacity
  fbLen_le := h.fbLen_le

/-- Every line that fits keeps the memories well-formed. -/
theorem perform_memInv {w : Work} {s : State} (h : s.MemInv) (hf : w.fits = true) :
    (w.perform s).All State.MemInv := by
  rcases hw : w.perform s with s' | ⟨e, s'⟩ | ⟨n, s'⟩
  · rcases perform_done hw with hwire | ⟨-, -, rfl⟩ | ⟨_, _, _, _, _, rfl, rfl⟩ | ⟨-, rfl⟩ | ⟨-, rfl⟩ |
      ⟨-, rfl⟩ | ⟨-, rfl⟩ | ⟨-, rfl⟩
    · exact State.MemInv.of_wireOnly h hwire
    · exact State.MemInv.putFb h (by simp [panelRegion, Config.width, Config.height, Config.frameBytes])
    · exact State.MemInv.putFb h (by simpa [Work.fits] using hf)
    · exact State.MemInv.of_eq h rfl rfl rfl rfl
    · exact State.MemInv.of_eq h rfl rfl rfl rfl
    · exact State.MemInv.of_eq h rfl rfl rfl rfl
    · exact State.MemInv.commit h 0
    · exact State.MemInv.commit h _
  · exact State.MemInv.of_wireOnly h (perform_raised hw)
  · exact State.MemInv.of_wireOnly h (perform_busy hw)

/-! ### A request and a step -/

/-- A request that a block in this lifecycle state may perform: its lines fit FB, and a block that is
Uninitialized writes the cache only after beginning its INIT. -/
def WorkOk (l : Lifecycle) (ws : List Work) : Prop :=
  ws.all Work.fits = true ∧
    (ws.any Work.commits = true → l ≠ .uninitialized ∨ ws.head? = some .beginInit)

theorem initWork_fits (p : Params) : (initWork p).all Work.fits = true := by
  have hs : ∀ i, (scriptWork i).fits = true := by
    intro i
    cases i <;> rfl
  have hm : (p.initScript.map scriptWork).all Work.fits = true := by
    simp only [List.all_map, List.all_eq_true, Function.comp_apply]
    exact fun i _ => hs i
  simp only [initWork, List.all_append, hm]
  rfl

theorem initWork_commits (p : Params) : (initWork p).any Work.commits = false := by
  have hs : ∀ i, (scriptWork i).commits = false := by
    intro i
    cases i <;> rfl
  have hm : (p.initScript.map scriptWork).any Work.commits = false := by
    simp only [List.any_map, List.any_eq_false, Function.comp_apply]
    exact fun i _ => by simp [hs i]
  simp only [initWork, List.any_append, hm]
  rfl

theorem frameWork_fits (p : Params) : (frameWork p).all Work.fits = true := rfl

theorem partialWork_fits (p : Params) (fast : Bool) {r : Region}
    (h : r.w / 8 * r.h ≤ Config.frameBytes) : (partialWork p fast r).all Work.fits = true := by
  cases fast <;> simp [partialWork, Work.fits, h]

/-- An aligned region inside the panel packs into no more than FB holds. -/
theorem region_fits {r : Region} (hx : r.x + r.w ≤ Config.width) (hy : r.y + r.h ≤ Config.height) :
    r.w / 8 * r.h ≤ Config.frameBytes := by
  simp only [Config.width, Config.height] at hx hy
  have h1 : r.w / 8 ≤ 22 := by omega
  have h2 : r.h ≤ 264 := by omega
  calc r.w / 8 * r.h ≤ 22 * 264 := Nat.mul_le_mul h1 h2
    _ = Config.frameBytes := rfl

theorem displayFrame_next {s t : State} (h : displayFrame s = .next t) :
    t = runWork (displayFrameWork s) s ∧ WorkOk s.lifecycle (displayFrameWork s) := by
  unfold displayFrame at h
  split at h
  · cases h
  · injection h with h
    refine ⟨h.symm, ?_⟩
    unfold displayFrameWork
    split
    · exact ⟨by simp [initWork_fits, frameWork_fits], fun _ => .inr rfl⟩
    · exact ⟨frameWork_fits _, fun _ => .inl ‹_›⟩

theorem displayPartial_next {fast : Bool} {r : Region} {s t : State}
    (h : displayPartial fast r s = .next t) :
    t = runWork (partialWork s.par fast r.aligned) s ∧
      WorkOk s.lifecycle (partialWork s.par fast r.aligned) ∧ s.lifecycle = .ready ∧
      s.haveLast = true ∧ s.panelSized = true := by
  unfold displayPartial at h
  split_ifs at h with h1 h2 h3 h4
  injection h with h
  have hl : s.lifecycle = .ready := by simpa using h1
  refine ⟨h.symm, ⟨partialWork_fits _ _ (region_fits (by omega) (by omega)), fun _ => .inl ?_⟩, hl, ?_, ?_⟩
  · rw [hl]
    decide
  · simpa using h2
  · simpa using h3

/-- A request that is not refused is the run of its lines. -/
theorem exec_next {i : Instr} {s t : State} (h : exec i s = .next t) :
    ∃ ws, t = runWork ws s ∧ WorkOk s.lifecycle ws := by
  have small : ∀ w : Work, w.fits = true → w.commits = false → WorkOk s.lifecycle [w] := by
    intro w hf hc
    exact ⟨by simp [hf], fun h => by simp [hc] at h⟩
  cases i with
  | sendCommand b =>
    injection h with h
    exact ⟨_, h.symm, small _ rfl rfl⟩
  | sendData b =>
    injection h with h
    exact ⟨_, h.symm, small _ rfl rfl⟩
  | reset =>
    injection h with h
    exact ⟨_, h.symm, small _ rfl rfl⟩
  | waitIdle =>
    injection h with h
    exact ⟨_, h.symm, small _ rfl rfl⟩
  | encode =>
    injection h with h
    exact ⟨_, h.symm, small _ rfl rfl⟩
  | encodeRegion src =>
    simp only [exec, execEncodeRegion] at h
    split_ifs at h with h1 h2 h3 h4
    injection h with h
    exact ⟨_, h.symm, small _ (by simp only [Work.fits, decide_eq_true_eq]; omega) rfl⟩
  | init =>
    injection h with h
    exact ⟨_, h.symm, initWork_fits _, fun h => by rw [initWork_commits] at h; cases h⟩
  | sleep =>
    simp only [exec, execSleep] at h
    split at h
    · cases h
    · injection h with h
      exact ⟨_, h.symm, rfl, fun h => by cases h⟩
  | setLut fast =>
    injection h with h
    exact ⟨_, h.symm, small _ rfl rfl⟩
  | displayFrame => exact ⟨_, displayFrame_next h⟩
  | displayPartial fast =>
    obtain ⟨h1, h2, -⟩ := displayPartial_next h
    exact ⟨_, h1, h2⟩
  | smartUpdate =>
    simp only [exec, execSmartUpdate] at h
    split at h
    · cases h
    · split at h
      · exact ⟨_, displayFrame_next h⟩
      · split at h
        · cases h
        · split at h
          · injection h with h
            exact ⟨_, h.symm, rfl, fun h => by cases h⟩
          · obtain ⟨h1, h2, -⟩ := displayPartial_next h
            exact ⟨_, h1, h2⟩

/-- What an act of the host that is no request comes to. -/
theorem hostWrite_next {act : HostAct} {s t : State} (h : hostWrite act s = .next t) :
    t = s ∨ (∃ n v, t = s.writeReg n v) ∨ (∃ w h raw, t = s.loadPix w h raw) ∨
      ∃ a raw, t = s.writePix a raw := by
  unfold hostWrite at h
  cases act with
  | request w =>
    injection h with h
    exact .inl h.symm
  | writeReg n v =>
    injection h with h
    exact .inr (.inl ⟨n, v, h.symm⟩)
  | loadPix w h' raw =>
    dsimp only at h
    split at h
    · injection h with h
      exact .inr (.inr (.inl ⟨w, h', raw, h.symm⟩))
    · cases h
  | writePix a raw =>
    dsimp only at h
    split at h
    · injection h with h
      exact .inr (.inr (.inr ⟨a, raw, h.symm⟩))
    · cases h

/-- What a step can do: poll, idle, perform a request, take IllegalRequest, or take an act of the host. -/
theorem step_next {s t : State} (h : step s = .next t) :
    (∃ ws, s.running = some ws ∧ t = runWork ws s) ∨
    (s.running = none ∧ s.host = [] ∧ t = s) ∨
    (∃ w rest i, s.running = none ∧ s.host = .request w :: rest ∧ decode w = .ok i ∧
      exec i { s with host := rest } = .next t) ∨
    (∃ w rest e, s.running = none ∧ s.host = .request w :: rest ∧ decode w = .error e ∧
      t = takeException (.illegalRequest w) { s with host := rest }) ∨
    (∃ act rest, s.running = none ∧ s.host = act :: rest ∧ isRequest act = false ∧
      hostWrite act { s with host := rest } = .next t) := by
  unfold step at h
  split at h
  · rename_i ws hr
    injection h with h
    exact .inl ⟨ws, hr, h.symm⟩
  · rename_i hr
    refine .inr ?_
    split at h
    · rename_i hh
      injection h with h
      exact .inl ⟨hr, hh, h.symm⟩
    · rename_i w rest hh
      refine .inr ?_
      unfold present at h
      split at h
      · rename_i i hd
        exact .inl ⟨w, rest, i, hr, hh, hd, h⟩
      · rename_i e hd
        injection h with h
        exact .inr (.inl ⟨w, rest, e, hr, hh, hd, h.symm⟩)
    · rename_i act rest hn hh
      have ha : isRequest act = false := by
        cases act with
        | request w => exact (hn w rfl).elim
        | writeReg n v => rfl
        | loadPix w h raw => rfl
        | writePix a raw => rfl
      exact .inr (.inr (.inr ⟨act, rest, hr, hh, ha, h⟩))

/-! ### Requests that take several polls -/

theorem step_running {s : State} {ws : List Work} (h : s.running = some ws) :
    step s = .next (runWork ws s) := by
  rw [step, h]

theorem polls_of_not_running {k : Nat} {u t : State} (h : u.running = none) (hp : Polls k u t) : t = u := by
  cases k with
  | zero => exact hp
  | succ k => exact absurd h hp.1

/-- `p` busy readings, then whatever the rest of the request comes to: the polls of a WAIT_IDLE that has
gone round already. -/
theorem polls_of_busy (ws : List Work) (p : Nat) {s : State} {n : Nat}
    (hr : s.running = some (.wait n :: ws)) (hst : s.status = none) (hq : s.Quiet p)
    (hl : ∀ k, k < p → s.env.level k ≠ s.par.idleLevel)
    (hb : boundReached s.waitBound (n + p) = false) {k : Nat} {t : State}
    (h : Polls k
      (holdRequest (.wait (n + p) :: ws)
        (s.afterAll (List.replicate p [Event.rd s.par.busyLevel, .slp 50]).flatten)) t) :
    Polls (p + k) s t := by
  induction p generalizing s n with
  | zero =>
    have hs : holdRequest (.wait (n + 0) :: ws)
        (s.afterAll (List.replicate 0 [Event.rd s.par.busyLevel, .slp 50]).flatten) = s := by
      cases s
      simp only at hr hst
      simp [holdRequest, hr, hst]
    rw [hs] at h
    simpa using h
  | succ p ih =>
    have hb1 : boundReached s.waitBound (n + 1) = false := by
      cases hw : s.waitBound with
      | none => rfl
      | some b =>
        rw [hw] at hb
        simp only [boundReached, decide_eq_false_iff_not, not_le] at hb ⊢
        omega
    have hpoll := pollBusy_busy (hq.mono (by omega)) (hl 0 (by omega)) hb1
    have hstep : step s = .next (holdRequest (.wait (n + 1) :: ws)
        (s.afterAll [.rd s.par.busyLevel, .slp 50])) := by
      rw [step_running hr, runWork_busy (w := .wait n) hpoll]
    have hk : p + 1 + k = p + k + 1 := by omega
    rw [hk]
    refine ⟨by rw [hr]; exact Option.some_ne_none _, _, hstep, ?_⟩
    refine ih rfl rfl ?_ ?_ ?_ ?_
    · rw [quiet_congr (t := holdRequest _ _) (holdRequest_env _ _)]
      exact quiet_afterAll s _ (by simpa [Event.canFail, Nat.add_comm] using hq)
    · intro j hj
      rw [holdRequest_env, afterAll_env, level_advance, holdRequest_par, afterAll_par]
      simpa [Event.isRead, Nat.add_comm] using hl (j + 1) (by omega)
    · simpa [Nat.add_assoc, Nat.add_comm 1 p] using hb
    · have e1 : n + 1 + p = n + (p + 1) := by omega
      rw [e1]
      simpa [List.replicate_succ, holdRequest, afterAll_eq, lastSet, Nat.add_assoc] using h

end Sys2Proof.Machine
end

