-- ==== Sys2Proof/Laws/Commute.lean ====
section
/-! SUPPORT. A line of a request commutes with every change of the state that it neither reads nor
writes: the status and what is left of the request, and LAST for a line that does not use it. -/

namespace Sys2Proof.Machine

/-- The same end, with the state changed. -/
def Res.map (F : State → State) : Res → Res
  | .done s => .done (F s)
  | .raised e s => .raised e (F s)
  | .busy n s => .busy n (F s)

/-- A change of the state that no micro-operation sees. -/
structure OffWire (F : State → State) : Prop where
  env : ∀ s, (F s).env = s.env
  par : ∀ s, (F s).par = s.par
  waitBound : ∀ s, (F s).waitBound = s.waitBound
  fb : ∀ s, (F s).fb = s.fb
  tick : ∀ s n r, F (s.tick n r) = (F s).tick n r
  emit : ∀ s e, F (s.emit e) = (F s).emit e
  latch : ∀ s l v, F (s.latch l v) = (F s).latch l v

/-- The status and what is left of the request are no line's business. -/
theorem offWire_status (a : Option Status) (b : Option (List Work)) :
    OffWire fun s => { s with status := a, running := b } where
  env _ := rfl
  par _ := rfl
  waitBound _ := rfl
  fb _ := rfl
  tick _ _ _ := rfl
  emit _ _ := rfl
  latch _ l _ := by cases l <;> rfl

theorem offWire_last (m : Memory Bool) : OffWire fun s => { s with last := m } where
  env _ := rfl
  par _ := rfl
  waitBound _ := rfl
  fb _ := rfl
  tick _ _ _ := rfl
  emit _ _ := rfl
  latch _ l _ := by cases l <;> rfl

theorem andThen_map {F : State → State} {r : Res} {f : State → Res} (hf : ∀ s, f (F s) = (f s).map F) :
    (r.map F).andThen f = (r.andThen f).map F := by
  cases r with
  | done s => exact hf s
  | raised e s => rfl
  | busy n s => rfl

section
variable {F : State → State} (hF : OffWire F)
include hF

theorem attempt_map (op : MicroOp) {act : State → State} (ha : ∀ s, act (F s) = F (act s)) (s : State) :
    attempt op act (F s) = (attempt op act s).map F := by
  unfold attempt
  rw [hF.env]
  split
  · exact congrArg _ (hF.tick ..).symm
  · rw [ha]
    exact congrArg _ (hF.tick ..).symm

theorem setLine_map (l : OutLine) (v : Level) (s : State) :
    setLine l v (F s) = (setLine l v s).map F :=
  attempt_map hF _ (fun s => by rw [hF.emit, hF.latch]) s

theorem writeByte_map (b : Byte) (s : State) : writeByte b (F s) = (writeByte b s).map F :=
  attempt_map hF _ (fun s => by rw [hF.emit]) s

theorem sleep_map (ms : Nat) (s : State) : sleep ms (F s) = F (sleep ms s) := (hF.emit _ _).symm

theorem sendFrame_map (v : Level) (b : Byte) (s : State) :
    sendFrame v b (F s) = (sendFrame v b s).map F := by
  rw [sendFrame, setLine_map hF, andThen_map (writeByte_map hF b)]
  rfl

theorem sendCommand_map (b : Byte) (s : State) : sendCommand b (F s) = (sendCommand b s).map F := by
  rw [sendCommand, hF.par, sendFrame_map hF]
  rfl

theorem sendData_map (b : Byte) (s : State) : sendData b (F s) = (sendData b s).map F := by
  rw [sendData, hF.par, sendFrame_map hF]
  rfl

theorem sendBlock_map (bs : List Byte) (s : State) : sendBlock bs (F s) = (sendBlock bs s).map F := by
  induction bs generalizing s with
  | nil => rfl
  | cons b bs ih =>
    rw [sendBlock, sendData_map hF, andThen_map ih]
    rfl

theorem sendLutPart_map (fast : Bool) (k : LutKey) (s : State) :
    sendLutPart fast k (F s) = (sendLutPart fast k s).map F := by
  rw [sendLutPart, hF.par, sendCommand_map hF, andThen_map (sendBlock_map hF _)]
  rfl

theorem setLut_map (fast : Bool) (s : State) : setLut fast (F s) = (setLut fast s).map F := by
  have part := fun k => sendLutPart_map hF fast k
  rw [setLut, part, andThen_map]
  · rfl
  · intro s
    rw [part, andThen_map]
    intro s
    rw [part, andThen_map]
    intro s
    rw [part, andThen_map (part .bb)]

theorem pulseReset_map (s : State) : pulseReset (F s) = (pulseReset s).map F := by
  rw [pulseReset, setLine_map hF, andThen_map]
  · rfl
  · intro s
    rw [sleep_map hF, setLine_map hF, andThen_map]
    intro s
    rw [sleep_map hF]
    rfl

theorem pollBusy_map (n : Nat) (s : State) : pollBusy n (F s) = (pollBusy n s).map F := by
  unfold pollBusy readLine
  rw [hF.env]
  split
  · exact congrArg _ (hF.tick ..).symm
  · rw [← hF.emit, ← hF.tick]
    dsimp only
    rw [hF.par, hF.waitBound]
    split
    · rfl
    · split
      · rfl
      · rw [sleep_map hF]
        rfl

/-- A line on the wire. -/
theorem perform_wire_map {w : Work} (h : w.isWire = true) (s : State) :
    w.perform (F s) = (w.perform s).map F := by
  cases w with
  | command b => exact sendCommand_map hF b s
  | data b => exact sendData_map hF b s
  | block bs => exact sendBlock_map hF bs s
  | fbBlock n =>
    have h : (Work.fbBlock n).perform (F s) = sendBlock ((F s).fb.units unlistedByte n) (F s) := rfl
    rw [h, hF.fb]
    exact sendBlock_map hF _ s
  | resetPulse => exact pulseReset_map hF s
  | delay ms => exact congrArg _ (sleep_map hF ms s)
  | wait n => exact pollBusy_map hF n s
  | lut fast => exact setLut_map hF fast s
  | encode => cases h
  | packRegion src x y h' w' => cases h
  | beginInit => cases h
  | endInit => cases h
  | endSleep => cases h
  | commitFrame => cases h
  | commitPartial => cases h

end

theorem perform_status (w : Work) (s : State) (a : Option Status) (b : Option (List Work)) :
    w.perform { s with status := a, running := b } =
      (w.perform s).map fun t => { t with status := a, running := b } := by
  by_cases hw : w.isWire = true
  · exact perform_wire_map (offWire_status a b) hw s
  · cases w <;> simp_all [Work.isWire]
    case encode =>
      by_cases hp : s.panelSized = true
      · rw [encode_done hp]
        exact encode_done hp
      · rw [encode_raised hp]
        exact encode_raised hp
    case packRegion src x y h w => cases src <;> rfl
    all_goals rfl

/-- What a request comes to does not depend on the status before it. -/
theorem runWork_status (ws : List Work) (s : State) (a : Option Status) (b : Option (List Work)) :
    runWork ws { s with status := a, running := b } = runWork ws s := by
  induction ws generalizing s with
  | nil => rfl
  | cons w ws ih =>
    rw [runWork, runWork, perform_status]
    cases w.perform s with
    | done s' => exact ih s'
    | raised e s' => rfl
    | busy n s' => rfl

/-- A line that neither reads nor writes LAST. -/
def Work.offLast : Work → Bool
  | .packRegion .last _ _ _ _ => false
  | .commitFrame => false
  | .commitPartial => false
  | _ => true

theorem perform_last {w : Work} (h : w.offLast = true) (s : State) (m : Memory Bool) :
    w.perform { s with last := m } = (w.perform s).map fun t => { t with last := m } := by
  by_cases hw : w.isWire = true
  · exact perform_wire_map (offWire_last m) hw s
  · cases w <;> simp_all [Work.isWire, Work.offLast]
    case encode =>
      by_cases hp : s.panelSized = true
      · rw [encode_done hp]
        exact encode_done hp
      · rw [encode_raised hp]
        exact encode_raised hp
    case packRegion src x y h' w =>
      cases src
      · rfl
      · simp at h
    all_goals rfl

/-! ### Runs that do not read LAST -/

/-- Lines none of which uses LAST, but for the commit of a DISPLAY_FRAME at their end. -/
def LastUnread (ws : List Work) : Prop :=
  ∃ pre tl, ws = pre ++ tl ∧ (∀ w ∈ pre, w.offLast = true) ∧ (tl = [] ∨ tl = [Work.commitFrame])

theorem perform_offLast_haveLast {w : Work} (h : w.offLast = true) (s : State) :
    (w.perform s).All fun t => t.haveLast = s.haveLast := by
  rcases hw : w.perform s with s' | ⟨e, s'⟩ | ⟨n, s'⟩
  · by_cases hp : w.plain = true
    · exact (perform_plain hp hw).haveLast
    · cases w <;> first | exact (hp rfl).elim | (cases hw; rfl) | cases h
  · exact (ControlKept.of_wireOnly (perform_raised hw)).haveLast
  · exact (ControlKept.of_wireOnly (perform_busy hw)).haveLast

/-- Such lines, started with HAVE_LAST at 0, give the same for any LAST: up to LAST itself while HAVE_LAST
stays 0, and exactly the same once it is set, which ends the request. -/
theorem runWork_lastUnread {ws : List Work} (h : LastUnread ws) {s : State} (hs : s.haveLast = false)
    (m : Memory Bool) :
    ((runWork ws s).haveLast = true ∧ (runWork ws s).running = none ∧
      runWork ws { s with last := m } = runWork ws s) ∨
    ((runWork ws s).haveLast = false ∧
      runWork ws { s with last := m } = { runWork ws s with last := m } ∧
      ∀ ws', (runWork ws s).running = some ws' → LastUnread ws') := by
  obtain ⟨pre, tl, rfl, hpre, htl⟩ := h
  induction pre generalizing s with
  | nil =>
    rcases htl with rfl | rfl
    · exact .inr ⟨hs, rfl, fun _ h => by cases h⟩
    · exact .inl ⟨rfl, rfl, rfl⟩
  | cons w pre ih =>
    have hw := hpre w (List.mem_cons_self ..)
    have hrest : ∀ w ∈ pre, w.offLast = true := fun w h => hpre w (List.mem_cons_of_mem _ h)
    have hl := perform_last hw s m
    have hh := perform_offLast_haveLast hw s
    rw [List.cons_append]
    rcases hp : w.perform s with s' | ⟨e, s'⟩ | ⟨n, s'⟩ <;> rw [hp] at hl hh
    · rw [runWork_done hl, runWork_done hp]
      exact ih (Eq.trans hh hs) hrest
    · rw [runWork_raised hl, runWork_raised hp]
      exact .inr ⟨Eq.trans hh hs, rfl, fun _ h => by cases h⟩
    · rw [runWork_busy hl, runWork_busy hp]
      refine .inr ⟨Eq.trans hh hs, rfl, fun ws' h => ?_⟩
      cases h
      exact ⟨.wait n :: pre, tl, rfl, fun w h => by
        rcases List.mem_cons.1 h with rfl | h
        · rfl
        · exact hrest w h, htl⟩

/-- The same over any number of polls. -/
theorem polls_lastUnread {k : Nat} {s t : State} (hs : s.haveLast = false)
    (hr : ∀ ws, s.running = some ws → LastUnread ws) (m : Memory Bool) (h : Polls k s t) :
    (t.haveLast = true ∧ Polls k { s with last := m } t) ∨
      (t.haveLast = false ∧ Polls k { s with last := m } { t with last := m }) := by
  induction k generalizing s with
  | zero =>
    obtain rfl : t = s := h
    exact .inr ⟨hs, rfl⟩
  | succ k ih =>
    obtain ⟨hn, u, hu, hk⟩ := h
    obtain ⟨ws, hws⟩ := Option.ne_none_iff_exists'.1 hn
    rw [step_running hws] at hu
    injection hu with hu
    have hstep : step { s with last := m } = .next (runWork ws { s with last := m }) := step_running hws
    subst hu
    rcases runWork_lastUnread (hr ws hws) hs m with ⟨h1, h2, h3⟩ | ⟨h1, h2, h3⟩
    · rw [h3] at hstep
      obtain rfl := polls_of_not_running h2 hk
      exact .inl ⟨h1, hn, _, hstep, hk⟩
    · rw [h2] at hstep
      rcases ih h1 h3 hk with ⟨h4, h5⟩ | ⟨h4, h5⟩
      · exact .inl ⟨h4, hn, _, hstep, h5⟩
      · exact .inr ⟨h4, hn, _, hstep, h5⟩

/-! ### The poll loop to its end -/

/-- A request whose next line is a WAIT_IDLE: `p` busy readings and an idle one, and it goes on. -/
theorem polls_wait (ws : List Work) (p : Nat) {s : State} (hq : s.Quiet (p + 1)) (hi : s.IdleAfter p)
    (hb : boundReached s.waitBound p = false) {k : Nat} {t : State}
    (h : Polls k (runWork ws (s.afterAll (pollEvents s.par p))) t) :
    Polls (p + k) (runWork (.wait 0 :: ws) s) t := by
  set es := (List.replicate p [Event.rd s.par.busyLevel, .slp 50]).flatten with hes
  have hm : microOps es = p := by
    rw [hes]
    clear * -
    induction p with
    | zero => rfl
    | succ p ih => simp [List.replicate_succ, ih, Event.canFail, Nat.add_comm]
  have hr : busyReads es = p := by
    rw [hes]
    clear * -
    induction p with
    | zero => rfl
    | succ p ih => simp [List.replicate_succ, ih, Event.isRead, Nat.add_comm]
  set s₀ := holdRequest (.wait 0 :: ws) s with hs₀
  have hstep₀ : step s₀ = .next (runWork (.wait 0 :: ws) s) := by
    rw [step_running (s := s₀) rfl]
    exact congrArg _ (runWork_status _ s none _)
  set s₁ := holdRequest (.wait (0 + p) :: ws) (s₀.afterAll es) with hs₁
  have hq₁ : s₁.Quiet 1 := by
    rw [quiet_congr (t := s₁) (s := s₀.afterAll es) rfl]
    refine quiet_afterAll s₀ es ?_
    rw [hm]
    exact hq
  have hl₁ : s₁.env.level 0 = s₁.par.idleLevel := by
    rw [hs₁, holdRequest_env, afterAll_env, level_advance, hr, holdRequest_par, afterAll_par]
    exact hi.2
  have hstep₁ : step s₁ = .next (runWork ws (s.afterAll (pollEvents s.par p))) := by
    rw [step_running (s := s₁) rfl, runWork_done (w := .wait (0 + p)) (pollBusy_idle hq₁ hl₁ _)]
    have : s₁.afterAll [.rd s₁.par.idleLevel] =
        { s.afterAll (pollEvents s.par p) with status := none, running := some (.wait (0 + p) :: ws) } := by
      simp [hs₁, hs₀, holdRequest, pollEvents, ← hes, afterAll_eq, lastSet_append]
    rw [this]
    exact congrArg _ (runWork_status ..)
  have hall : Polls (p + (k + 1)) s₀ t := by
    refine polls_of_busy ws p (s := s₀) (n := 0) rfl rfl ?_ ?_ ?_ ?_
    · exact hq.mono (by omega)
    · exact hi.1
    · rwa [Nat.zero_add]
    · exact ⟨Option.some_ne_none _, _, hstep₁, h⟩
  rw [show p + (k + 1) = p + k + 1 by omega] at hall
  obtain ⟨-, u, hu, hk⟩ := hall
  rw [hstep₀] at hu
  injection hu with hu
  rwa [hu]

end Sys2Proof.Machine
end

