-- ==== Sys2Proof/Laws/Decode.lean ====
section
/-! SUPPORT. The two fields of a request word, and what the two operand checks of the decoder answer. -/

namespace Sys2Proof

@[simp] theorem opField_append (op imm : Byte) : opField (op ++ imm) = op := by
  apply BitVec.eq_of_getLsbD_eq
  intro i hi
  simp only [opField, BitVec.getLsbD_extractLsb', BitVec.getLsbD_append]
  rw [if_neg (by omega)]
  simp [hi]

@[simp] theorem immField_append (op imm : Byte) : immField (op ++ imm) = imm := by
  apply BitVec.eq_of_getLsbD_eq
  intro i hi
  simp only [immField, BitVec.getLsbD_extractLsb', BitVec.getLsbD_append]
  rw [if_pos (by omega)]
  simp [hi]

/-- A request word is its two fields (R61). -/
theorem opField_append_immField (w : Word) : opField w ++ immField w = w := by
  apply BitVec.eq_of_getLsbD_eq
  intro i hi
  simp only [opField, immField, BitVec.getLsbD_append, BitVec.getLsbD_extractLsb']
  split
  · simp_all
  · have h1 : 8 + (i - 8) = i := by omega
    have h2 : i - 8 < 8 := by omega
    simp [h1, h2]

theorem decodePlain_ok {op imm : Byte} {i j : Instr} (h : decodePlain op imm i = .ok j) :
    j = i ∧ imm = 0#8 := by
  unfold decodePlain at h
  split at h
  · injection h with h
    exact ⟨h.symm, ‹_›⟩
  · cases h

theorem decodeFlag_ok {op imm : Byte} {f : Bool → Instr} {j : Instr}
    (h : decodeFlag op imm f = .ok j) : ∃ b, j = f b ∧ imm = flagByte b := by
  unfold decodeFlag at h
  split at h
  · injection h with h
    exact ⟨false, h.symm, ‹_›⟩
  · split at h
    · injection h with h
      exact ⟨true, h.symm, ‹_›⟩
    · cases h

end Sys2Proof
end

