-- ==== Sys2Proof/Laws/Fragments.lean ====
section
/-! SUPPORT. The trace fragments of the spec: how many micro-operations and readings of BUSY each has,
the latches after it, and the runs of lines that append it. -/

namespace Sys2Proof.Machine

/-! ### The poll loop -/

theorem microOps_busy (v : Level) (n : Nat) :
    microOps (List.replicate n [Event.rd v, .slp 50]).flatten = n := by
  induction n with
  | zero => rfl
  | succ n ih =>
    simp [List.replicate_succ, Event.canFail, ih]
    omega

theorem busyReads_busy (v : Level) (n : Nat) :
    busyReads (List.replicate n [Event.rd v, .slp 50]).flatten = n := by
  induction n with
  | zero => rfl
  | succ n ih =>
    simp [List.replicate_succ, Event.isRead, ih]
    omega

theorem lastSet_busy (l : OutLine) (o : Option Level) (v : Level) (n : Nat) :
    lastSet l o (List.replicate n [Event.rd v, .slp 50]).flatten = o := by
  induction n with
  | zero => rfl
  | succ n ih => simpa [List.replicate_succ, lastSet] using ih

@[simp] theorem microOps_pollEvents (p : Params) (n : Nat) : microOps (pollEvents p n) = n + 1 := by
  simp [pollEvents, microOps_busy, Event.canFail]

@[simp] theorem busyReads_pollEvents (p : Params) (n : Nat) : busyReads (pollEvents p n) = n + 1 := by
  simp [pollEvents, busyReads_busy, Event.isRead]

@[simp] theorem lastSet_pollEvents (l : OutLine) (o : Option Level) (p : Params) (n : Nat) :
    lastSet l o (pollEvents p n) = o := by
  rw [pollEvents, lastSet_append, lastSet_busy]
  rfl

/-- The first poll of a WAIT_IDLE is like a poll of a request that runs. -/
theorem polls_held {ws : List Work} {s t : State} {k : Nat}
    (h : Polls (k + 1) (holdRequest (.wait 0 :: ws) s) t) : Polls k (runWork (.wait 0 :: ws) s) t := by
  obtain ⟨-, u, hu, hk⟩ := h
  rw [step_running (s := holdRequest (.wait 0 :: ws) s) rfl,
    show runWork (.wait 0 :: ws) (holdRequest (.wait 0 :: ws) s) = _ from runWork_status _ s none _] at hu
  injection hu with hu
  rwa [hu]

/-! ### Frames and tables -/

@[simp] theorem lastSet_commandEvents_rst (o : Option Level) (p : Params) (b : Byte) :
    lastSet .rst o (commandEvents p b) = o := rfl

@[simp] theorem lastSet_commandEvents_dc (o : Option Level) (p : Params) (b : Byte) :
    lastSet .dc o (commandEvents p b) = some p.cmdLevel := rfl

@[simp] theorem lastSet_blockEvents_rst (o : Option Level) (p : Params) (bs : List Byte) :
    lastSet .rst o (blockEvents p bs) = o := by
  induction bs with
  | nil => rfl
  | cons b bs ih => simp [dataEvents, lastSet, ih]

theorem lastSet_blockEvents_dc (o : Option Level) (p : Params) (bs : List Byte) :
    lastSet .dc o (blockEvents p bs) = if bs = [] then o else some p.dataLevel := by
  induction bs generalizing o with
  | nil => rfl
  | cons b bs ih => simp [dataEvents, lastSet, ih]

@[simp] theorem microOps_lutEvents (p : Params) (fast : Bool) :
    microOps (lutEvents p fast) = 10 + 2 * lutBytes p fast := by
  simp only [lutEvents, lutPartEvents, microOps_append, microOps_commandEvents, microOps_blockEvents,
    lutBytes, Lut.at]
  omega

@[simp] theorem busyReads_lutEvents (p : Params) (fast : Bool) : busyReads (lutEvents p fast) = 0 := by
  simp [lutEvents, lutPartEvents]

@[simp] theorem lastSet_lutEvents_rst (o : Option Level) (p : Params) (fast : Bool) :
    lastSet .rst o (lutEvents p fast) = o := by
  simp [lutEvents, lutPartEvents, lastSet_append]

@[simp] theorem lastSet_lutEvents_dc (o : Option Level) (p : Params) (fast : Bool) :
    lastSet .dc o (lutEvents p fast) = some (lutLastLevel p fast) := by
  simp only [lutEvents, lutPartEvents, lastSet_append, lastSet_blockEvents_dc, lastSet_commandEvents_dc,
    lutLastLevel, Lut.at]
  split <;> rfl

/-! ### Lines after a fragment that succeeded -/

section After
variable {s : State} {es : List Event} {ws : List Work}

theorem command_after (b : Byte) (h : s.Quiet (microOps es + 2)) :
    runWork (.command b :: ws) (s.afterAll es) = runWork ws (s.afterAll (es ++ commandEvents s.par b)) := by
  rw [runWork_done (w := .command b) (sendCommand_done (quiet_afterAll s es h) b)]
  simp

theorem block_after (bs : List Byte) (h : s.Quiet (microOps es + 2 * bs.length)) :
    runWork (.block bs :: ws) (s.afterAll es) = runWork ws (s.afterAll (es ++ blockEvents s.par bs)) := by
  rw [runWork_done (w := .block bs) (sendBlock_done bs (quiet_afterAll s es h))]
  simp

/-- The bytes of FB that a line sends are `bs` when they were just written there. -/
theorem fbBlock_after {bs : List Byte} {n : Nat} (hn : bs.length = n)
    (hfb : s.fb.units unlistedByte n = bs) (h : s.Quiet (microOps es + 2 * n)) :
    runWork (.fbBlock n :: ws) (s.afterAll es) = runWork ws (s.afterAll (es ++ blockEvents s.par bs)) := by
  have hw : (Work.fbBlock n).perform (s.afterAll es) =
      sendBlock ((s.afterAll es).fb.units unlistedByte n) (s.afterAll es) := rfl
  rw [runWork, hw, afterAll_fb, hfb, sendBlock_done bs (quiet_afterAll s es (hn ▸ h))]
  simp

theorem lut_after (fast : Bool) (h : s.Quiet (microOps es + microOps (lutEvents s.par fast))) :
    runWork (.lut fast :: ws) (s.afterAll es) = runWork ws (s.afterAll (es ++ lutEvents s.par fast)) := by
  have hq : (s.afterAll es).Quiet (microOps (lutEvents (s.afterAll es).par fast)) :=
    quiet_afterAll s es (by simpa using h)
  rw [runWork_done (w := .lut fast) (setLut_done fast hq)]
  simp

theorem encode_after (h : s.panelSized = true) :
    runWork (.encode :: ws) (s.afterAll es) =
      runWork ws ((s.putFb (pack (s.pixel .pix) panelRegion)).afterAll es) := by
  have hp : (s.afterAll es).panelSized = true := by simpa [State.panelSized] using h
  have hf : (s.afterAll es).pixel .pix = s.pixel .pix := by
    funext x y
    simp [State.pixel, State.srcMem, State.srcWidth]
  rw [runWork_done (encode_done hp), hf]
  simp [afterAll_eq, State.putFb]

theorem packRegion_after (src : Source) (x y h w : Nat) :
    runWork (.packRegion src x y h w :: ws) (s.afterAll es) =
      runWork ws ((s.putFb (pack (s.pixel src) ⟨x, y, h, w⟩)).afterAll es) := by
  have hf : (s.afterAll es).pixel src = s.pixel src := by
    funext x y
    cases src <;> simp [State.pixel, State.srcMem, State.srcWidth]
  rw [runWork_done (w := .packRegion src x y h w) rfl, hf]
  simp [afterAll_eq, State.putFb]

end After

theorem quiet_putFb {s : State} {n : Nat} (buf : List Byte) (h : s.Quiet n) : (s.putFb buf).Quiet n :=
  (quiet_congr (s := s) (t := s.putFb buf) rfl n).2 h

/-- What was just written to FB is what a line sends from there. -/
theorem putFb_units (s : State) (buf : List Byte) :
    (s.putFb buf).fb.units unlistedByte buf.length = buf := units_writeFront s.fb buf

@[simp] theorem putFb_pixel (s : State) (buf : List Byte) (src : Source) :
    (s.putFb buf).pixel src = s.pixel src := by
  funext x y
  cases src <;> rfl

/-! ### INIT -/

/-- The script whose Wait items read idle at once, when nothing fails (R100). -/
theorem runWork_script (p : Params) (items : List ScriptItem) {ws : List Work} {s : State}
    (hp : s.par = p) (hq : s.Quiet (microOps (items.flatMap (scriptItemEvents p))))
    (hi : s.IdleFor (busyReads (items.flatMap (scriptItemEvents p)))) :
    runWork (items.map scriptWork ++ ws) s =
      runWork ws (s.afterAll (items.flatMap (scriptItemEvents p))) := by
  induction items generalizing s with
  | nil => rfl
  | cons i items ih =>
    simp only [List.flatMap_cons, microOps_append, busyReads_append, List.map_cons, List.cons_append,
      afterAll_append] at *
    have h : (scriptWork i).perform s = .done (s.afterAll (scriptItemEvents p i)) := by
      subst hp
      cases i with
      | cmd b => exact sendCommand_done (hq.mono (by simp [scriptItemEvents])) b
      | dat b => exact sendData_done (hq.mono (by simp [scriptItemEvents])) b
      | delay ms => rfl
      | wait =>
        exact pollBusy_idle (hq.mono (by simp [scriptItemEvents, Event.canFail]))
          (hi 0 (by simp [scriptItemEvents, Event.isRead])) 0
    rw [runWork_done h]
    refine ih (by simpa using hp) (quiet_afterAll _ _ hq) ?_
    intro k hk
    rw [afterAll_env, level_advance, afterAll_par]
    exact hi _ (by omega)

@[simp] theorem microOps_resetEvents : microOps resetEvents = 2 := rfl

@[simp] theorem busyReads_resetEvents : busyReads resetEvents = 0 := rfl

/-- INIT, and what follows it, when nothing fails and its Wait items read idle at once (R101). -/
theorem runWork_init {ws : List Work} {s : State} (hq : s.Quiet (microOps (initEvents s.par)))
    (hi : s.IdleFor (busyReads (initEvents s.par))) :
    runWork (initWork s.par ++ ws) s =
      runWork ws { s.afterAll (initEvents s.par) with lifecycle := .ready } := by
  simp only [initWork, List.append_assoc, List.cons_append, List.nil_append]
  rw [runWork_done (w := .beginInit) rfl]
  simp only [initEvents, microOps_append, busyReads_append, microOps_resetEvents,
    busyReads_resetEvents] at hq hi
  rw [runWork_done (w := .resetPulse)
    (pulseReset_done ((quiet_congr (s := s) (t := s.setLifecycle .initializing) rfl 2).2 (hq.mono (by omega))))]
  rw [runWork_script s.par s.par.initScript (by simp)]
  · rw [runWork_done (w := .lut false) (setLut_done _ ?_), runWork_done (w := .endInit) rfl]
    · simp only [initEvents, afterAll_append, setLifecycle_par, afterAll_par]
      congr 1
      simp [afterAll_eq, State.setLifecycle]
    · simp only [← afterAll_append, afterAll_par, setLifecycle_par]
      refine quiet_afterAll _ _ ?_
      exact (quiet_congr (s := s) (t := s.setLifecycle .initializing) rfl _).2 (by simpa using hq)
  · exact quiet_afterAll _ _ ((quiet_congr (s := s) (t := s.setLifecycle .initializing) rfl _).2 (hq.mono (by rw [microOps_resetEvents]; omega)))
  · intro k hk
    rw [afterAll_env, level_advance, afterAll_par, busyReads_resetEvents]
    exact hi _ (by omega)

@[simp] theorem lastSet_script_rst (o : Option Level) (p : Params) (items : List ScriptItem) :
    lastSet .rst o (items.flatMap (scriptItemEvents p)) = o := by
  induction items with
  | nil => rfl
  | cons i items ih =>
    rw [List.flatMap_cons, lastSet_append]
    cases i <;> simp [scriptItemEvents, commandEvents, dataEvents, lastSet, ih]

@[simp] theorem lastSet_initEvents_rst (o : Option Level) (p : Params) :
    lastSet .rst o (initEvents p) = some .high := by
  simp [initEvents, lastSet_append, resetEvents, lastSet]

@[simp] theorem lastSet_initEvents_dc (o : Option Level) (p : Params) :
    lastSet .dc o (initEvents p) = some (lutLastLevel p false) := by
  simp [initEvents, lastSet_append]

end Sys2Proof.Machine
end

