-- ==== Sys2Proof/Laws/Ends.lean ====
section
/-! SUPPORT. How a request ends, after however many polls: a run of lines is taken apart line by line, and
stretch by stretch. -/

namespace Sys2Proof.Machine

/-- The lines `ws`, started in `s`, have come to their completion or their exception in `t`. -/
def EndsRun (ws : List Work) (s t : State) : Prop := ∃ k, Polls k (runWork ws s) t ∧ t.running = none

theorem ends_iff {i : Instr} {s s₀ t : State} {ws : List Work} (h : exec i s = .next (runWork ws s₀)) :
    Ends i s t ↔ EndsRun ws s₀ t := by
  unfold Ends EndsRun
  rw [h]
  constructor
  · rintro ⟨u, k, hu, hk, ht⟩
    injection hu with hu
    exact ⟨k, hu ▸ hk, ht⟩
  · rintro ⟨k, hk, ht⟩
    exact ⟨_, k, rfl, hk, ht⟩

/-- A request that ends was not refused. -/
theorem exec_of_ends {i : Instr} {s t : State} (h : Ends i s t) : ∃ u, exec i s = .next u := by
  obtain ⟨u, -, hu, -⟩ := h
  exact ⟨u, hu⟩

theorem endsRun_nil {s t : State} : EndsRun [] s t ↔ t = complete s := by
  constructor
  · rintro ⟨k, hk, -⟩
    exact polls_of_not_running rfl hk
  · rintro rfl
    exact ⟨0, rfl, rfl⟩

theorem endsRun_done {w : Work} {ws : List Work} {s s' t : State} (h : w.perform s = .done s') :
    EndsRun (w :: ws) s t ↔ EndsRun ws s' t := by
  rw [EndsRun, runWork_done h, EndsRun]

theorem endsRun_raised {w : Work} {ws : List Work} {s s' t : State} {e : Exc}
    (h : w.perform s = .raised e s') : EndsRun (w :: ws) s t ↔ t = takeException e s' := by
  rw [EndsRun, runWork_raised h]
  constructor
  · rintro ⟨k, hk, -⟩
    exact polls_of_not_running rfl hk
  · rintro rfl
    exact ⟨0, rfl, rfl⟩

/-- A poll of a held request goes on as if it had not been held. -/
theorem polls_of_held {ws : List Work} {s t : State} {k : Nat} (h : Polls k (holdRequest ws s) t)
    (ht : t.running = none) : ∃ k', k = k' + 1 ∧ Polls k' (runWork ws s) t := by
  cases k with
  | zero =>
    rw [show t = _ from h] at ht
    cases ht
  | succ k =>
    obtain ⟨-, u, hu, hk⟩ := h
    rw [step_running (s := holdRequest ws s) rfl,
      show runWork ws (holdRequest ws s) = _ from runWork_status ws s none (some ws)] at hu
    injection hu with hu
    exact ⟨k, rfl, hu ▸ hk⟩

/-- `A` holds of the state a line comes to, or `B` of the exception it raises and the state there. -/
def Res.Post (A : State → Prop) (B : Exc → State → Prop) : Res → Prop
  | .done s => A s
  | .raised e s => B e s
  | .busy _ s => A s

/-- A stretch of lines of a kind `c` that keeps `A` ends in an exception of `B`, or is done with `A`
kept and the rest ends. -/
theorem endsRun_append {A : State → Prop} {B : Exc → State → Prop} {c : Work → Bool}
    (hwait : ∀ n, c (.wait n) = true)
    (hline : ∀ w s, c w = true → A s → (w.perform s).Post A B) {pre ws : List Work}
    (hpre : pre.all c = true) {s t : State} (hs : A s) (h : EndsRun (pre ++ ws) s t) :
    (∃ e u, t = takeException e u ∧ B e u) ∨ ∃ u, A u ∧ EndsRun ws u t := by
  obtain ⟨k, hk, ht⟩ := h
  induction k using Nat.strong_induction_on generalizing pre s with
  | _ k ih =>
    induction pre generalizing s with
    | nil => exact .inr ⟨s, hs, k, hk, ht⟩
    | cons w pre ihp =>
      simp only [List.all_cons, Bool.and_eq_true] at hpre
      have hl := hline w s hpre.1 hs
      rw [List.cons_append] at hk
      rcases hw : w.perform s with s' | ⟨e, s'⟩ | ⟨n, s'⟩ <;> rw [hw] at hl
      · rw [runWork_done hw] at hk
        exact ihp hpre.2 hl hk
      · rw [runWork_raised hw] at hk
        exact .inl ⟨e, s', polls_of_not_running rfl hk, hl⟩
      · rw [runWork_busy hw] at hk
        obtain ⟨k', rfl, hk'⟩ := polls_of_held hk ht
        exact ih k' (by omega) (pre := .wait n :: pre) (by simp [hwait, hpre.2]) hl hk'

/-- A stretch of plain lines: LIFECYCLE and the cache are kept, whether an exception ends it or not. -/
theorem endsRun_plain {pre ws : List Work} (hpre : pre.all Work.plain = true) {s t : State}
    (h : EndsRun (pre ++ ws) s t) :
    (∃ e u, t = takeException e u ∧ ControlKept s u) ∨ ∃ u, ControlKept s u ∧ EndsRun ws u t := by
  refine endsRun_append (A := ControlKept s) (B := fun _ => ControlKept s) (c := Work.plain)
    (fun _ => rfl) ?_ hpre (.refl s) h
  intro w u hw hu
  rcases hp : w.perform u with u' | ⟨e, u'⟩ | ⟨n, u'⟩
  · exact hu.trans (perform_plain hw hp)
  · exact hu.trans (.of_wireOnly (perform_raised hp))
  · exact hu.trans (.of_wireOnly (perform_busy hp))

/-- A stretch of lines on the wire: only the latches, the trace and the environment change. -/
theorem endsRun_wire {pre ws : List Work} (hpre : pre.all Work.isWire = true) {s t : State}
    (h : EndsRun (pre ++ ws) s t) :
    (∃ e u, t = takeException e u ∧ WireOnly s u) ∨ ∃ u, WireOnly s u ∧ EndsRun ws u t := by
  refine endsRun_append (A := WireOnly s) (B := fun _ => WireOnly s) (c := Work.isWire)
    (fun _ => rfl) ?_ hpre (.refl s) h
  intro w u hw hu
  have hl := perform_wire hw u
  rcases hp : w.perform u with u' | ⟨e, u'⟩ | ⟨n, u'⟩ <;> rw [hp] at hl <;> exact hu.trans hl

/-- INIT is its first line, a stretch of lines on the wire, and its last line. -/
theorem initWork_eq (p : Params) : ∃ pre, pre.all Work.isWire = true ∧ pre.all Work.plain = true ∧
    initWork p = .beginInit :: (pre ++ [.endInit]) := by
  have hw : ∀ i, (scriptWork i).isWire = true := by
    intro i
    cases i <;> rfl
  have hp : ∀ i, (scriptWork i).plain = true := by
    intro i
    cases i <;> rfl
  refine ⟨.resetPulse :: p.initScript.map scriptWork ++ [.lut false], ?_, ?_, by simp [initWork]⟩
  · simp only [List.all_append, List.all_cons, List.all_map, List.all_nil, Bool.and_eq_true,
      List.all_eq_true, Function.comp_apply]
    exact ⟨⟨rfl, fun i _ => hw i⟩, rfl, trivial⟩
  · simp only [List.all_append, List.all_cons, List.all_map, List.all_nil, Bool.and_eq_true,
      List.all_eq_true, Function.comp_apply]
    exact ⟨⟨rfl, fun i _ => hp i⟩, rfl, trivial⟩

/-- The ends of an INIT and of what follows it: an exception in Initializing, or Ready; the cache is kept
in both. -/
theorem endsRun_init {p : Params} {ws : List Work} {s t : State} (h : EndsRun (initWork p ++ ws) s t) :
    (∃ e u, t = takeException e u ∧ ControlKept (s.setLifecycle .initializing) u) ∨
      ∃ u, ControlKept (s.setLifecycle .ready) u ∧ EndsRun ws u t := by
  obtain ⟨pre, -, hpre, he⟩ := initWork_eq p
  rw [he, List.cons_append, endsRun_done (w := .beginInit) rfl, List.append_assoc] at h
  rcases endsRun_plain hpre h with h | ⟨u, hu, h⟩
  · exact .inl h
  · rw [List.singleton_append, endsRun_done (w := .endInit) rfl] at h
    exact .inr ⟨u.setLifecycle .ready, ⟨⟨hu.regs, hu.cfgLimit, hu.cfgFast, hu.pix, hu.par, hu.waitBound, hu.host⟩,
      hu.err, rfl, hu.last, hu.haveLast, hu.count⟩, h⟩

/-- The ends of DISPLAY_FRAME's own lines: an exception with LIFECYCLE and the cache kept, or the commit
of an image of the panel's size. -/
theorem endsRun_frame {p : Params} {s t : State} (h : EndsRun (frameWork p) s t) :
    (∃ e u, t = takeException e u ∧ ControlKept s u) ∨
      ∃ u, ControlKept s u ∧ s.panelSized = true ∧ t = complete (u.commit 0) := by
  have he : frameWork p = [.lut false] ++ .encode :: ((frameWork p).drop 2).dropLast ++ [.commitFrame] := rfl
  rw [he, List.append_assoc] at h
  rcases endsRun_plain (by rfl) h with h | ⟨u, hu, h⟩
  · exact .inl h
  have hs : u.panelSized = s.panelSized := by rw [State.panelSized, hu.regs, State.panelSized]
  by_cases hp : u.panelSized = true
  · rw [List.cons_append, endsRun_done (encode_done hp)] at h
    rcases endsRun_plain (by rfl) h with ⟨e, v, ht, hv⟩ | ⟨v, hv, h⟩
    · exact .inl ⟨e, v, ht, hu.trans ((keeps_control_putFb u _).trans hv)⟩
    · rw [endsRun_done (w := .commitFrame) rfl, endsRun_nil] at h
      exact .inr ⟨v, hu.trans ((keeps_control_putFb u _).trans hv), hs ▸ hp, h⟩
  · rw [List.cons_append, endsRun_raised (encode_raised hp)] at h
    exact .inl ⟨_, u, h, hu⟩

/-- The ends of DISPLAY_PARTIAL's lines, likewise. -/
theorem endsRun_partial {p : Params} {fast : Bool} {r : Region} {s t : State}
    (h : EndsRun (partialWork p fast r) s t) :
    (∃ e u, t = takeException e u ∧ ControlKept s u) ∨
      ∃ u, ControlKept s u ∧ t = complete (u.commit (u.count + 1)) := by
  have he : ∃ pre, pre.all Work.plain = true ∧ partialWork p fast r = pre ++ [.commitPartial] := by
    cases fast <;> exact ⟨_, rfl, rfl⟩
  obtain ⟨pre, hpre, he⟩ := he
  rw [he] at h
  rcases endsRun_plain hpre h with h | ⟨u, hu, h⟩
  · exact .inl h
  · rw [endsRun_done (w := .commitPartial) rfl, endsRun_nil] at h
    exact .inr ⟨u, hu, h⟩

/-! ### The display requests -/

theorem displayFrame_run {s u : State} (h : displayFrame s = .next u) :
    displayFrame s = .next (runWork (displayFrameWork s) s) := by
  rw [h, (displayFrame_next h).1]

theorem displayPartial_run {fast : Bool} {r : Region} {s u : State}
    (h : displayPartial fast r s = .next u) :
    displayPartial fast r s = .next (runWork (partialWork s.par fast r.aligned) s) := by
  rw [h, (displayPartial_next h).1]

/-- The ends of DISPLAY_FRAME: from Ready, or from Uninitialized through its INIT. -/
theorem displayFrame_ends {s t u : State} (h : displayFrame s = .next u)
    (he : EndsRun (displayFrameWork s) s t) :
    (s.lifecycle = .ready ∧
      ((∃ e v, t = takeException e v ∧ ControlKept s v) ∨
        ∃ v, ControlKept s v ∧ s.panelSized = true ∧ t = complete (v.commit 0))) ∨
    (s.lifecycle = .uninitialized ∧
      ((∃ e v, t = takeException e v ∧ (ControlKept (s.setLifecycle .initializing) v ∨
          ControlKept (s.setLifecycle .ready) v)) ∨
        ∃ v, ControlKept (s.setLifecycle .ready) v ∧ s.panelSized = true ∧
          t = complete (v.commit 0))) := by
  unfold displayFrame at h
  split at h
  · cases h
  · rename_i hl
    unfold displayFrameWork at he
    split at he
    · refine .inr ⟨‹_›, ?_⟩
      rcases endsRun_init he with ⟨e, v, h1, h2⟩ | ⟨v, h1, h2⟩
      · exact .inl ⟨e, v, h1, .inl h2⟩
      · rcases endsRun_frame h2 with ⟨e, v', h3, h4⟩ | ⟨v', h3, hp, h4⟩
        · exact .inl ⟨e, v', h3, .inr (h1.trans h4)⟩
        · refine .inr ⟨v', h1.trans h3, ?_, h4⟩
          rwa [State.panelSized, h1.regs] at hp
    · refine .inl ⟨?_, endsRun_frame he⟩
      cases hs : s.lifecycle <;> simp_all [Lifecycle.displayRefused]

/-- The three branches of SMART_UPDATE, for one that was not refused (R131). -/
theorem smartUpdate_ends {s t : State} (h : Ends .smartUpdate s t) :
    ((s.haveLast = false ∨ s.count = s.cfgLimit) ∧ (∃ u, displayFrame s = .next u) ∧
      EndsRun (displayFrameWork s) s t) ∨
    (s.haveLast = true ∧ s.count ≠ s.cfgLimit ∧ s.panelSized = true ∧ s.diff = none ∧
      s.lifecycle.displayRefused = false ∧ t = complete s) ∨
    ∃ b u, s.haveLast = true ∧ s.count ≠ s.cfgLimit ∧ s.panelSized = true ∧ s.diff = some b ∧
      s.lifecycle = .ready ∧ displayPartial (s.eligible b) b.rect s = .next u ∧
      EndsRun (partialWork s.par (s.eligible b) b.rect.aligned) s t := by
  obtain ⟨u, hu⟩ := exec_of_ends h
  by_cases h0 : s.lifecycle.displayRefused = true
  · simp [exec, execSmartUpdate, h0] at hu
  by_cases h1 : s.haveLast = false ∨ s.count = s.cfgLimit
  · have he : exec .smartUpdate s = displayFrame s := by simp [exec, execSmartUpdate, h0, h1]
    rw [he] at hu
    exact .inl ⟨h1, ⟨u, hu⟩, (ends_iff (he.trans (displayFrame_run hu))).1 h⟩
  by_cases h2 : s.panelSized = false
  · simp [exec, execSmartUpdate, h0, h1, h2] at hu
  have h3 : s.haveLast = true ∧ s.count ≠ s.cfgLimit := by simpa using h1
  have h4 : s.panelSized = true := by simpa using h2
  refine .inr ?_
  cases hd : s.diff with
  | none =>
    have he : exec .smartUpdate s = .next (runWork [] s) := by
      simp [exec, execSmartUpdate, h0, h1, h2, hd]
    exact .inl ⟨h3.1, h3.2, h4, rfl, by simpa using h0, endsRun_nil.1 ((ends_iff he).1 h)⟩
  | some b =>
    have he : exec .smartUpdate s = displayPartial (s.eligible b) b.rect s := by
      simp [exec, execSmartUpdate, h0, h1, h2, hd]
    rw [he] at hu
    exact .inr ⟨b, u, h3.1, h3.2, h4, rfl, (displayPartial_next hu).2.2.1, hu,
      (ends_iff (he.trans (displayPartial_run hu))).1 h⟩

end Sys2Proof.Machine
end

