-- ==== Sys2Proof/Laws/PerInstr.lean ====
section
/-! SUPPORT. One statement per request, as syntax: its word is covered by the row of the opcode table that
has its mnemonic (30_encoding.md R61 to R63). -/

namespace Sys2Proof.Laws.Legal

/-- The word of `i` is one of the row that bears its mnemonic. -/
def Statement (i : Instr) : Prop :=
  ∃ r ∈ opTable, r.mnemonic = i.mnemonic ∧ r.covers (encode i) = true

theorem sendCommand (b : Byte) : Statement (.sendCommand b) := by
  refine ⟨⟨"SEND_COMMAND", 0x0100#16, 0xFF00#16⟩, by decide, rfl, ?_⟩
  simp only [OpRow.covers, encode, Instr.op, Instr.imm8, beq_iff_eq]
  rw [show (0xFF00#16 : Word) = 0xFF#8 ++ 0x00#8 from rfl, BitVec.and_append]
  simp

theorem sendData (b : Byte) : Statement (.sendData b) := by
  refine ⟨⟨"SEND_DATA", 0x0200#16, 0xFF00#16⟩, by decide, rfl, ?_⟩
  simp only [OpRow.covers, encode, Instr.op, Instr.imm8, beq_iff_eq]
  rw [show (0xFF00#16 : Word) = 0xFF#8 ++ 0x00#8 from rfl, BitVec.and_append]
  simp

theorem reset : Statement .reset := ⟨⟨"RESET", 0x0300#16, 0xFFFF#16⟩, by decide, rfl, by decide⟩

theorem waitIdle : Statement .waitIdle := ⟨⟨"WAIT_IDLE", 0x0400#16, 0xFFFF#16⟩, by decide, rfl, by decide⟩

theorem encode : Statement .encode := ⟨⟨"ENCODE", 0x0800#16, 0xFFFF#16⟩, by decide, rfl, by decide⟩

theorem encodeRegion (src : Source) : Statement (.encodeRegion src) :=
  ⟨⟨"ENCODE_REGION", 0x0900#16, 0xFFFE#16⟩, by decide, rfl, by cases src <;> decide⟩

theorem init : Statement .init := ⟨⟨"INIT", 0x1000#16, 0xFFFF#16⟩, by decide, rfl, by decide⟩

theorem sleep : Statement .sleep := ⟨⟨"SLEEP", 0x1100#16, 0xFFFF#16⟩, by decide, rfl, by decide⟩

theorem setLut (fast : Bool) : Statement (.setLut fast) :=
  ⟨⟨"SET_LUT", 0x1200#16, 0xFFFE#16⟩, by decide, rfl, by cases fast <;> decide⟩

theorem displayFrame : Statement .displayFrame :=
  ⟨⟨"DISPLAY_FRAME", 0x2000#16, 0xFFFF#16⟩, by decide, rfl, by decide⟩

theorem displayPartial (fast : Bool) : Statement (.displayPartial fast) :=
  ⟨⟨"DISPLAY_PARTIAL", 0x2100#16, 0xFFFE#16⟩, by decide, rfl, by cases fast <;> decide⟩

theorem smartUpdate : Statement .smartUpdate :=
  ⟨⟨"SMART_UPDATE", 0x2200#16, 0xFFFF#16⟩, by decide, rfl, by decide⟩

end Sys2Proof.Laws.Legal
end

