-- ==== Sys2Proof/Laws/Policy.lean ====
section
/-! SUPPORT. The least and the greatest index that has a property, and the difference box in terms of
them (45_smart_update.md R132). -/

namespace Sys2Proof.Machine

/-! ### The ends of a filtered range -/

theorem head?_filter_range {p : Nat → Bool} {n a : Nat}
    (h : ((List.range n).filter p).head? = some a) :
    a < n ∧ p a = true ∧ ∀ b, b < a → p b = false := by
  rw [List.head?_filter, List.find?_range_eq_some] at h
  exact ⟨List.mem_range.1 h.2.1, h.1, fun b hb => by simpa using h.2.2 b hb⟩

theorem getLast?_filter_range {p : Nat → Bool} {n a : Nat}
    (h : ((List.range n).filter p).getLast? = some a) :
    a < n ∧ p a = true ∧ ∀ b, a < b → b < n → p b = false := by
  induction n with
  | zero => cases h
  | succ n ih =>
    rw [List.range_succ, List.filter_append] at h
    by_cases hn : p n = true
    · simp only [List.filter_singleton, hn, cond_true, List.getLast?_append, List.getLast?_singleton,
        Option.some_or, Option.some.injEq] at h
      subst h
      exact ⟨by omega, hn, fun b h1 h2 => by omega⟩
    · simp only [List.filter_singleton, hn, cond_false, List.append_nil] at h
      obtain ⟨h1, h2, h3⟩ := ih h
      refine ⟨by omega, h2, fun b hb hbn => ?_⟩
      by_cases hb' : b = n
      · subst hb'
        simpa using hn
      · exact h3 b hb (by omega)

theorem filter_range_eq_nil {p : Nat → Bool} {n : Nat} :
    (List.range n).filter p = [] ↔ ∀ a, a < n → p a = false := by
  simp [List.filter_eq_nil_iff]

/-! ### The difference box -/

section
variable {w h : Nat} {a b : Memory Bool}

theorem pixelsDiffer_iff {x y : Nat} : pixelsDiffer w a b x y = true ↔ pixelAt a w x y ≠ pixelAt b w x y := by
  simp [pixelsDiffer]

theorem columnDiffers_iff {x : Nat} :
    columnDiffers w h a b x = true ↔ ∃ y, y < h ∧ pixelAt a w x y ≠ pixelAt b w x y := by
  simp [columnDiffers, pixelsDiffer]

theorem rowDiffers_iff {y : Nat} :
    rowDiffers w a b y = true ↔ ∃ x, x < w ∧ pixelAt a w x y ≠ pixelAt b w x y := by
  simp [rowDiffers, pixelsDiffer]

/-- A difference box is made of the first and the last differing column and row. -/
theorem diffBox_some {box : Box} (hb : diffBox w h a b = some box) :
    ((List.range w).filter (columnDiffers w h a b)).head? = some box.left ∧
    ((List.range h).filter (rowDiffers w a b)).head? = some box.top ∧
    (∃ r, ((List.range w).filter (columnDiffers w h a b)).getLast? = some r ∧ box.right = r + 1) ∧
    ∃ r, ((List.range h).filter (rowDiffers w a b)).getLast? = some r ∧ box.bottom = r + 1 := by
  unfold diffBox at hb
  dsimp only at hb
  split at hb
  · rename_i l t r bt h1 h2 h3 h4
    cases hb
    exact ⟨h1, h2, ⟨r, h3, rfl⟩, bt, h4, rfl⟩
  · cases hb

/-- There is no difference box when no column differs. -/
theorem diffBox_eq_none (h' : ∀ x, x < w → columnDiffers w h a b x = false) : diffBox w h a b = none := by
  unfold diffBox
  rw [filter_range_eq_nil.2 h']
  rfl

/-- Where a pixel differs there is a difference box. -/
theorem diffBox_ne_none {x y : Nat} (hx : x < w) (hy : y < h)
    (hd : pixelAt a w x y ≠ pixelAt b w x y) : diffBox w h a b ≠ none := by
  have hc : x ∈ (List.range w).filter (columnDiffers w h a b) :=
    List.mem_filter.2 ⟨List.mem_range.2 hx, columnDiffers_iff.2 ⟨y, hy, hd⟩⟩
  have hr : y ∈ (List.range h).filter (rowDiffers w a b) :=
    List.mem_filter.2 ⟨List.mem_range.2 hy, rowDiffers_iff.2 ⟨x, hx, hd⟩⟩
  unfold diffBox
  dsimp only
  generalize (List.range w).filter (columnDiffers w h a b) = cols at *
  generalize (List.range h).filter (rowDiffers w a b) = rows at *
  cases cols with
  | nil => cases hc
  | cons c cs =>
    cases rows with
    | nil => cases hr
    | cons r rs =>
      rw [List.getLast?_eq_some_getLast (List.cons_ne_nil c cs),
        List.getLast?_eq_some_getLast (List.cons_ne_nil r rs)]
      simp

/-- Where one pixel differs and no other, the box is that pixel. -/
theorem diffBox_single {x y : Nat} (hx : x < w) (hy : y < h)
    (hd : ∀ u v, u < w → v < h → (pixelAt a w u v ≠ pixelAt b w u v ↔ u = x ∧ v = y)) :
    diffBox w h a b = some ⟨x, y, x + 1, y + 1⟩ := by
  obtain ⟨box, hb⟩ := Option.ne_none_iff_exists'.1 (diffBox_ne_none hx hy ((hd x y hx hy).2 ⟨rfl, rfl⟩))
  have hc : ∀ u, u < w → columnDiffers w h a b u = true → u = x := fun u hu hcu => by
    obtain ⟨v, hv, hne⟩ := columnDiffers_iff.1 hcu
    exact ((hd u v hu hv).1 hne).1
  have hr : ∀ v, v < h → rowDiffers w a b v = true → v = y := fun v hv hrv => by
    obtain ⟨u, hu, hne⟩ := rowDiffers_iff.1 hrv
    exact ((hd u v hu hv).1 hne).2
  obtain ⟨h1, h2, ⟨r, h3, h3'⟩, s, h4, h4'⟩ := diffBox_some hb
  obtain ⟨k1, c1, -⟩ := head?_filter_range h1
  obtain ⟨k2, c2, -⟩ := head?_filter_range h2
  obtain ⟨k3, c3, -⟩ := getLast?_filter_range h3
  obtain ⟨k4, c4, -⟩ := getLast?_filter_range h4
  obtain ⟨l, t, r', b'⟩ := box
  simp only at *
  rw [hb, hc l k1 c1, hr t k2 c2, h3', h4', hc r k3 c3, hr s k4 c4]

end

/-- The difference box of the state looks at LAST and PIX only. -/
theorem diff_congr {s t : State} (hl : t.last = s.last) (hp : t.pix = s.pix) : t.diff = s.diff := by
  rw [State.diff, hl, hp, State.diff]

end Sys2Proof.Machine
end

