-- ==== Sys2Proof/Laws/Transactions.lean ====
section
/-! SUPPORT. The lines of the two display transactions, run to their end with nothing failing. -/

namespace Sys2Proof.Machine

/-- PIX has the panel's size, on the registers themselves. -/
theorem panelSized_iff {s : State} : s.panelSized = true ↔ s.regs.pixW = 176#16 ∧ s.regs.pixH = 264#16 := by
  simp only [State.panelSized, Bool.and_eq_true, beq_iff_eq, Config.width, Config.height]
  constructor
  · rintro ⟨h1, h2⟩
    exact ⟨BitVec.eq_of_toNat_eq h1, BitVec.eq_of_toNat_eq h2⟩
  · rintro ⟨h1, h2⟩
    rw [h1, h2]
    exact ⟨rfl, rfl⟩

theorem length_pack_panel (f : Nat → Nat → Bool) : (pack f panelRegion).length = Config.frameBytes := by
  rw [pack_length]
  rfl

/-! ### DISPLAY_FRAME -/

@[simp] theorem busyReads_frameEvents (p : Params) (buf : List Byte) : busyReads (frameEvents p buf) = 0 := by
  simp [frameEvents]

@[simp] theorem lastSet_frameEvents_rst (o : Option Level) (p : Params) (buf : List Byte) :
    lastSet .rst o (frameEvents p buf) = o := by
  simp [frameEvents, lastSet_append]

@[simp] theorem lastSet_frameEvents_dc (o : Option Level) (p : Params) (buf : List Byte) :
    lastSet .dc o (frameEvents p buf) = some p.cmdLevel := by
  simp [frameEvents, lastSet_append]

theorem microOps_frameEvents (p : Params) {buf : List Byte} (h : buf.length = Config.frameBytes) :
    microOps (frameEvents p buf) = microOps (lutEvents p false) + 6 + 4 * Config.frameBytes := by
  simp only [frameEvents, microOps_append, microOps_commandEvents, microOps_blockEvents,
    List.length_replicate, h]
  omega

/-- DISPLAY_FRAME up to its refresh command (R121). -/
theorem runWork_frame {s : State} {buf : List Byte} (hp : s.panelSized = true)
    (hb : buf = pack (s.pixel .pix) panelRegion) (hq : s.Quiet (microOps (frameEvents s.par buf))) :
    runWork (frameWork s.par) s =
      runWork [.wait 0, .commitFrame] ((s.putFb buf).afterAll (frameEvents s.par buf)) := by
  have hlen : buf.length = Config.frameBytes := by
    rw [hb]
    exact length_pack_panel _
  have e : ∀ n, s.Quiet n → (s.putFb buf).Quiet n := fun _ => quiet_putFb buf
  rw [microOps_frameEvents _ hlen] at hq
  have h0 := lut_after (s := s) (es := []) (ws := (frameWork s.par).tail) false
    (hq.mono (by rw [microOps_nil]; omega))
  rw [afterAll_nil] at h0
  rw [show frameWork s.par = .lut false :: (frameWork s.par).tail from rfl, h0]
  simp only [frameWork, List.tail_cons]
  rw [encode_after hp, ← hb, List.nil_append]
  rw [command_after _ (e _ (hq.mono (by omega))), putFb_par,
    block_after _ (e _ (hq.mono (by
      simp only [microOps_append, microOps_commandEvents, List.length_replicate]
      omega))), putFb_par,
    command_after _ (e _ (hq.mono (by
      simp only [microOps_append, microOps_commandEvents, microOps_blockEvents, List.length_replicate]
      omega))), putFb_par,
    fbBlock_after hlen (by rw [← hlen]; exact putFb_units s buf) (e _ (hq.mono (by
      simp only [microOps_append, microOps_commandEvents, microOps_blockEvents, List.length_replicate]
      omega))), putFb_par,
    command_after _ (e _ (hq.mono (by
      simp only [microOps_append, microOps_commandEvents, microOps_blockEvents, List.length_replicate,
        hlen]
      omega))), putFb_par]
  rfl

/-- DISPLAY_FRAME after its lazy INIT, to its end, the controller busy for `p` polls (R121). -/
theorem polls_frame {s : State} {p : Nat} {buf : List Byte} (hp : s.panelSized = true)
    (hbuf : buf = pack (s.pixel .pix) panelRegion)
    (hq : s.Quiet (microOps (frameEvents s.par buf) + (p + 1))) (hi : s.IdleAfter p)
    (hb : boundReached s.waitBound p = false) :
    Polls p (runWork (frameWork s.par) s)
      { s with
        dc := some s.par.cmdLevel
        log := (frameEvents s.par buf ++ pollEvents s.par p).reverse ++ s.log
        env := s.env.advance (microOps (frameEvents s.par buf) + (p + 1)) (p + 1)
        fb := s.fb.writeFront unlistedByte buf
        fbLen := 5808#16
        last := s.pix.front 46464
        haveLast := true
        count := 0
        status := some .ok
        running := none
        pos := s.pos + 1 } := by
  have hlen : buf.length = 5808 := by
    rw [hbuf]
    exact length_pack_panel _
  rw [runWork_frame hp hbuf (hq.mono (by omega))]
  have hpar : ((s.putFb buf).afterAll (frameEvents s.par buf)).par = s.par := by
    rw [afterAll_par, putFb_par]
  have h := polls_wait [.commitFrame] p (k := 0) (s := (s.putFb buf).afterAll (frameEvents s.par buf))
    (quiet_afterAll _ _ (quiet_putFb _ hq))
    ⟨fun k hk => by
        rw [afterAll_env, level_advance, busyReads_frameEvents, Nat.zero_add, hpar]
        exact hi.1 k hk,
      by
        rw [afterAll_env, level_advance, busyReads_frameEvents, Nat.zero_add, hpar]
        exact hi.2⟩
    (by rw [afterAll_waitBound]; exact hb) rfl
  rw [hpar, Nat.add_zero, ← afterAll_append] at h
  convert h using 1
  rw [runWork_done (w := .commitFrame) rfl, runWork_nil, afterAll_eq]
  simp [complete, State.commit, State.putFb, lastSet_append, hlen]

/-! ### DISPLAY_PARTIAL -/

/-- The fragment of a fast table that is sent only when asked for. -/
theorem lastSet_lutIf (c : Bool) (p : Params) (fast : Bool) (o : Option Level) :
    lastSet .rst o (if c then lutEvents p fast else []) = o := by
  split
  · simp
  · rfl

/-- The end of DISPLAY_PARTIAL: the wait, the normal table if the fast one was sent, the commit. -/
theorem polls_partial_tail {s : State} {fast : Bool} {p : Nat} {es : List Event}
    (hes : es = if fast then lutEvents s.par false else []) (hq : s.Quiet (p + 1 + microOps es))
    (hi : s.IdleAfter p) (hb : boundReached s.waitBound p = false) :
    Polls p (runWork (.wait 0 :: ((if fast then [.lut false] else []) ++ [.commitPartial])) s)
      (complete ((s.afterAll (pollEvents s.par p ++ es)).commit (s.count + 1))) := by
  refine polls_wait _ p (k := 0) (hq.mono (by omega)) hi hb ?_
  cases fast
  · simp only [Bool.false_eq_true, if_false] at hes
    subst hes
    show _ = runWork [.commitPartial] _
    rw [runWork_done (w := .commitPartial) rfl, List.append_nil, runWork_nil, afterAll_count]
  · simp only [if_true] at hes
    subst hes
    show _ = runWork [.lut false, .commitPartial] _
    rw [lut_after false (by rw [microOps_pollEvents]; exact hq), runWork_done (w := .commitPartial) rfl,
      runWork_nil, afterAll_count]

/-- DISPLAY_PARTIAL up to its wait: the old and the new content of the region in FB, one after the
other, and the trace of R124. -/
theorem runWork_partial {s : State} {fast : Bool} {r : Region} {old new : List Byte} {n : Nat}
    {es : List Event} (ho : old = pack (s.pixel .last) r) (hn : new = pack (s.pixel .pix) r)
    (hlen : n = r.w / 8 * r.h)
    (hes : es = (if fast then lutEvents s.par true else []) ++ commandEvents s.par s.par.cmdPdtx1 ++
      blockEvents s.par r.header ++ blockEvents s.par old ++ commandEvents s.par s.par.cmdPdtx2 ++
      blockEvents s.par r.header ++ blockEvents s.par new ++ commandEvents s.par s.par.cmdPrefresh ++
      blockEvents s.par r.header)
    (hq : s.Quiet (microOps es)) :
    runWork (partialWork s.par fast r) s =
      runWork (.wait 0 :: ((if fast then [.lut false] else []) ++ [.commitPartial]))
        (((s.putFb old).putFb new).afterAll es) := by
  have hlo : old.length = n := by rw [ho, pack_length, hlen]
  have hln : new.length = n := by rw [hn, pack_length, hlen]
  have hlh : r.header.length = 8 := header_length r
  have e : ∀ k, s.Quiet k → (s.putFb old).Quiet k := fun _ => quiet_putFb old
  have e' : ∀ k, s.Quiet k → ((s.putFb old).putFb new).Quiet k := fun k h => quiet_putFb new (e k h)
  have hr : (⟨r.x, r.y, r.h, r.w⟩ : Region) = r := rfl
  obtain ⟨es₀, hes₀⟩ : ∃ es₀, es₀ = if fast then lutEvents s.par true else [] := ⟨_, rfl⟩
  rw [← hes₀] at hes
  have hm : microOps es = microOps es₀ + 54 + 4 * n := by
    rw [hes]
    simp only [microOps_append, microOps_commandEvents, microOps_blockEvents, hlo, hln, hlh]
    omega
  rw [hm] at hq
  have h0 : runWork (partialWork s.par fast r) s =
      runWork (.command s.par.cmdPdtx1 :: .block r.header :: .packRegion .last r.x r.y r.h r.w ::
        .fbBlock (r.w / 8 * r.h) :: .command s.par.cmdPdtx2 :: .block r.header ::
        .packRegion .pix r.x r.y r.h r.w :: .fbBlock (r.w / 8 * r.h) :: .command s.par.cmdPrefresh ::
        .block r.header :: .wait 0 :: ((if fast then [.lut false] else []) ++ [.commitPartial]))
        (s.afterAll es₀) := by
    cases fast
    · simp [partialWork, hes₀]
    · have h := lut_after (s := s) (es := []) (ws := (partialWork s.par true r).tail) true
        (hq.mono (by rw [microOps_nil, hes₀]; simp only [if_true]; omega))
      rw [afterAll_nil, List.nil_append] at h
      rw [hes₀]
      exact h
  rw [h0, ← hlen]
  generalize r.header = H at *
  rw [command_after _ (hq.mono (by omega)),
    block_after _ (hq.mono (by
      simp only [microOps_append, microOps_commandEvents, hlh]
      omega)),
    packRegion_after, hr, ← ho,
    fbBlock_after (bs := old) hlo (by rw [← hlo]; exact putFb_units s old) (e _ (hq.mono (by
      simp only [microOps_append, microOps_commandEvents, microOps_blockEvents, hlh]
      omega))),
    command_after _ (e _ (hq.mono (by
      simp only [microOps_append, microOps_commandEvents, microOps_blockEvents, hlh, hlo]
      omega))),
    block_after _ (e _ (hq.mono (by
      simp only [microOps_append, microOps_commandEvents, microOps_blockEvents, hlh, hlo]
      omega))),
    packRegion_after, hr, putFb_pixel, ← hn,
    fbBlock_after (bs := new) hln (by rw [← hln]; exact putFb_units _ new) (e' _ (hq.mono (by
      simp only [microOps_append, microOps_commandEvents, microOps_blockEvents, hlh, hlo]
      omega))),
    command_after _ (e' _ (hq.mono (by
      simp only [microOps_append, microOps_commandEvents, microOps_blockEvents, hlh, hlo, hln]
      omega))),
    block_after _ (e' _ (hq.mono (by
      simp only [microOps_append, microOps_commandEvents, microOps_blockEvents, hlh, hlo, hln]
      omega)))]
  simp only [putFb_par, hes]

/-- DISPLAY_PARTIAL to its end, the controller busy for `p` polls (R124). -/
theorem polls_partial {s : State} {fast : Bool} {r : Region} {old new : List Byte} {p : Nat}
    (ho : old = pack (s.pixel .last) r) (hn : new = pack (s.pixel .pix) r)
    (hq : s.Quiet (microOps (partialEvents s.par fast r.header old new p))) (hi : s.IdleAfter p)
    (hb : boundReached s.waitBound p = false) :
    Polls p (runWork (partialWork s.par fast r) s)
      { s with
        dc := some (if fast then lutLastLevel s.par false else s.par.dataLevel)
        log := (partialEvents s.par fast r.header old new p).reverse ++ s.log
        env := s.env.advance (microOps (partialEvents s.par fast r.header old new p)) (p + 1)
        fb := (s.fb.writeFront unlistedByte old).writeFront unlistedByte new
        fbLen := BitVec.ofNat 16 (r.w / 8 * r.h)
        last := s.pix.front 46464
        haveLast := true
        count := s.count + 1
        status := some .ok
        running := none
        pos := s.pos + 1 } := by
  have hln : new.length = r.w / 8 * r.h := by rw [hn, pack_length]
  obtain ⟨es, hes⟩ : ∃ es, es = (if fast then lutEvents s.par true else []) ++
      commandEvents s.par s.par.cmdPdtx1 ++ blockEvents s.par r.header ++ blockEvents s.par old ++
      commandEvents s.par s.par.cmdPdtx2 ++ blockEvents s.par r.header ++ blockEvents s.par new ++
      commandEvents s.par s.par.cmdPrefresh ++ blockEvents s.par r.header := ⟨_, rfl⟩
  obtain ⟨esL, hesL⟩ : ∃ esL, esL = if fast then lutEvents s.par false else [] := ⟨_, rfl⟩
  have hpe : partialEvents s.par fast r.header old new p = es ++ (pollEvents s.par p ++ esL) := by
    rw [hes, hesL, ← List.append_assoc]
    rfl
  have hbusy : busyReads es = 0 := by
    rw [hes]
    cases fast <;> simp
  have hbusyL : busyReads esL = 0 := by
    rw [hesL]
    cases fast <;> simp
  have hrst : lastSet .rst s.rst es = s.rst := by
    rw [hes]
    cases fast <;> simp [lastSet_append]
  have hrstL : lastSet .rst s.rst esL = s.rst := hesL ▸ lastSet_lutIf fast s.par false s.rst
  have hdc : lastSet .dc s.dc es = some s.par.dataLevel := by
    have hnil : ¬ r.header = [] := by
      intro h
      have := header_length r
      rw [h] at this
      cases this
    rw [hes, lastSet_append, lastSet_blockEvents_dc, if_neg hnil]
  have hdcL : lastSet .dc (some s.par.dataLevel) esL =
      some (if fast then lutLastLevel s.par false else s.par.dataLevel) := by
    rw [hesL]
    cases fast <;> simp [lastSet]
  rw [hpe] at hq ⊢
  rw [microOps_append, microOps_append, microOps_pollEvents] at hq
  rw [runWork_partial ho hn rfl hes (hq.mono (by omega))]
  obtain ⟨t, ht⟩ : ∃ t, t = ((s.putFb old).putFb new).afterAll es := ⟨_, rfl⟩
  have hpar : t.par = s.par := by rw [ht, afterAll_par, putFb_par, putFb_par]
  have hcount : t.count = s.count := by rw [ht, afterAll_count, putFb_count, putFb_count]
  have hlevel : ∀ k, t.env.level k = s.env.level k := by
    intro k
    rw [ht, afterAll_env, level_advance, hbusy, Nat.zero_add]
    rfl
  have h := polls_partial_tail (s := t) (fast := fast) (p := p) (es := esL) (by rw [hpar]; exact hesL)
    (by rw [ht]; exact quiet_afterAll _ _ (quiet_putFb _ (quiet_putFb _ hq)))
    ⟨fun k hk => by rw [hlevel, hpar]; exact hi.1 k hk, by rw [hlevel, hpar]; exact hi.2⟩
    (by rw [ht, afterAll_waitBound]; exact hb)
  rw [hpar, hcount, ht, ← afterAll_append] at h
  convert h using 1
  rw [afterAll_eq]
  simp only [complete, State.commit, State.putFb, lastSet_append, hrst, hrstL, hdc, hdcL,
    lastSet_pollEvents, hln, busyReads_append, hbusy, hbusyL, busyReads_pollEvents]
  simp

end Sys2Proof.Machine
end

