-- ==== Sys2Proof/Laws/Precise.lean ====
section
/-! SUPPORT. Exceptions are precise: where a micro-operation fails, what had happened before it stands
and nothing after it happens (60_exceptions.md R142, R146). -/

namespace Sys2Proof.Machine

/-- `f`, started in `s`, performs the fragment `es`; when its micro-operation number `n` is the first to
fail, it has performed exactly what comes before it. -/
structure Performs (f : State → Res) (s : State) (es : List Event) : Prop where
  done : s.Quiet (microOps es) → f s = .done (s.afterAll es)
  fails : ∀ n, n < microOps es → s.Quiet n → s.env.fails n = true →
    ∃ pre op, pre <+: es ∧ microOps pre = n ∧ microOpAt es n = some op ∧
      f s = .raised (.transport op) ((s.afterAll pre).tick 1 0)

theorem performs_nil {f : State → Res} {s : State} (h : f s = .done s) : Performs f s [] where
  done _ := h
  fails n hn := by cases hn

theorem Performs.andThen {f g : State → Res} {s : State} {es es' : List Event} (hf : Performs f s es)
    (hg : Performs g (s.afterAll es) es') : Performs (fun s => (f s).andThen g) s (es ++ es') where
  done h := by
    rw [microOps_append] at h
    rw [hf.done (h.mono (by omega)), Res.andThen, hg.done (quiet_afterAll s es h), afterAll_append]
  fails n hn hq hfail := by
    by_cases hlt : n < microOps es
    · obtain ⟨pre, op, hpre, hm, ho, hr⟩ := hf.fails n hlt hq hfail
      exact ⟨pre, op, hpre.trans (List.prefix_append ..), hm, by rw [microOpAt_append_left hlt, ho],
        by rw [hr, Res.andThen]⟩
    · rw [microOps_append] at hn
      have hq' : s.Quiet (microOps es) := hq.mono (by omega)
      have hn' : n = microOps es + (n - microOps es) := by omega
      rw [hn'] at hq hfail
      obtain ⟨pre, op, hpre, hm, ho, hr⟩ := hg.fails (n - microOps es) (by omega) (quiet_afterAll s es hq)
        (by rw [afterAll_env, fails_advance]; exact hfail)
      refine ⟨es ++ pre, op, List.prefix_append_right_inj es |>.2 hpre, by rw [microOps_append]; omega,
        by rw [hn', microOpAt_append_right, ho], ?_⟩
      rw [hf.done hq', Res.andThen, hr, afterAll_append]

theorem performs_setLine (l : OutLine) (v : Level) (s : State) : Performs (setLine l v) s [.set l v] where
  done h := setLine_done h l v
  fails n hn hq hf := by
    have hn : n = 0 := by
      simp only [microOps_cons, microOps_nil, Event.canFail] at hn
      split at hn <;> omega
    subst hn
    exact ⟨[], lineMicroOp l, List.nil_prefix, rfl, by cases l <;> rfl, by simp [setLine, attempt, hf]⟩

theorem performs_writeByte (b : Byte) (s : State) : Performs (writeByte b) s [.wr b] where
  done h := writeByte_done h b
  fails n hn hq hf := by
    have hn : n = 0 := by
      simp only [microOps_cons, microOps_nil, Event.canFail] at hn
      split at hn <;> omega
    subst hn
    exact ⟨[], .writeByte, List.nil_prefix, rfl, rfl, by simp [writeByte, attempt, hf]⟩

theorem performs_sleep (ms : Nat) (s : State) : Performs (fun s => .done (sleep ms s)) s [.slp ms] where
  done _ := rfl
  fails n hn := by cases hn

theorem performs_sendFrame (v : Level) (b : Byte) (s : State) :
    Performs (sendFrame v b) s [.set .dc v, .wr b] :=
  (performs_setLine .dc v s).andThen (performs_writeByte b _)

theorem performs_sendCommand (b : Byte) (s : State) :
    Performs (sendCommand b) s (commandEvents s.par b) where
  done := (performs_sendFrame s.par.cmdLevel b s).done
  fails := (performs_sendFrame s.par.cmdLevel b s).fails

theorem performs_sendData (b : Byte) (s : State) : Performs (sendData b) s (dataEvents s.par b) where
  done := (performs_sendFrame s.par.dataLevel b s).done
  fails := (performs_sendFrame s.par.dataLevel b s).fails

theorem performs_sendBlock (bs : List Byte) (s : State) :
    Performs (sendBlock bs) s (blockEvents s.par bs) := by
  induction bs generalizing s with
  | nil => exact performs_nil rfl
  | cons b bs ih =>
    have h := ih (s.afterAll (dataEvents s.par b))
    rw [afterAll_par] at h
    exact (performs_sendData b s).andThen h

theorem performs_sendLutPart (fast : Bool) (k : LutKey) (s : State) :
    Performs (sendLutPart fast k) s (lutPartEvents s.par fast k) := by
  have h := performs_sendBlock ((s.par.lutSet fast).at k)
    (s.afterAll (commandEvents s.par (s.par.cmdLut.at k)))
  rw [afterAll_par] at h
  have h' := (performs_sendCommand (s.par.cmdLut.at k) s).andThen h
  exact ⟨h'.done, h'.fails⟩

theorem performs_setLut (fast : Bool) (s : State) : Performs (setLut fast) s (lutEvents s.par fast) := by
  have part : ∀ (k : LutKey) (es : List Event),
      Performs (sendLutPart fast k) (s.afterAll es) (lutPartEvents s.par fast k) := by
    intro k es
    have h := performs_sendLutPart fast k (s.afterAll es)
    rwa [afterAll_par] at h
  have h5 := fun es => part .bb es
  have h4 := fun es => (part .wb es).andThen (by rw [← afterAll_append]; exact h5 _)
  have h3 := fun es => (part .bw es).andThen (by rw [← afterAll_append]; exact h4 _)
  have h2 := fun es => (part .ww es).andThen (by rw [← afterAll_append]; exact h3 _)
  have h1 := (performs_sendLutPart fast .vcom s).andThen (h2 _)
  simp only [lutEvents, List.append_assoc]
  exact h1

theorem performs_pulseReset (s : State) : Performs pulseReset s resetEvents :=
  (performs_setLine .rst .low s).andThen
    (((performs_sleep 200 _).andThen (performs_setLine .rst .high _)).andThen (performs_sleep 200 _))

/-! ### Runs of lines -/

/-- When a micro-operation of the fragment `es` that the lines `ws` begin with is the first to fail, the
request ends there in TransportError, with exactly what comes before it. -/
def RunFails (ws : List Work) (s : State) (es : List Event) : Prop :=
  ∀ n, n < microOps es → s.Quiet n → s.env.fails n = true →
    ∃ pre op, pre <+: es ∧ microOps pre = n ∧ microOpAt es n = some op ∧
      runWork ws s = takeException (.transport op) ((s.afterAll pre).tick 1 0)

theorem runFails_nil (ws : List Work) (s : State) : RunFails ws s [] := fun n hn => by cases hn

/-- A line on the wire before the rest. -/
theorem RunFails.cons {w : Work} {ws : List Work} {s : State} {es es' : List Event}
    (hw : Performs w.perform s es) (h : RunFails ws (s.afterAll es) es') :
    RunFails (w :: ws) s (es ++ es') := by
  intro n hn hq hf
  by_cases hlt : n < microOps es
  · obtain ⟨pre, op, hpre, hm, ho, hr⟩ := hw.fails n hlt hq hf
    exact ⟨pre, op, hpre.trans (List.prefix_append ..), hm, by rw [microOpAt_append_left hlt, ho],
      runWork_raised hr⟩
  · rw [microOps_append] at hn
    have hq' : s.Quiet (microOps es) := hq.mono (by omega)
    have hn' : n = microOps es + (n - microOps es) := by omega
    rw [hn'] at hq hf
    obtain ⟨pre, op, hpre, hm, ho, hr⟩ := h (n - microOps es) (by omega) (quiet_afterAll s es hq)
      (by rw [afterAll_env, fails_advance]; exact hf)
    exact ⟨es ++ pre, op, List.prefix_append_right_inj es |>.2 hpre, by rw [microOps_append]; omega,
      by rw [hn', microOpAt_append_right, ho], by rw [runWork_done (hw.done hq'), hr, afterAll_append]⟩

section After
variable {ws : List Work} {s : State} {es es' : List Event}

theorem RunFails.command (b : Byte) (h : RunFails ws (s.afterAll (es ++ commandEvents s.par b)) es') :
    RunFails (.command b :: ws) (s.afterAll es) (commandEvents s.par b ++ es') := by
  have hw := performs_sendCommand b (s.afterAll es)
  rw [afterAll_par] at hw
  rw [afterAll_append] at h
  exact RunFails.cons (w := .command b) hw h

theorem RunFails.block (bs : List Byte) (h : RunFails ws (s.afterAll (es ++ blockEvents s.par bs)) es') :
    RunFails (.block bs :: ws) (s.afterAll es) (blockEvents s.par bs ++ es') := by
  have hw := performs_sendBlock bs (s.afterAll es)
  rw [afterAll_par] at hw
  rw [afterAll_append] at h
  exact RunFails.cons (w := .block bs) hw h

theorem RunFails.fbBlock {bs : List Byte} {n : Nat} (hfb : s.fb.units unlistedByte n = bs)
    (h : RunFails ws (s.afterAll (es ++ blockEvents s.par bs)) es') :
    RunFails (.fbBlock n :: ws) (s.afterAll es) (blockEvents s.par bs ++ es') := by
  have hw := performs_sendBlock bs (s.afterAll es)
  rw [afterAll_par] at hw
  rw [afterAll_append] at h
  have he : (Work.fbBlock n).perform (s.afterAll es) = sendBlock bs (s.afterAll es) := by
    rw [← hfb, ← afterAll_fb s es]
    rfl
  refine RunFails.cons (w := .fbBlock n) ⟨fun hq => he ▸ hw.done hq, fun n hn hq hf => ?_⟩ h
  rw [he]
  exact hw.fails n hn hq hf

end After

end Sys2Proof.Machine
end

