-- ==== Sys2Proof/Laws/Raises.lean ====
section
/-! SUPPORT. Which exception a line can raise (60_exceptions.md R140). -/

namespace Sys2Proof.Machine

/-- An end that raises, if anything, TransportError of one of `ops`. -/
def Res.TransportIn (ops : List MicroOp) : Res → Prop
  | .raised e _ => ∃ op ∈ ops, e = .transport op
  | .done _ => True
  | .busy _ _ => True

theorem transportIn_andThen {ops : List MicroOp} {r : Res} {f : State → Res} (hr : r.TransportIn ops)
    (hf : ∀ s, (f s).TransportIn ops) : (r.andThen f).TransportIn ops := by
  cases r with
  | done s => exact hf s
  | raised e s => exact hr
  | busy n s => trivial

theorem transportIn_attempt {ops : List MicroOp} {op : MicroOp} (h : op ∈ ops) (act : State → State)
    (s : State) : (attempt op act s).TransportIn ops := by
  unfold attempt
  split
  · exact ⟨op, h, rfl⟩
  · trivial

/-- The micro-operations of a frame (R67). -/
abbrev frameOps : List MicroOp := [.setLineDc, .writeByte]

theorem transportIn_sendFrame (v : Level) (b : Byte) (s : State) : (sendFrame v b s).TransportIn frameOps :=
  transportIn_andThen (transportIn_attempt (.head _) _ s) fun _ => transportIn_attempt (.tail _ (.head _)) _ _

theorem transportIn_sendBlock (bs : List Byte) (s : State) : (sendBlock bs s).TransportIn frameOps := by
  induction bs generalizing s with
  | nil => trivial
  | cons b bs ih => exact transportIn_andThen (transportIn_sendFrame _ b s) ih

theorem transportIn_sendLutPart (fast : Bool) (k : LutKey) (s : State) :
    (sendLutPart fast k s).TransportIn frameOps :=
  transportIn_andThen (transportIn_sendFrame _ _ s) (transportIn_sendBlock _)

theorem transportIn_setLut (fast : Bool) (s : State) : (setLut fast s).TransportIn frameOps :=
  transportIn_andThen (transportIn_sendLutPart fast .vcom s) fun _ =>
    transportIn_andThen (transportIn_sendLutPart fast .ww _) fun _ =>
      transportIn_andThen (transportIn_sendLutPart fast .bw _) fun _ =>
        transportIn_andThen (transportIn_sendLutPart fast .wb _) fun _ =>
          transportIn_sendLutPart fast .bb _

theorem transportIn_pulseReset (s : State) : (pulseReset s).TransportIn [.setLineRst] :=
  transportIn_andThen (transportIn_attempt (.head _) _ s) fun _ =>
    transportIn_andThen (transportIn_attempt (.head _) _ _) fun _ => trivial

/-- The micro-operations that a line performs. -/
def Work.ops : Work → List MicroOp
  | .command _ => frameOps
  | .data _ => frameOps
  | .block _ => frameOps
  | .fbBlock _ => frameOps
  | .resetPulse => [.setLineRst]
  | .delay _ => []
  | .wait _ => [.readLineBusy]
  | .lut _ => frameOps
  | .encode => []
  | .packRegion .. => []
  | .beginInit => []
  | .endInit => []
  | .endSleep => []
  | .commitFrame => []
  | .commitPartial => []

/-- What a poll can raise. -/
theorem pollBusy_raised {n : Nat} {s s' : State} {e : Exc} (h : pollBusy n s = .raised e s') :
    e = .transport .readLineBusy ∨ (e = .busyTimeout (n + 1) ∧ boundReached s.waitBound (n + 1) = true) := by
  unfold pollBusy readLine at h
  split at h
  · cases h
    exact .inl rfl
  · dsimp only at h
    split at h
    · cases h
    · split at h
      · cases h
        exact .inr ⟨rfl, ‹_›⟩
      · cases h

/-- What a line can raise: TransportError on the wire, BusyTimeout in a poll, DimensionError in ENCODE. -/
theorem perform_raises {w : Work} {s s' : State} {e : Exc} (h : w.perform s = .raised e s') :
    (∃ op ∈ w.ops, e = .transport op) ∨
    (∃ n, w = .wait n ∧ e = .busyTimeout (n + 1) ∧ boundReached s.waitBound (n + 1) = true) ∨
    (w = .encode ∧ e = .dimension s.regs.pixW s.regs.pixH ∧ s.panelSized = false) := by
  have key : ∀ {ops : List MicroOp} {r : Res}, r.TransportIn ops → r = .raised e s' →
      ∃ op ∈ ops, e = .transport op := by
    rintro ops r hr rfl
    exact hr
  cases w with
  | command b => exact .inl (key (transportIn_sendFrame _ b s) h)
  | data b => exact .inl (key (transportIn_sendFrame _ b s) h)
  | block bs => exact .inl (key (transportIn_sendBlock bs s) h)
  | fbBlock n => exact .inl (key (transportIn_sendBlock _ s) h)
  | resetPulse => exact .inl (key (transportIn_pulseReset s) h)
  | delay ms => cases h
  | wait n =>
    rcases pollBusy_raised h with h | h
    · exact .inl ⟨_, .head _, h⟩
    · exact .inr (.inl ⟨n, rfl, h⟩)
  | lut fast => exact .inl (key (transportIn_setLut fast s) h)
  | encode =>
    by_cases hp : s.panelSized = true
    · rw [encode_done hp] at h
      cases h
    · rw [encode_raised hp] at h
      cases h
      exact .inr (.inr ⟨rfl, rfl, by simpa using hp⟩)
  | packRegion src x y h' w => cases h
  | beginInit => cases h
  | endInit => cases h
  | endSleep => cases h
  | commitFrame => cases h
  | commitPartial => cases h

/-- A poll that goes round again has not reached the bound. -/
theorem perform_wait_busy {m n : Nat} {s s' : State} (h : (Work.wait m).perform s = .busy n s') :
    boundReached s.waitBound n = false := by
  have h : pollBusy m s = .busy n s' := h
  unfold pollBusy readLine at h
  split at h
  · cases h
  · dsimp only at h
    split at h
    · cases h
    · split at h
      · cases h
      · rename_i hb
        cases h
        simpa using hb

/-- An exception that ends a request was raised by one of its lines, or by a later poll of one of its
WAIT_IDLEs, at a count of busy readings that had not reached the bound. -/
theorem endsRun_raises {ws : List Work} {s t : State} {e : Exc} (h : EndsRun ws s t)
    (ht : t.status = some (.failed e)) :
    ∃ w u u', (w ∈ ws ∨ ((∃ k, .wait k ∈ ws) ∧ ∃ n, w = .wait n ∧ boundReached s.waitBound n = false)) ∧
      KeptByRequests s u ∧ w.perform u = .raised e u' := by
  obtain ⟨k, hk, hr⟩ := h
  induction k using Nat.strong_induction_on generalizing ws s with
  | _ k ih =>
    induction ws generalizing s with
    | nil =>
      rw [runWork_nil] at hk
      rw [polls_of_not_running rfl hk] at ht
      cases ht
    | cons w ws ihw =>
      have hkeep := perform_keeps w s
      rcases hw : w.perform s with s' | ⟨e', s'⟩ | ⟨n, s'⟩ <;> rw [hw] at hkeep
      · rw [runWork_done hw] at hk
        obtain ⟨w', u, u', hmem, hu, hw'⟩ := ihw hk
        refine ⟨w', u, u', ?_, hkeep.toKeptByRequests.trans hu, hw'⟩
        rcases hmem with hm | ⟨⟨k, hm⟩, hm'⟩
        · exact .inl (List.mem_cons_of_mem _ hm)
        · exact .inr ⟨⟨k, List.mem_cons_of_mem _ hm⟩, hkeep.toKeptByRequests.waitBound ▸ hm'⟩
      · rw [runWork_raised hw] at hk
        rw [polls_of_not_running rfl hk] at ht
        cases ht
        exact ⟨w, s, s', .inl (List.mem_cons_self ..), .refl s, hw⟩
      · rw [runWork_busy hw] at hk
        obtain ⟨k', rfl, hk'⟩ := polls_of_held hk hr
        obtain ⟨w', u, u', hmem, hu, hw'⟩ := ih k' (by omega) hk'
        obtain ⟨m, rfl⟩ := perform_busy_wait hw
        refine ⟨w', u, u', ?_, hkeep.toKeptByRequests.trans hu, hw'⟩
        rcases hmem with hm | ⟨⟨k, hm⟩, hm'⟩
        · rcases List.mem_cons.1 hm with rfl | hm
          · exact .inr ⟨⟨m, List.mem_cons_self ..⟩, n, rfl, perform_wait_busy hw⟩
          · exact .inl (List.mem_cons_of_mem _ hm)
        · exact .inr ⟨⟨m, List.mem_cons_self ..⟩, hkeep.toKeptByRequests.waitBound ▸ hm'⟩

end Sys2Proof.Machine
end

