-- ==== Sys2Proof/Laws/Trace.lean ====
section
/-! SUPPORT. What a line appends to the trace, however it ends. -/

namespace Sys2Proof.Machine

/-- A SetLine keeps a fragment framed. -/
theorem framed_set (l : OutLine) (v : Level) {es : List Event} (h : framed es = true) :
    framed (.set l v :: es) = true := by
  cases l with
  | rst => exact h
  | dc =>
    cases es with
    | nil => rfl
    | cons e es =>
      cases e with
      | wr b => cases h
      | set l' v' => exact h
      | rd v' => exact h
      | slp ms => exact h

/-- Framed fragments compose. -/
theorem framed_append {es es' : List Event} (h : framed es = true) (h' : framed es' = true) :
    framed (es ++ es') = true := by
  induction es using framed.induct with
  | case1 => exact h'
  | case2 b es => cases h
  | case3 v b es ih => exact ih h
  | case4 l v es hne ih =>
    have hes : framed es = true := by
      cases l with
      | rst => exact h
      | dc =>
        cases es with
        | nil => rfl
        | cons e es =>
          cases e with
          | wr b => exact (hne b es rfl rfl).elim
          | set l' v' => exact h
          | rd v' => exact h
          | slp ms => exact h
    exact framed_set l v (ih hes)
  | case5 v es ih => exact ih h
  | case6 ms es ih => exact ih h

/-- `t` has what `s` has in its trace, and after it a framed fragment. -/
def Grows (s t : State) : Prop := ∃ es, framed es = true ∧ t.log = es.reverse ++ s.log

theorem Grows.refl (s : State) : Grows s s := ⟨[], rfl, rfl⟩

theorem Grows.trans {s t u : State} (h : Grows s t) (h' : Grows t u) : Grows s u := by
  obtain ⟨es, hf, he⟩ := h
  obtain ⟨es', hf', he'⟩ := h'
  exact ⟨es ++ es', framed_append hf hf', by rw [he', he, List.reverse_append, List.append_assoc]⟩

theorem Grows.trace {s t : State} (h : Grows s t) : ∃ es, t.trace = s.trace ++ es ∧ framed es = true := by
  obtain ⟨es, hf, he⟩ := h
  exact ⟨es, trace_append_of_log he, hf⟩

/-- The trace is not touched. -/
theorem Grows.of_log {s t : State} (h : t.log = s.log) : Grows s t := ⟨[], rfl, h⟩

theorem grows_setLine (l : OutLine) (v : Level) (s : State) : (setLine l v s).All (Grows s) := by
  unfold setLine attempt
  split
  · exact .of_log rfl
  · exact ⟨[.set l v], by cases l <;> rfl, by cases l <;> rfl⟩

theorem grows_sleep (ms : Nat) (s : State) : Grows s (sleep ms s) := ⟨[.slp ms], rfl, rfl⟩

/-- DC is set, and only then the byte is shifted out (R67). -/
theorem grows_sendFrame (v : Level) (b : Byte) (s : State) : (sendFrame v b s).All (Grows s) := by
  unfold sendFrame setLine writeByte attempt
  split
  · exact .of_log rfl
  · dsimp only [Res.andThen]
    split
    · exact ⟨[.set .dc v], rfl, rfl⟩
    · exact ⟨[.set .dc v, .wr b], rfl, rfl⟩

theorem Res.All.grows_andThen {s : State} {r : Res} {f : State → Res} (hr : r.All (Grows s))
    (hf : ∀ u, (f u).All (Grows u)) : (r.andThen f).All (Grows s) :=
  hr.andThen fun u hu => (hf u).mono fun _ h => hu.trans h

theorem grows_sendBlock (bs : List Byte) (s : State) : (sendBlock bs s).All (Grows s) := by
  induction bs generalizing s with
  | nil => exact .refl s
  | cons b bs ih => exact (grows_sendFrame _ b s).grows_andThen ih

theorem grows_sendLutPart (fast : Bool) (k : LutKey) (s : State) :
    (sendLutPart fast k s).All (Grows s) :=
  (grows_sendFrame _ _ s).grows_andThen (grows_sendBlock _)

theorem grows_setLut (fast : Bool) (s : State) : (setLut fast s).All (Grows s) :=
  (grows_sendLutPart fast .vcom s).grows_andThen fun s =>
    (grows_sendLutPart fast .ww s).grows_andThen fun s =>
      (grows_sendLutPart fast .bw s).grows_andThen fun s =>
        (grows_sendLutPart fast .wb s).grows_andThen fun s => grows_sendLutPart fast .bb s

theorem grows_pulseReset (s : State) : (pulseReset s).All (Grows s) :=
  (grows_setLine .rst .low s).grows_andThen fun s =>
    ((grows_setLine .rst .high (sleep Config.resetLowMs s)).mono fun _ h =>
      (grows_sleep _ s).trans h).grows_andThen fun s => grows_sleep Config.resetHighMs s

theorem grows_pollBusy (n : Nat) (s : State) : (pollBusy n s).All (Grows s) := by
  have h : Grows s ((s.emit (.rd (s.env.level 0))).tick 1 1) := ⟨[.rd (s.env.level 0)], rfl, rfl⟩
  unfold pollBusy readLine
  split
  · exact .of_log rfl
  · dsimp only
    split
    · exact h
    · split
      · exact h
      · exact h.trans (grows_sleep _ _)

/-- Every line only appends to the trace, and what it appends is framed. -/
theorem perform_grows (w : Work) (s : State) : (w.perform s).All (Grows s) := by
  cases w with
  | command b => exact grows_sendFrame _ b s
  | data b => exact grows_sendFrame _ b s
  | block bs => exact grows_sendBlock bs s
  | fbBlock n => exact grows_sendBlock _ s
  | resetPulse => exact grows_pulseReset s
  | delay ms => exact grows_sleep ms s
  | wait n => exact grows_pollBusy n s
  | lut fast => exact grows_setLut fast s
  | encode =>
    by_cases hp : s.panelSized = true
    · rw [encode_done hp]
      exact Grows.of_log (putFb_log s _)
    · rw [encode_raised hp]
      exact .refl s
  | packRegion src x y h w => exact Grows.of_log (putFb_log s _)
  | beginInit => exact .of_log rfl
  | endInit => exact .of_log rfl
  | endSleep => exact .of_log rfl
  | commitFrame => exact .of_log rfl
  | commitPartial => exact .of_log rfl

/-- The same of a run of lines. -/
theorem runWork_grows (ws : List Work) (s : State) : Grows s (runWork ws s) := by
  refine runWork_induct (P := fun _ => Grows s) (Q := Grows s) ?_ ?_ ?_ ?_ ws s (.refl s)
  · exact fun u h => h.trans (.of_log rfl)
  · intro w ws u u' h hw
    have := perform_grows w u
    rw [hw] at this
    exact h.trans this
  · intro w ws u e u' h hw
    have := perform_grows w u
    rw [hw] at this
    exact (h.trans this).trans (.of_log rfl)
  · intro w ws u n u' h hw
    have := perform_grows w u
    rw [hw] at this
    exact (h.trans this).trans (.of_log rfl)

end Sys2Proof.Machine
end

