-- ==== Sys2Proof/Tests/Slice0.lean ====
section
/-! SUPPORT. The tests: words of the request table, ill-formed terms refused, vectors of
95_test_vectors.md under its made-up test instantiation TI, and for each obligation with hypotheses a
state that meets them. -/

namespace Sys2Proof.Tests

open Sys2Proof.Machine

/-! ### Small states -/

/-- The tables and script of TI (95_test_vectors.md 2.0). The command bytes and levels are of no account. -/
def ti : Params where
  cmdLevel := .low
  idleLevel := .high
  cmdDeepSleep := 0x07#8
  sleepCheck := 0xA5#8
  cmdDtx1 := 0x10#8
  cmdDtx2 := 0x13#8
  cmdRefresh := 0x12#8
  cmdPdtx1 := 0x14#8
  cmdPdtx2 := 0x15#8
  cmdPrefresh := 0x16#8
  cmdLut := ⟨0x20#8, 0x21#8, 0x22#8, 0x23#8, 0x24#8⟩
  lutNormal := ⟨[0xA0#8, 0xA1#8], [0xA2#8, 0xA3#8], [0xA4#8, 0xA5#8], [0xA6#8, 0xA7#8], [0xA8#8, 0xA9#8]⟩
  lutFast := ⟨[0xB0#8, 0xB1#8], [0xB2#8, 0xB3#8], [0xB4#8, 0xB5#8], [0xB6#8, 0xB7#8], [0xB8#8, 0xB9#8]⟩
  initScript := [.cmd 0x01#8, .dat 0x03#8, .cmd 0x30#8, .dat 0x3A#8]

/-- The constructed block with the tables of TI. -/
def fresh : State := .construct 32 true none ti

/-- Answers for the coming micro-operations (true: it fails) and levels for the coming readings. -/
def withEnv (s : State) (fails : List Bool) (levels : List Level) : State :=
  { s with env := ⟨fails, 0, levels, 0⟩ }

/-- Ready, with a panel-sized black image and, if asked for, a cached frame. -/
def readyState (cached : Bool) : State :=
  { fresh with lifecycle := .ready, haveLast := cached, regs := ⟨0, 0, 0, 0, 176, 264⟩ }

/-- The same with region (x, y, h, w) in the operand registers. -/
def withRegion (s : State) (x y h w : Word) : State :=
  { s with regs := { s.regs with rx := x, ry := y, rh := h, rw := w } }

/-- `n` successes. -/
def successes (n : Nat) : List Bool := List.replicate n false

/-- A value of the next state. -/
def after {α : Type} (o : Host.Outcome State Fault Refusal) (f : State → α) : Option α :=
  match o with
  | .next t => some (f t)
  | .fault _ => none
  | .refused _ => none

/-- The refusal, if it is one. -/
def refusal (o : Host.Outcome State Fault Refusal) : Option Refusal :=
  match o with
  | .next _ => none
  | .fault _ => none
  | .refused r => some r

/-- `C(b)` under TI: DC at 0. -/
def cmd (b : Byte) : List Event := [.set .dc .low, .wr b]

/-- `D(b)` under TI: DC at 1. -/
def dat (b : Byte) : List Event := [.set .dc .high, .wr b]

/-- The 30 events of `SET_LUT normal` under TI (V-IN1), written out with the command bytes above. -/
def normalTable : List Event :=
  List.flatten [cmd 0x20#8, dat 0xA0#8, dat 0xA1#8, cmd 0x21#8, dat 0xA2#8, dat 0xA3#8,
    cmd 0x22#8, dat 0xA4#8, dat 0xA5#8, cmd 0x23#8, dat 0xA6#8, dat 0xA7#8,
    cmd 0x24#8, dat 0xA8#8, dat 0xA9#8]

/-! ### Decoding (R61 to R64) -/

/-- V-PE1, V-EX1, V-EX2 and the words of R62 with imm8 = 0. -/
theorem test_decode_plain_words :
    decode 0b0000000100010010#16 = .ok (.sendCommand 0x12#8) ∧
    decode 0b0000001000000000#16 = .ok (.sendData 0x00#8) ∧
    decode 0b0000001100000000#16 = .ok .reset ∧ decode 0b0000010000000000#16 = .ok .waitIdle ∧
    decode 0b0000100000000000#16 = .ok .encode ∧ decode 0b0001000000000000#16 = .ok .init ∧
    decode 0b0001000100000000#16 = .ok .sleep ∧ decode 0b0010000000000000#16 = .ok .displayFrame ∧
    decode 0b0010001000000000#16 = .ok .smartUpdate := by decide

/-- V-EX3 to V-EX5 and the same with the flag 0. -/
theorem test_decode_flag_words :
    decode 0b0000100100000000#16 = .ok (.encodeRegion .pix) ∧
    decode 0b0000100100000001#16 = .ok (.encodeRegion .last) ∧
    decode 0b0001001000000000#16 = .ok (.setLut false) ∧
    decode 0b0001001000000001#16 = .ok (.setLut true) ∧
    decode 0b0010000100000000#16 = .ok (.displayPartial false) ∧
    decode 0b0010000100000001#16 = .ok (.displayPartial true) := by decide

/-- V-EX7 to V-EX9. -/
theorem test_decode_illegal_words :
    decode 0x0000#16 = .error (.unknownOp 0x00#8) ∧ decode 0x0A00#16 = .error (.unknownOp 0x0A#8) ∧
    decode 0xFFFF#16 = .error (.unknownOp 0xFF#8) ∧
    decode 0x0480#16 = .error (.reservedBits 0x04#8 0x80#8) ∧
    decode 0x0902#16 = .error (.reservedBits 0x09#8 0x02#8) ∧
    decode 0x2103#16 = .error (.reservedBits 0x21#8 0x03#8) := by decide

/-- The encoder writes the words of R62. -/
theorem test_encode_words :
    encode (.sendCommand 0xFF#8) = 0x01FF#16 ∧ encode .waitIdle = 0x0400#16 ∧
    encode (.encodeRegion .last) = 0x0901#16 ∧ encode (.displayPartial true) = 0x2101#16 := by decide

/-- No word is covered by two rows of the opcode table. -/
theorem test_rows_do_not_overlap :
    opTable.Pairwise fun a b => a.mtch &&& (a.mask &&& b.mask) ≠ b.mtch &&& (a.mask &&& b.mask) := by
  decide

/-- The table word of the host's interface, also with bits above it set. -/
theorem test_table_word :
    decodeTableWord 16 0x1201 = some (.setLut true) ∧ decodeTableWord 16 0x11201 = some (.setLut true) ∧
    decodeTableWord 16 0x1202 = none := by decide

/-! ### Well-formedness -/

theorem test_ill_formed_words :
    legalWord 0x0301#16 = false ∧ legalWord 0x0902#16 = false ∧ legalWord 0x0500#16 = false ∧
    legalWord 0x2201#16 = false ∧ legalWord 0x02FF#16 = true := by decide

theorem test_ill_formed_image :
    HostAct.imageComplete (.loadPix 2 2 [1, 0, 1]) = false ∧
    HostAct.imageComplete (.loadPix 2 2 [1, 0, 1, 0]) = true := by decide

theorem test_ill_formed_bound : waitBoundOk (some 0) = false ∧ waitBoundOk (some 1) = true := by decide

/-! ### Requests, one step each -/

/-- V-PE1, presented as a word. -/
theorem test_send_command :
    after (step ((withEnv fresh [false, false] []).withFetchWord 16 0x0112))
        (fun t => (t.trace, t.dc, t.status, t.pos)) =
      some ([.set .dc .low, .wr 0x12#8], some .low, some .ok, 1) := by decide

/-- R27, R174: a WAIT_IDLE that reads busy does not count yet, and counts when it ends. -/
theorem test_position_waits :
    after (step ((withEnv fresh [false] [.low]).withFetchWord 16 0x0400)) (fun t => (t.pos, t.requestsLeft)) =
      some (0, 1) ∧
    after (step { withEnv fresh [false] [.high] with running := some [.wait 1] })
      (fun t => (t.pos, t.requestsLeft)) = some (1, 0) := by decide

/-- R23, R71: the second pixel of a larger image is gone after a smaller one (log 24). -/
theorem test_smaller_image :
    let s := ((fresh.loadPix 2 1 [1, 1]).loadPix 1 1 [1]).writeReg 4 2
    s.readPix 0 = some true ∧ s.readPix 1 = some false ∧ s.readPix 2 = none := by decide

/-- V-PE10. -/
theorem test_send_command_fails :
    after (exec (.sendCommand 0xAB#8) (withEnv fresh [true] [])) (fun t => (t.trace, t.dc, t.err)) =
      some ([], none, 0b0010#4) := by decide

/-- V-PE2. -/
theorem test_send_data :
    after (exec (.sendData 0x00#8) { withEnv fresh [false, false] [] with dc := some .high })
        (fun t => (t.trace, t.dc, t.status)) =
      some ([.set .dc .high, .wr 0x00#8], some .high, some .ok) := by decide

/-- V-PE11. -/
theorem test_send_data_fails :
    after (exec (.sendData 0xAB#8) (withEnv fresh [false, true] [])) (fun t => (t.trace, t.dc, t.status)) =
      some ([.set .dc .high], some .high, some (.failed (.transport .writeByte))) := by decide

/-- V-PE3, V-IN10. -/
theorem test_reset :
    after (exec .reset { withEnv fresh [false, false] [] with lifecycle := .sleeping })
        (fun t => (t.trace, t.rst, t.lifecycle)) =
      some ([.set .rst .low, .slp 200, .set .rst .high, .slp 200], some .high, .sleeping) := by decide

/-- V-PE12. -/
theorem test_reset_fails :
    after (exec .reset (withEnv fresh [false, true] [])) (fun t => (t.trace, t.rst, t.err)) =
      some ([.set .rst .low, .slp 200], some .low, 0b0010#4) := by decide

/-- V-PE4. -/
theorem test_wait_idle :
    after (exec .waitIdle (withEnv fresh [false] [.high])) (fun t => (t.trace, t.status)) =
      some ([.rd .high], some .ok) := by decide

/-- V-PE8. -/
theorem test_wait_idle_bound :
    after (exec .waitIdle { withEnv fresh [false] [.low] with waitBound := some 1 })
        (fun t => (t.trace, t.status, t.err)) =
      some ([.rd .low], some (.failed (.busyTimeout 1)), 0b0100#4) := by decide

/-- V-IN3. -/
theorem test_init :
    after (exec .init (withEnv fresh (successes 40) [])) (fun t => (t.trace, t.lifecycle)) =
      some (List.flatten [[.set .rst .low, .slp 200, .set .rst .high, .slp 200], cmd 0x01#8, dat 0x03#8,
        cmd 0x30#8, dat 0x3A#8, normalTable], .ready) := by decide +kernel

/-- V-IN7. -/
theorem test_init_fails :
    after (exec .init (withEnv fresh [false, true] [])) (fun t => (t.trace, t.lifecycle, t.rst)) =
      some ([.set .rst .low, .slp 200], .initializing, some .low) := by decide

/-- V-IN5. -/
theorem test_sleep :
    after (exec .sleep (withEnv (readyState true) (successes 4) []))
        (fun t => (t.trace, t.lifecycle, t.haveLast)) =
      some ([.set .dc .low, .wr 0x07#8, .set .dc .high, .wr 0xA5#8], .sleeping, true) := by decide

/-- V-IN11. -/
theorem test_sleep_fails :
    after (exec .sleep (withEnv (readyState true) [false, false, false, true] []))
        (fun t => (t.trace, t.lifecycle, t.err)) =
      some ([.set .dc .low, .wr 0x07#8, .set .dc .high], .ready, 0b0010#4) := by decide

/-- V-IN1. -/
theorem test_set_lut_normal :
    after (exec (.setLut false) (withEnv fresh (successes 30) [])) (fun t => (t.trace, t.lifecycle)) =
      some (normalTable, .uninitialized) := by decide +kernel

/-- V-IN2: the last byte of the fast table. -/
theorem test_set_lut_fast :
    after (exec (.setLut true) (withEnv fresh (successes 30) [])) (fun t => (t.log.head?, t.log.length)) =
      some (some (.wr 0xB9#8), 30) := by decide +kernel

/-- V-CO21. -/
theorem test_encode_transposed :
    after (exec .encode { fresh with regs := ⟨0, 0, 0, 0, 264, 176⟩ }) (fun t => (t.status, t.err, t.fbLen)) =
      some (some (.failed (.dimension 264 176)), 0b0001#4, 0) := by decide

/-- The white pixels of columns 8 to 23, rows 2 and 3, but for (10, 3): what V-CO23 reads of W-(10,3). -/
def stripe : Memory Bool :=
  (List.range 16).map (fun i => (8 + i + 2 * 176, true)) ++
    ((List.range 16).filter (· != 2)).map (fun i => (8 + i + 3 * 176, true))

/-- V-CO23. -/
theorem test_encode_region :
    after (exec (.encodeRegion .pix) { withRegion (readyState false) 8 2 2 16 with pix := stripe })
        (fun t => (t.fb.units unlistedByte 4, t.fbLen, t.trace)) =
      some ([0xFF#8, 0xFF#8, 0xDF#8, 0xFF#8], 4, []) := by decide +kernel

/-- V-CO27, V-CO28, V-CO29, V-CO31. -/
theorem test_encode_region_refused :
    refusal (exec (.encodeRegion .pix) (withRegion (readyState false) 8 2 2 10)) =
      some .widthNotMultipleOf8 ∧
    refusal (exec (.encodeRegion .pix) (withRegion (readyState false) 168 0 1 16)) =
      some .regionOutsideSource ∧
    refusal (exec (.encodeRegion .last) fresh) = some .noLastFrame ∧
    refusal (exec (.encodeRegion .pix) { fresh with regs := ⟨0, 0, 100, 800, 1000, 1000⟩ }) =
      some .bufferTooLong := by decide

/-- V-DF4. -/
theorem test_display_frame_wrong_size :
    after (exec .displayFrame { withEnv (readyState true) (successes 30) [] with
        regs := ⟨0, 0, 0, 0, 264, 176⟩, count := 3 }) (fun t => (t.trace, t.status, t.count)) =
      some (normalTable, some (.failed (.dimension 264 176)), 3) := by decide +kernel

/-- V-DF6. -/
theorem test_display_frame_refused :
    refusal (exec .displayFrame { fresh with lifecycle := .sleeping }) = some .displayWhileNotReady := by
  decide

/-- V-DP1, with LAST white in the two rows that are read. -/
theorem test_display_partial :
    after (exec (.displayPartial false)
        { withEnv (withRegion (readyState true) 9 2 2 10) (successes 71) [.high] with
          pix := stripe, last := (List.range 400).map fun i => (352 + i, true) })
        (fun t => (t.trace.length, (t.log.drop 17).take 8, t.count, t.fb.units unlistedByte 4, t.regs.rx)) =
      some (71, [.wr 0x16#8, .set .dc .low, .wr 0xFF#8, .set .dc .high, .wr 0xDF#8, .set .dc .high,
        .wr 0xFF#8, .set .dc .high], 1, [0xFF#8, 0xFF#8, 0xDF#8, 0xFF#8], 9) := by decide +kernel

/-- V-DP9 to V-DP12. -/
theorem test_display_partial_refused :
    refusal (exec (.displayPartial true) (readyState false)) = some .noLastFrame ∧
    refusal (exec (.displayPartial false) (withRegion (readyState true) 168 0 1 9)) =
      some .regionOutsidePanel ∧
    refusal (exec (.displayPartial false) (withRegion (readyState true) 0 263 2 8)) =
      some .regionOutsidePanel ∧
    refusal (exec (.displayPartial false) { readyState true with regs := ⟨0, 0, 0, 0, 100, 100⟩ }) =
      some .imageNotPanelSized := by decide

/-- V-SU13, V-SU15. -/
theorem test_smart_update_refused :
    refusal (exec .smartUpdate { readyState true with regs := ⟨0, 0, 0, 0, 100, 100⟩ }) =
      some .imageNotPanelSized ∧
    refusal (exec .smartUpdate { readyState true with lifecycle := .sleeping }) =
      some .displayWhileNotReady := by decide

/-- V-SU14. -/
theorem test_smart_update_first :
    after (exec .smartUpdate { withEnv fresh (successes 70) [] with regs := ⟨0, 0, 0, 0, 100, 100⟩ })
        (fun t => (t.trace.length, t.lifecycle, t.haveLast, t.status)) =
      some (72, .ready, false, some (.failed (.dimension 100 100))) := by decide +kernel

/-! ### Operand forms -/

/-- V-HD1, V-HD2, V-HD3, V-HD5. -/
theorem test_header :
    Region.header ⟨0, 0, 264, 176⟩ = [0x00#8, 0x00#8, 0x00#8, 0x00#8, 0x01#8, 0x08#8, 0x00#8, 0xB0#8] ∧
    Region.header ⟨8, 260, 4, 16⟩ = [0x00#8, 0x08#8, 0x01#8, 0x04#8, 0x00#8, 0x04#8, 0x00#8, 0x10#8] ∧
    Region.header ⟨168, 263, 1, 8⟩ = [0x00#8, 0xA8#8, 0x01#8, 0x07#8, 0x00#8, 0x01#8, 0x00#8, 0x08#8] ∧
    Region.header ⟨16, 256, 1, 8⟩ = [0x00#8, 0x10#8, 0x01#8, 0x00#8, 0x00#8, 0x01#8, 0x00#8, 0x08#8] := by
  decide

/-- V-AL2, V-AL5, V-AL6, V-AL7, V-AL9, V-AL10. -/
theorem test_align :
    (rd8 16, ru8 24) = (16, 24) ∧ (rd8 7, ru8 2) = (0, 8) ∧ (rd8 13, ru8 8) = (8, 8) ∧
    (rd8 5, ru8 0) = (0, 0) ∧ (rd8 172, ru8 8) = (168, 8) ∧ (rd8 168, ru8 9) = (168, 16) := by decide

/-- V-CO4 and V-CO8. -/
theorem test_pack :
    pack (fun x y => if y = 0 then x == 0 || x == 15 else decide (x < 8)) ⟨0, 0, 2, 16⟩ =
      [0x80#8, 0x01#8, 0xFF#8, 0x00#8] ∧
    pack (fun x y => (x + y) % 2 == 0) ⟨0, 0, 2, 8⟩ = [0xAA#8, 0x55#8] := by decide +kernel

/-- V-CO5: the masks 0x80 to 0x01. -/
theorem test_pack_masks :
    (List.range 8).map (fun k => pack (fun x _ => x == k) ⟨0, 0, 1, 8⟩) =
      [[0x80#8], [0x40#8], [0x20#8], [0x10#8], [0x08#8], [0x04#8], [0x02#8], [0x01#8]] := by
  decide +kernel

/-- V-CO13: the collision of R115, in the formula as written. -/
theorem test_pack_collision :
    packLoop (fun x y => x == 0 && y == 0) ⟨0, 0, 2, 4⟩ = [0x80#8] ∧
    packLoop (fun x y => x == 0 && y == 1) ⟨0, 0, 2, 4⟩ = [0x80#8] := by decide +kernel

/-- R133's worked examples. -/
theorem test_rect :
    Box.rect ⟨10, 3, 13, 5⟩ = ⟨8, 3, 2, 8⟩ ∧ Box.rect ⟨0, 0, 176, 264⟩ = ⟨0, 0, 264, 176⟩ ∧
    Box.rect ⟨7, 100, 9, 101⟩ = ⟨0, 100, 1, 16⟩ ∧ Box.rect ⟨175, 263, 176, 264⟩ = ⟨168, 263, 1, 8⟩ := by
  decide

/-- The box of V-SU1 in a small frame, and no box for equal frames. -/
theorem test_diff_box :
    diffBox 24 6 [] [(10 + 3 * 24, true), (12 + 4 * 24, true)] = some ⟨10, 3, 13, 5⟩ ∧
    diffBox 24 6 [(7, true)] [(7, true)] = none := by decide +kernel

/-- R134's worked examples: LAST white in rows 3 and 4 but for (11, 3). -/
theorem test_eligible :
    let s : State := { fresh with last := ((List.range 400).filter (· != 11)).map fun i => (528 + i, true) }
    s.eligible ⟨10, 3, 13, 5⟩ = false ∧ s.eligible ⟨12, 3, 13, 5⟩ = true ∧
      ({ s with cfgFast := false } : State).eligible ⟨12, 3, 13, 5⟩ = false := by decide +kernel

/-! ### Witnesses: the hypotheses of the obligations can be met -/

theorem ends_of_exec {i : Instr} {s t : State} (h : exec i s = .next t) (hr : t.running = none) :
    Ends i s t := ⟨t, 0, h, rfl, hr⟩

theorem quiet_withEnv (s : State) (n : Nat) (levels : List Level) : (withEnv s (successes n) levels).Quiet n :=
  quiet_of_replicate rfl

theorem witness_LegalWordsDecodeToTheirRow :
    ∃ w i, decode w = .ok i ∧ ∃ r ∈ opTable, r.covers w = true :=
  ⟨0x1201#16, .setLut true, by decide, ⟨"SET_LUT", 0x1200#16, 0xFFFE#16⟩, by decide, by decide⟩

theorem witness_IllegalWordRaisesIllegalRequest :
    ∃ (s : State) (w : Word) (rest : List HostAct), s.running = none ∧ s.host = .request w :: rest ∧
      legalWord w = false :=
  ⟨{ fresh with host := [.request 0x0301] }, 0x0301, [], rfl, rfl, by decide⟩

theorem witness_StepPerformsThePresentedRequest :
    ∃ (s : State) (w : Word) (rest : List HostAct) (i : Instr), s.running = none ∧
      s.host = .request w :: rest ∧ decode w = .ok i :=
  ⟨{ fresh with host := [.request 0x0300] }, 0x0300, [], .reset, rfl, rfl, by decide⟩

theorem witness_HostHasNoMoveWhileARequestRuns :
    ∃ (s : State) (ws : List Work), s.running = some ws ∧ s.host ≠ [] :=
  ⟨{ fresh with running := some [.wait 1], host := [.request 0x0300] }, [.wait 1], rfl, by decide⟩

theorem witness_IdleBlockKeepsAllItsState : ∃ s : State, s.running = none ∧ s.host = [] :=
  ⟨fresh, rfl, rfl⟩

/-- The last register that takes a write, and the first that does not exist. -/
theorem witness_HostRegisterPort :
    ∃ (s s' : State) (v : Word), s.running = none ∧ s.host = [.writeReg 5 v] ∧
      s'.running = none ∧ s'.host = [.writeReg 6 v] :=
  ⟨{ fresh with host := [.writeReg 5 7] }, { fresh with host := [.writeReg 6 7] }, 7, rfl, rfl, rfl, rfl⟩

/-- An empty image, an image of one pixel, and one intensity too few. -/
theorem witness_LoadPixReducesIntensitiesToBits :
    ∃ s s' s'' : State, (s.running = none ∧ s.host = [.loadPix 0 5 []] ∧ ([] : List Nat).length = 0 * 5) ∧
      (s'.running = none ∧ s'.host = [.loadPix 1 1 [255]] ∧ [255].length = 1 * 1) ∧
      (s''.running = none ∧ s''.host = [.loadPix 2 1 [255]] ∧ [255].length ≠ 2 * 1) :=
  ⟨{ fresh with host := [.loadPix 0 5 []] }, { fresh with host := [.loadPix 1 1 [255]] },
    { fresh with host := [.loadPix 2 1 [255]] }, ⟨rfl, rfl, rfl⟩, ⟨rfl, rfl, rfl⟩, rfl, rfl, by decide⟩

/-- The last address of a 176 x 264 image and the one past it. -/
theorem witness_HostPixelWriteTouchesOnePixel :
    ∃ s s' : State, (s.running = none ∧ s.host = [.writePix 46463 1] ∧ s.pix.wf unlistedPixel = true ∧
        46463 < s.regs.pixW.toNat * s.regs.pixH.toNat) ∧
      s'.running = none ∧ s'.host = [.writePix 46464 1] ∧ s'.pix.wf unlistedPixel = true ∧
        s'.regs.pixW.toNat * s'.regs.pixH.toNat ≤ 46464 :=
  ⟨{ readyState false with host := [.writePix 46463 1] }, { readyState false with host := [.writePix 46464 1] },
    by decide, by decide⟩

/-- The three clauses of a request of two micro-operations. -/
theorem two_micro_ops :
    ∃ s s' s'' : State, (s.env.fails 0 = false ∧ s.env.fails 1 = false) ∧ s'.env.fails 0 = true ∧
      s''.env.fails 0 = false ∧ s''.env.fails 1 = true :=
  ⟨withEnv fresh [false, false] [], withEnv fresh [true] [], withEnv fresh [false, true] [],
    by decide, by decide, by decide⟩

theorem witness_SendCommandSetsDcThenWritesTheByte :
    ∃ s s' s'' : State, (s.env.fails 0 = false ∧ s.env.fails 1 = false) ∧ s'.env.fails 0 = true ∧
      s''.env.fails 0 = false ∧ s''.env.fails 1 = true := two_micro_ops

theorem witness_SendDataSetsDcThenWritesTheByte :
    ∃ s s' s'' : State, (s.env.fails 0 = false ∧ s.env.fails 1 = false) ∧ s'.env.fails 0 = true ∧
      s''.env.fails 0 = false ∧ s''.env.fails 1 = true := two_micro_ops

theorem witness_ResetPulsesTheResetLine :
    ∃ s s' s'' : State, (s.env.fails 0 = false ∧ s.env.fails 1 = false) ∧ s'.env.fails 0 = true ∧
      s''.env.fails 0 = false ∧ s''.env.fails 1 = true := two_micro_ops

/-- No busy reading without a bound; two busy readings with a bound of 3, the least that allows them. -/
theorem witness_WaitIdleReturnsAtTheFirstIdleReading :
    ∃ s s' : State, (s.Quiet 1 ∧ s.IdleAfter 0 ∧ boundReached s.waitBound 0 = false) ∧
      s'.Quiet 3 ∧ s'.IdleAfter 2 ∧ boundReached s'.waitBound 2 = false :=
  ⟨withEnv fresh (successes 1) [.high],
    { withEnv fresh (successes 3) [.low, .low, .high] with waitBound := some 3 },
    ⟨quiet_withEnv _ _ _, ⟨by decide, by decide⟩, rfl⟩,
    quiet_of_replicate rfl, ⟨by decide, by decide⟩, rfl⟩

theorem witness_WaitIdleHangsWhileBusy :
    ∃ s : State, s.waitBound = none ∧ s.Quiet 3 ∧ ∀ k, k < 3 → s.env.level k ≠ s.par.idleLevel :=
  ⟨withEnv fresh (successes 3) [.low, .low, .low], rfl, quiet_withEnv _ _ _, by decide⟩

/-- The bounds 1 and 2. -/
theorem witness_BusyTimeoutAtTheBound :
    ∃ s s' : State, (s.waitBound = some (0 + 1) ∧ s.Quiet 1 ∧ ∀ k, k < 1 → s.env.level k ≠ s.par.idleLevel) ∧
      s'.waitBound = some (1 + 1) ∧ s'.Quiet 2 ∧ ∀ k, k < 2 → s'.env.level k ≠ s'.par.idleLevel :=
  ⟨{ withEnv fresh (successes 1) [.low] with waitBound := some 1 },
    { withEnv fresh (successes 2) [.low, .low] with waitBound := some 2 },
    ⟨rfl, quiet_of_replicate rfl, by decide⟩, rfl, quiet_of_replicate rfl, by decide⟩

/-- The first poll failing; a later poll failing, idle, busy one below a bound of 3, and busy at it. -/
theorem witness_PollOfARunningRequest :
    (∃ s : State, s.env.fails 0 = true) ∧
    (∃ s : State, s.running = some [.wait 1] ∧ s.env.fails 0 = true) ∧
    (∃ s : State, s.running = some [.wait 1, .commitFrame] ∧ s.env.fails 0 = false ∧
      s.env.level 0 = s.par.idleLevel) ∧
    (∃ s : State, s.running = some [.wait 1] ∧ s.env.fails 0 = false ∧
      s.env.level 0 ≠ s.par.idleLevel ∧ boundReached s.waitBound (1 + 1) = false) ∧
    ∃ s : State, s.running = some [.wait 2] ∧ s.env.fails 0 = false ∧
      s.env.level 0 ≠ s.par.idleLevel ∧ boundReached s.waitBound (2 + 1) = true :=
  ⟨⟨withEnv fresh [true] [], by decide⟩,
    ⟨{ withEnv fresh [true] [] with running := some [.wait 1] }, by decide⟩,
    ⟨{ withEnv fresh [false] [.high] with running := some [.wait 1, .commitFrame] }, by decide⟩,
    ⟨{ withEnv fresh [false] [.low] with running := some [.wait 1], waitBound := some 3 }, by decide⟩,
    ⟨{ withEnv fresh [false] [.low] with running := some [.wait 2], waitBound := some 3 }, by decide⟩⟩

theorem witness_SetLutSendsTheFiveParts :
    ∃ s s' : State, s.Quiet (microOps (lutEvents s.par false)) ∧ s'.Quiet (microOps (lutEvents s'.par true)) :=
  ⟨withEnv fresh (successes (microOps (lutEvents ti false))) [],
    withEnv fresh (successes (microOps (lutEvents ti true))) [], quiet_withEnv _ _ _, quiet_withEnv _ _ _⟩

/-- The script of V-IN12, which waits once. -/
def waitingScript : State :=
  { fresh with par := { ti with initScript := [.cmd 0x04#8, .wait, .cmd 0x00#8, .dat 0xAF#8] } }

theorem witness_InitSendsResetScriptAndNormalTable :
    ∃ s : State, s.Quiet (microOps (initEvents s.par)) ∧ s.IdleFor (busyReads (initEvents s.par)) ∧
      busyReads (initEvents s.par) = 1 :=
  ⟨withEnv waitingScript (successes (microOps (initEvents waitingScript.par))) [.high],
    quiet_withEnv _ _ _, by unfold State.IdleFor; decide +kernel, by decide +kernel⟩

/-- An INIT that ends Ready and one that ends Initializing. -/
theorem witness_InitEndsReadyOrInitializing :
    ∃ s t s' t' : State, (Ends .init s t ∧ t.status = some .ok) ∧ Ends .init s' t' ∧
      t'.lifecycle = .initializing :=
  ⟨withEnv fresh (successes 40) [], runWork (initWork ti) (withEnv fresh (successes 40) []),
    withEnv fresh [false, true] [], runWork (initWork ti) (withEnv fresh [false, true] []),
    ⟨ends_of_exec rfl (by decide +kernel), by decide +kernel⟩, ends_of_exec rfl (by decide), by decide⟩

theorem witness_SleepFromReadyOnly :
    ∃ s s' s'' : State, (s.lifecycle = .ready ∧ s.Quiet 4) ∧ (s'.lifecycle = .ready ∧ ¬ s'.Quiet 4) ∧
      s''.lifecycle ≠ .ready :=
  ⟨withEnv (readyState false) (successes 4) [],
    withEnv (readyState false) [false, false, false, true] [], fresh,
    ⟨rfl, quiet_withEnv _ _ _⟩, ⟨rfl, fun h => absurd (h 3 (by decide)) (by decide)⟩, by decide⟩

/-- Every request ends somewhere: each clause of the table. -/
theorem witness_LifecycleChangesOnlyAsTheTableSays :
    ((∃ s t, Ends .init s t) ∧ (∃ s t, Ends .sleep s t) ∧ (∃ s t, Ends .displayFrame s t) ∧
      (∃ s t, Ends (.displayPartial true) s t) ∧ ∃ s t, Ends .smartUpdate s t) ∧
    (∃ s t, Ends (.sendCommand 0x12#8) s t) ∧ (∃ s t, Ends (.sendData 0xFF#8) s t) ∧
    (∃ s t, Ends .reset s t) ∧ (∃ s t, Ends .waitIdle s t) ∧ (∃ s t, Ends .encode s t) ∧
    (∃ s t, Ends (.encodeRegion .pix) s t) ∧ ∃ s t, Ends (.setLut true) s t :=
  ⟨⟨⟨withEnv fresh [true] [], _, ends_of_exec rfl (by decide)⟩,
      ⟨withEnv (readyState true) [true] [], _, ends_of_exec rfl (by decide)⟩,
      ⟨withEnv (readyState true) [true] [], _, ends_of_exec rfl (by decide)⟩,
      ⟨withEnv (readyState true) [true] [], _, ends_of_exec rfl (by decide)⟩,
      ⟨withEnv (readyState false) [true] [], _, ends_of_exec rfl (by decide)⟩⟩,
    ⟨withEnv fresh [true] [], _, ends_of_exec rfl (by decide)⟩,
    ⟨withEnv fresh [true] [], _, ends_of_exec rfl (by decide)⟩,
    ⟨withEnv fresh [true] [], _, ends_of_exec rfl (by decide)⟩,
    ⟨withEnv fresh [true] [], _, ends_of_exec rfl (by decide)⟩,
    ⟨fresh, _, ends_of_exec rfl (by decide)⟩,
    ⟨fresh, _, ends_of_exec rfl (by decide)⟩,
    ⟨withEnv fresh [true] [], _, ends_of_exec rfl (by decide)⟩⟩

theorem witness_DisplayRequestsAreRefusedWhileNotReady :
    ∃ s s' s'' : State, s.lifecycle = .sleeping ∧ s'.lifecycle = .initializing ∧
      s''.lifecycle = .uninitialized :=
  ⟨{ fresh with lifecycle := .sleeping }, { fresh with lifecycle := .initializing }, fresh, rfl, rfl, rfl⟩

/-- The right size, one column too many, one row too few, and no image. -/
theorem witness_EncodePacksThePanelOrRaisesDimensionError :
    ∃ s s' s'' : State, (s.regs.pixW = 176#16 ∧ s.regs.pixH = 264#16) ∧
      ¬ (s'.regs.pixW = 176#16 ∧ s'.regs.pixH = 264#16) ∧ s'.regs.pixH = 264#16 ∧
      ¬ (s''.regs.pixW = 176#16 ∧ s''.regs.pixH = 264#16) ∧ s''.regs.pixW = 176#16 :=
  ⟨readyState false, { fresh with regs := ⟨0, 0, 0, 0, 177, 264⟩ },
    { fresh with regs := ⟨0, 0, 0, 0, 176, 263⟩ }, by decide, by decide, rfl, by decide, rfl⟩

/-- The last column of bytes and the last row, from each source; and the whole panel, 5808 bytes. -/
theorem witness_EncodeRegionPacksTheRegion :
    ∃ s s' : State, (∀ src : Source, (src = .last → s.haveLast = true) ∧ s.regs.rw.toNat % 8 = 0 ∧
        s.regs.rx.toNat + s.regs.rw.toNat ≤ s.srcWidth src ∧
        s.regs.ry.toNat + s.regs.rh.toNat ≤ s.srcHeight src ∧
        s.regs.rw.toNat / 8 * s.regs.rh.toNat ≤ 5808) ∧
      s'.haveLast = true ∧ s'.regs.rw.toNat % 8 = 0 ∧
        s'.regs.rx.toNat + s'.regs.rw.toNat ≤ s'.srcWidth .last ∧
        s'.regs.ry.toNat + s'.regs.rh.toNat ≤ s'.srcHeight .last ∧
        s'.regs.rw.toNat / 8 * s'.regs.rh.toNat = 5808 :=
  ⟨withRegion (readyState true) 168 263 1 8, withRegion (readyState true) 0 0 264 176,
    fun src => by cases src <;> decide, by decide⟩

/-- Each refusal at the first value that meets it: width 1, one column or one row past the source, and
5809 bytes. -/
theorem witness_EncodeRegionRefusals :
    (∃ s : State, s.haveLast = false) ∧
    (∃ s : State, s.haveLast = true ∧ s.regs.rw.toNat % 8 ≠ 0) ∧
    (∃ s : State, s.haveLast = true ∧ s.regs.rw.toNat % 8 = 0 ∧
      s.regs.rx.toNat + s.regs.rw.toNat = s.srcWidth .last + 1) ∧
    (∃ s : State, s.haveLast = true ∧ s.regs.rw.toNat % 8 = 0 ∧
      s.regs.ry.toNat + s.regs.rh.toNat = s.srcHeight .last + 1) ∧
    ∃ s : State, s.regs.rw.toNat % 8 = 0 ∧ s.regs.rx.toNat + s.regs.rw.toNat ≤ s.srcWidth .pix ∧
      s.regs.ry.toNat + s.regs.rh.toNat ≤ s.srcHeight .pix ∧
      s.regs.rw.toNat / 8 * s.regs.rh.toNat = 5809 :=
  ⟨⟨readyState false, rfl⟩, ⟨withRegion (readyState true) 0 0 1 1, by decide⟩,
    ⟨withRegion (readyState true) 169 0 1 8, by decide⟩, ⟨withRegion (readyState true) 0 263 2 8, by decide⟩,
    ⟨{ fresh with regs := ⟨0, 0, 5809, 8, 8, 5809⟩ }, by decide⟩⟩

theorem witness_PackAgreesWithTheLoopOfTheSpec : ∃ r : Region, r.w % 8 = 0 ∧ 0 < r.h ∧ 0 < r.w :=
  ⟨⟨3, 5, 2, 16⟩, by decide⟩

theorem witness_UnpackInvertsPack : ∃ (r : Region) (i j : Nat), r.w % 8 = 0 ∧ i < r.w ∧ j < r.h :=
  ⟨⟨3, 5, 2, 16⟩, 15, 1, by decide⟩

theorem witness_HeaderIsFourFieldsHighByteFirst :
    ∃ r : Region, r.x < 65536 ∧ r.y < 65536 ∧ r.h < 65536 ∧ r.w < 65536 :=
  ⟨⟨65535, 256, 255, 0⟩, by decide⟩

theorem witness_AlignmentOfAPartialRegion : ∃ r : Region, r.x % 8 = 0 ∧ r.w % 8 = 1 :=
  ⟨⟨168, 0, 1, 9⟩, by decide⟩

theorem microOps_frame_ti (s : State) (hp : s.par = ti) :
    microOps (frameEvents s.par (pack (s.pixel .pix) panelRegion)) = 23268 := by
  rw [microOps_frameEvents _ (length_pack_panel _), hp,
    show microOps (lutEvents ti false) = 30 by decide +kernel]
  rfl

theorem witness_DisplayFrameFromReady :
    ∃ s : State, s.lifecycle = .ready ∧ s.regs.pixW = 176#16 ∧ s.regs.pixH = 264#16 ∧
      s.Quiet (microOps (frameEvents s.par (pack (s.pixel .pix) panelRegion)) + (1 + 1)) ∧
      s.IdleAfter 1 ∧ boundReached s.waitBound 1 = false :=
  ⟨withEnv (readyState false) (successes 23270) [.low, .high], rfl, rfl, rfl,
    by rw [microOps_frame_ti _ rfl]; exact quiet_withEnv _ _ _, ⟨by decide, by decide⟩, rfl⟩

theorem witness_DisplayFrameInitialisesFirst :
    ∃ (s : State) (r m : Nat), s.lifecycle = .uninitialized ∧ s.regs.pixW = 176#16 ∧
      s.regs.pixH = 264#16 ∧ r = busyReads (initEvents s.par) ∧
      m = microOps (initEvents s.par) +
        microOps (frameEvents s.par (pack (s.pixel .pix) panelRegion)) + (1 + 1) ∧
      s.Quiet m ∧ s.IdleFor r ∧ (∀ k, k < 1 → s.env.level (r + k) ≠ s.par.idleLevel) ∧
      s.env.level (r + 1) = s.par.idleLevel ∧ boundReached s.waitBound 1 = false :=
  ⟨withEnv { readyState false with lifecycle := .uninitialized } (successes 23310) [.low, .high], 0, 23310,
    rfl, rfl, rfl, by decide +kernel,
    by rw [microOps_frame_ti _ rfl, show microOps (initEvents _) = 40 by decide +kernel],
    quiet_withEnv _ _ _, fun k hk => absurd hk (Nat.not_lt_zero k), by decide, by decide, rfl⟩

/-- A transposed image, from Uninitialized with a script that waits once, and from Ready. -/
theorem witness_DisplayFrameOfAWrongSizeSendsTheTableFirst :
    (∃ s : State, s.lifecycle = .uninitialized ∧ ¬ (s.regs.pixW = 176#16 ∧ s.regs.pixH = 264#16) ∧
      s.Quiet (microOps (initEvents s.par ++ lutEvents s.par false)) ∧
      s.IdleFor (busyReads (initEvents s.par))) ∧
    ∃ s : State, s.lifecycle = .ready ∧ ¬ (s.regs.pixW = 176#16 ∧ s.regs.pixH = 264#16) ∧
      s.Quiet (microOps (lutEvents s.par false)) :=
  ⟨⟨withEnv { waitingScript with regs := ⟨0, 0, 0, 0, 264, 176⟩ }
      (successes (microOps (initEvents waitingScript.par ++ lutEvents waitingScript.par false))) [.high],
      rfl, by decide, quiet_withEnv _ _ _, by unfold State.IdleFor; decide +kernel⟩,
    withEnv { readyState false with regs := ⟨0, 0, 0, 0, 264, 176⟩ }
      (successes (microOps (lutEvents ti false))) [], rfl, by decide, quiet_withEnv _ _ _⟩

theorem witness_EventCountOfDisplayFrame :
    ∃ s : State, s.lifecycle = .ready ∧ s.regs.pixW = 176#16 ∧ s.regs.pixH = 264#16 ∧
      s.Quiet (microOps (frameEvents s.par (pack (s.pixel .pix) panelRegion)) + (1 + 1)) ∧
      s.IdleAfter 1 ∧ boundReached s.waitBound 1 = false := witness_DisplayFrameFromReady

/-- A region at the right and lower edge, given unaligned, fast and with one busy poll. -/
theorem witness_DisplayPartialTransaction :
    ∃ (s : State) (r : Region) (old new : List Byte),
      s.lifecycle = .ready ∧ s.haveLast = true ∧ s.regs.pixW = 176#16 ∧ s.regs.pixH = 264#16 ∧
      r = s.region.aligned ∧ r.x + r.w = 176 ∧ r.y + r.h = 264 ∧
      old = pack (s.pixel .last) r ∧ new = pack (s.pixel .pix) r ∧
      s.Quiet (microOps (partialEvents s.par true r.header old new 1)) ∧
      s.IdleAfter 1 ∧ boundReached s.waitBound 1 = false :=
  ⟨withEnv (withRegion (readyState true) 175 263 1 1)
      (successes (microOps (partialEvents ti true (Region.header ⟨168, 263, 1, 8⟩) [0#8] [0#8] 1))) [.low, .high],
    ⟨168, 263, 1, 8⟩, [0#8], [0#8], rfl, rfl, rfl, rfl, by decide, rfl, rfl, by decide +kernel,
    by decide +kernel, quiet_withEnv _ _ _, ⟨by decide, by decide⟩, rfl⟩

/-- Each refusal, the last at one byte column and at one row too many. -/
theorem witness_DisplayPartialRefusals :
    (∃ s : State, s.lifecycle ≠ .ready) ∧ (∃ s : State, s.lifecycle = .ready ∧ s.haveLast = false) ∧
    (∃ s : State, s.lifecycle = .ready ∧ s.haveLast = true ∧
      ¬ (s.regs.pixW = 176#16 ∧ s.regs.pixH = 264#16)) ∧
    (∃ s : State, s.lifecycle = .ready ∧ s.haveLast = true ∧ s.regs.pixW = 176#16 ∧ s.regs.pixH = 264#16 ∧
      rd8 s.regs.rx.toNat + ru8 s.regs.rw.toNat = 184) ∧
    ∃ s : State, s.lifecycle = .ready ∧ s.haveLast = true ∧ s.regs.pixW = 176#16 ∧ s.regs.pixH = 264#16 ∧
      s.regs.ry.toNat + s.regs.rh.toNat = 265 :=
  ⟨⟨fresh, by decide⟩, ⟨readyState false, by decide⟩,
    ⟨{ readyState true with regs := ⟨0, 0, 0, 0, 100, 100⟩ }, by decide⟩,
    ⟨withRegion (readyState true) 168 0 1 9, by decide⟩, ⟨withRegion (readyState true) 0 263 2 8, by decide⟩⟩

theorem witness_EventCountOfDisplayPartial :
    ∃ (s : State) (r : Region) (n : Nat),
      s.lifecycle = .ready ∧ s.haveLast = true ∧ s.regs.pixW = 176#16 ∧ s.regs.pixH = 264#16 ∧
      r = s.region.aligned ∧ r.x + r.w ≤ 176 ∧ r.y + r.h ≤ 264 ∧ n = r.w / 8 * r.h ∧
      s.Quiet (microOps (partialEvents s.par true r.header (pack (s.pixel .last) r)
        (pack (s.pixel .pix) r) 1)) ∧
      s.IdleAfter 1 ∧ boundReached s.waitBound 1 = false := by
  obtain ⟨s, r, old, new, h1, h2, h3, h4, h5, h6, h7, rfl, rfl, h⟩ := witness_DisplayPartialTransaction
  exact ⟨s, r, _, h1, h2, h3, h4, h5, h6.le, h7.le, rfl, h⟩

/-- Ready, the black image, and answers for a DISPLAY_FRAME that succeeds. -/
def frameSucceeds : State := withEnv (readyState false) (successes 23269) [.high]

theorem frame_succeeds :
    ∃ t, exec .displayFrame frameSucceeds = .next t ∧ t.running = none ∧ t.status = some .ok ∧
      t.haveLast = true ∧ t.count = 0 ∧ t.cfgLimit = 32 := by
  have h := polls_frame (s := frameSucceeds) (p := 0) rfl rfl
    (by rw [microOps_frame_ti _ rfl]; exact quiet_withEnv _ _ _) ⟨by decide, by decide⟩ rfl
  refine ⟨runWork (frameWork ti) frameSucceeds, rfl, ?_⟩
  rw [show runWork (frameWork ti) frameSucceeds = _ from h.symm]
  exact ⟨rfl, rfl, rfl, rfl, rfl⟩

/-- A DISPLAY_FRAME that completes, and one that ends in an exception. -/
theorem witness_CacheAndCounterCommitTogetherOrNotAtAll :
    ∃ s t s' t' : State, (Ends .displayFrame s t ∧ t.status = some .ok) ∧
      Ends (.displayPartial true) s' t' ∧ t'.status = some (.failed (.transport .setLineDc)) := by
  obtain ⟨t, h, hr, hs, -⟩ := frame_succeeds
  exact ⟨_, t, withEnv (readyState true) [true] [], _, ⟨ends_of_exec h hr, hs⟩,
    ends_of_exec rfl (by decide), by decide⟩

/-- LAST black, PIX white at (10, 3) only, LIMIT 1, and answers for a normal DISPLAY_PARTIAL of one byte. -/
def onePixel : State :=
  { withEnv (readyState true) (successes 60) [.high] with pix := [(538, true)], cfgLimit := 1 }

/-- V-SU4 with the colours the other way round. -/
theorem onePixel_diff : onePixel.diff = some ⟨10, 3, 11, 4⟩ := by
  refine diffBox_single (by decide) (by decide) fun u v hu hv => ?_
  simp only [Config.width, Config.height] at hu hv ⊢
  have hp : pixelAt onePixel.pix 176 u v = decide (u + v * 176 = 538) := by
    simp [pixelAt, onePixel, Memory.read]
  rw [show pixelAt onePixel.last 176 u v = false from rfl, hp]
  simp only [ne_eq, Bool.false_eq, decide_eq_false_iff_not, not_not]
  omega

theorem onePixel_update :
    exec .smartUpdate onePixel =
      .next (runWork (partialWork ti false ⟨8, 3, 1, 8⟩) onePixel) := by
  show execSmartUpdate onePixel = _
  unfold execSmartUpdate
  rw [if_neg (by decide), if_neg (by decide), if_neg (by decide), onePixel_diff]
  rfl

theorem onePixel_result :
    let t := runWork (partialWork ti false ⟨8, 3, 1, 8⟩) onePixel
    t.running = none ∧ t.status = some .ok ∧ t.count = 1 ∧ t.trace.length = 59 := by decide +kernel

theorem witness_DifferenceBoxIsTheSmallest : ∃ (s : State) (b : Box), s.diff = some b :=
  ⟨onePixel, _, onePixel_diff⟩

theorem witness_RefreshRectangleCoversTheBox : ∃ (s : State) (b : Box), s.diff = some b :=
  ⟨onePixel, _, onePixel_diff⟩

theorem witness_SmartUpdateFullPath :
    ∃ s s' : State, s.haveLast = false ∧ s'.haveLast = true ∧ s'.count = s'.cfgLimit :=
  ⟨fresh, { readyState true with count := 32 }, rfl, rfl, rfl⟩

theorem witness_SmartUpdateOfAnIdenticalImageDoesNothing :
    ∃ s s' : State, (s.lifecycle = .ready ∧ s.haveLast = true ∧ s.count ≠ s.cfgLimit ∧
        s.regs.pixW = 176#16 ∧ s.regs.pixH = 264#16 ∧
        ∀ x y, x < 176 → y < 264 → pixelAt s.last 176 x y = pixelAt s.pix 176 x y) ∧
      s'.lifecycle = .ready ∧ s'.haveLast = true ∧ s'.count ≠ s'.cfgLimit ∧
        ¬ (s'.regs.pixW = 176#16 ∧ s'.regs.pixH = 264#16) :=
  ⟨readyState true, { readyState true with regs := ⟨0, 0, 0, 0, 264, 176⟩ },
    ⟨rfl, rfl, by decide, rfl, rfl, fun _ _ _ _ => rfl⟩, by decide⟩

theorem witness_SmartUpdatePartialPath :
    ∃ (s : State) (b : Box) (old new : List Byte),
      s.lifecycle = .ready ∧ s.haveLast = true ∧ s.count ≠ s.cfgLimit ∧
      s.regs.pixW = 176#16 ∧ s.regs.pixH = 264#16 ∧ s.diff = some b ∧ false = s.eligible b ∧
      old = pack (s.pixel .last) b.rect ∧ new = pack (s.pixel .pix) b.rect ∧
      s.Quiet (microOps (partialEvents s.par false b.rect.header old new 0)) ∧
      s.IdleAfter 0 ∧ boundReached s.waitBound 0 = false :=
  ⟨onePixel, ⟨10, 3, 11, 4⟩, [0x00#8], [0x20#8], rfl, rfl, by decide, rfl, rfl, onePixel_diff,
    by decide +kernel, by decide +kernel, by decide +kernel,
    (quiet_of_replicate (n := 60) rfl).mono (by decide +kernel), ⟨by decide, by decide⟩, rfl⟩

/-- One differing update, which brings COUNT to the limit 1. -/
theorem witness_BurnInBound :
    ∃ s t : State, s.count = 0 ∧ s.haveLast = true ∧ 1 ≤ s.cfgLimit ∧ DifferingUpdates 1 s t :=
  ⟨onePixel, _, rfl, rfl, le_refl 1, onePixel.regs, onePixel.pix, _,
    by rw [show ({ onePixel with regs := onePixel.regs, pix := onePixel.pix } : State) = onePixel from rfl,
        onePixel_diff]; simp,
    ends_of_exec onePixel_update onePixel_result.1, onePixel_result.2.1, rfl⟩

/-- A full update, after which COUNT is 0 and the limit 32. -/
theorem witness_SecondSmartUpdateDoesNothing :
    ∃ s t : State, Ends .smartUpdate s t ∧ t.status = some .ok ∧ t.count ≠ t.cfgLimit := by
  obtain ⟨t, h, hr, hs, -, hc, hl⟩ := frame_succeeds
  have hx : exec .smartUpdate frameSucceeds = exec .displayFrame frameSucceeds := by
    show execSmartUpdate frameSucceeds = displayFrame frameSucceeds
    rw [execSmartUpdate, if_neg (by decide), if_pos (.inl rfl)]
  exact ⟨frameSucceeds, t, ends_of_exec (hx.trans h) hr, hs, by rw [hc, hl]; decide⟩

/-- A step that appends a byte to the trace. -/
theorem step_of_command :
    ∃ s t : State, step s = .next t ∧ s.trace ≠ t.trace :=
  ⟨{ withEnv fresh [false, false] [] with host := [.request 0x0112] }, _, rfl, by decide⟩

theorem witness_ErrIsStickyAndTheTraceOnlyGrows : ∃ s t : State, step s = .next t ∧ s.err ≠ 0 :=
  ⟨{ withEnv fresh [true] [] with host := [.request 0x0112], err := 0b1000#4 }, _, rfl, by decide⟩

theorem witness_EveryByteHasItsDcSetting : ∃ s t : State, step s = .next t ∧ s.trace ≠ t.trace :=
  step_of_command

/-- A request that completes, one that ends in an exception, and one that waits. -/
theorem witness_StatusAndErrAgree :
    ∃ s s' s'' t t' t'' : State, (exec .reset s = .next t ∧ t.status = some .ok) ∧
      (exec .reset s' = .next t' ∧ t'.err ≠ s'.err) ∧ exec .waitIdle s'' = .next t'' ∧ t''.status = none :=
  ⟨withEnv fresh [false, false] [], withEnv fresh [true] [], withEnv fresh [false] [.low], _, _, _,
    ⟨rfl, by decide⟩, ⟨rfl, by decide⟩, rfl, by decide⟩

/-- DimensionError of ENCODE and of a SMART_UPDATE on its full path; TransportError on the wire and at a
ReadLine; BusyTimeout at the bound 1, and at the bound 2 after a further poll. -/
theorem witness_ExceptionsOfEachRequest :
    (∃ s t w h, Ends .encode s t ∧ t.status = some (.failed (.dimension w h))) ∧
    (∃ s t w h, Ends .smartUpdate s t ∧ t.status = some (.failed (.dimension w h))) ∧
    (∃ s t op, Ends .sleep s t ∧ t.status = some (.failed (.transport op))) ∧
    (∃ s t op, Ends .waitIdle s t ∧ t.status = some (.failed (.transport op))) ∧
    (∃ s t n, Ends .waitIdle s t ∧ t.status = some (.failed (.busyTimeout n))) ∧
    ∃ s t n, Ends .waitIdle s t ∧ t.status = some (.failed (.busyTimeout n)) ∧ 1 < n :=
  ⟨⟨fresh, _, 0, 0, ends_of_exec rfl (by decide), by decide⟩,
    ⟨withEnv fresh (successes 70) [], _, 0, 0, ends_of_exec rfl (by decide +kernel), by decide +kernel⟩,
    ⟨withEnv (readyState false) [true] [], _, .setLineDc, ends_of_exec rfl (by decide), by decide⟩,
    ⟨withEnv fresh [true] [], _, .readLineBusy, ends_of_exec rfl (by decide), by decide⟩,
    ⟨{ withEnv fresh [false] [.low] with waitBound := some 1 }, _, 1, ends_of_exec rfl (by decide), by decide⟩,
    ⟨{ withEnv fresh [false, false] [.low, .low] with waitBound := some 2 }, _, 2,
      ⟨_, 1, rfl, ⟨by decide, _, rfl, rfl⟩, by decide⟩, by decide, by decide⟩⟩

/-- A request that ends and one that waits. -/
theorem witness_RequestsWriteNothingOfTheHosts :
    ∃ (i i' : Instr) (s t s' t' : State), (exec i s = .next t ∧ s.lifecycle ≠ t.lifecycle ∧ t.running = none) ∧
      exec i' s' = .next t' ∧ t'.running ≠ none :=
  ⟨.sleep, .waitIdle, withEnv (readyState true) (successes 4) [], _, withEnv fresh [false] [.low], _,
    ⟨rfl, by decide⟩, rfl, by decide⟩

/-- The first and the last micro-operation of the table. -/
theorem witness_SetLutFailureIsPrecise :
    ∃ s s' : State, (0 < microOps (lutEvents s.par true) ∧ s.Quiet 0 ∧ s.env.fails 0 = true) ∧
      29 < microOps (lutEvents s'.par true) ∧ s'.Quiet 29 ∧ s'.env.fails 29 = true :=
  ⟨withEnv fresh [true] [], withEnv fresh (successes 29 ++ [true]) [],
    ⟨by decide +kernel, fun k hk => absurd hk (Nat.not_lt_zero k), by decide⟩,
    by decide +kernel, by unfold State.Quiet; decide +kernel, by decide +kernel⟩

/-- Micro-operation number `n` is the first to fail. -/
theorem quiet_failAt (s : State) (n : Nat) (vs : List Level) :
    (withEnv s (successes n ++ [true]) vs).Quiet n ∧
      (withEnv s (successes n ++ [true]) vs).env.fails n = true := by
  constructor
  · intro k hk
    simp [withEnv, successes, Env.fails, List.getElem?_append_left, hk]
  · simp [withEnv, successes, Env.fails]

/-- The first micro-operation of the request, the last of the table, the first after the packing into FB
and the last of the refresh command. -/
theorem witness_DisplayFrameFailureIsPrecise :
    ∀ n, n = 0 ∨ n = 29 ∨ n = 30 ∨ n = 23267 →
      ∃ (s : State) (buf : List Byte), s.lifecycle = .ready ∧ s.regs.pixW = 176#16 ∧
        s.regs.pixH = 264#16 ∧ buf = pack (s.pixel .pix) panelRegion ∧
        n < microOps (frameEvents s.par buf) ∧ s.Quiet n ∧ s.env.fails n = true := by
  intro n hn
  refine ⟨withEnv (readyState true) (successes n ++ [true]) [], _, rfl, rfl, rfl, rfl, ?_, quiet_failAt _ _ _⟩
  rw [microOps_frame_ti _ rfl]
  omega

/-- A request that leaves HAVE_LAST at 0, at its end and after a further poll, one that sets it, and one
that is refused. -/
theorem witness_LastIsNotReadWithoutACachedFrame :
    (∃ (i : Instr) (s t : State), s.haveLast = false ∧ RunsTo i 0 s t ∧ t.haveLast = false) ∧
    (∃ (i : Instr) (s t : State), s.haveLast = false ∧ RunsTo i 1 s t ∧ t.haveLast = false) ∧
    (∃ (i : Instr) (s t : State), s.haveLast = false ∧ RunsTo i 0 s t ∧ t.haveLast = true) ∧
    ∃ (i : Instr) (s : State) (r : Refusal), s.haveLast = false ∧ exec i s = .refused r := by
  obtain ⟨t, h, -, -, hl, -⟩ := frame_succeeds
  exact ⟨⟨.reset, withEnv fresh [true] [], _, rfl, ⟨_, rfl, rfl⟩, by decide⟩,
    ⟨.waitIdle, withEnv fresh [false, false] [.low, .high], _, rfl, ⟨_, rfl, by decide, _, rfl, rfl⟩, by decide⟩,
    ⟨_, _, t, rfl, ⟨_, h, rfl⟩, hl⟩, .encodeRegion .last, fresh, .noLastFrame, rfl, rfl⟩

theorem fresh_inv : fresh.Inv where
  mem := ⟨rfl, rfl, rfl, rfl, rfl, by decide⟩
  cached := fun h => nomatch h
  run := fun _ h => nomatch h

/-- SMART_UPDATE's clause: a SMART_UPDATE from a state that meets the invariant ends. -/
theorem witness_LifecycleChangesOnlyAsTheTableSays_smartUpdate :
    ∃ s t : State, Ends .smartUpdate s t ∧ s.Inv :=
  ⟨withEnv fresh [true] [], _, ends_of_exec rfl (by decide),
    fresh_inv.mem.of_eq rfl rfl rfl rfl, (fun h => nomatch h), fun _ h => nomatch h⟩

theorem witness_StepKeepsTheInvariant : ∃ s t : State, s.Inv ∧ step s = .next t :=
  ⟨fresh, fresh, fresh_inv, rfl⟩

theorem witness_ParametersNeverChange : ∃ s t : State, step s = .next t ∧ s.trace ≠ t.trace :=
  step_of_command

end Sys2Proof.Tests
end

section
/-! The bounds of a difference box and of its refresh rectangle (45_smart_update.md R132, R133), with
the obligation about the rectangle. -/

namespace Sys2Proof.Machine

/-! ### The edges of a difference box -/

/-- The first index that has a property is not beyond the last one. -/
theorem head?_le_getLast?_filter_range {p : Nat → Bool} {n first last : Nat}
    (hf : ((List.range n).filter p).head? = some first)
    (hl : ((List.range n).filter p).getLast? = some last) : first ≤ last := by
  obtain ⟨-, -, hbefore⟩ := head?_filter_range hf
  obtain ⟨-, hlast, -⟩ := getLast?_filter_range hl
  by_contra hlt
  simp [hbefore last (Nat.lt_of_not_le hlt)] at hlast

/-- A difference box is not empty and lies in the frame. -/
theorem diffBox_bounds {w h : Nat} {a b : Memory Bool} {box : Box}
    (hb : diffBox w h a b = some box) :
    box.left < box.right ∧ box.right ≤ w ∧ box.top < box.bottom ∧ box.bottom ≤ h := by
  obtain ⟨hleft, htop, ⟨r, hr, hright⟩, q, hq, hbottom⟩ := diffBox_some hb
  have hcols := head?_le_getLast?_filter_range hleft hr
  have hrows := head?_le_getLast?_filter_range htop hq
  obtain ⟨hrw, -, -⟩ := getLast?_filter_range hr
  obtain ⟨hqh, -, -⟩ := getLast?_filter_range hq
  omega

theorem State.diff_bounds {s : State} {box : Box} (hb : s.diff = some box) :
    box.left < box.right ∧ box.right ≤ 176 ∧ box.top < box.bottom ∧ box.bottom ≤ 264 :=
  diffBox_bounds hb

/-! ### The refresh rectangle -/

@[simp] theorem Box.rect_x (b : Box) : b.rect.x = rd8 b.left := rfl

@[simp] theorem Box.rect_y (b : Box) : b.rect.y = b.top := rfl

/-- A right edge inside the panel stays inside when it is rounded up, since 176 is a multiple of 8. -/
theorem ru8_le_width {v : Nat} (h : v ≤ 176) : ru8 v ≤ 176 := by
  rw [ru8_eq]
  omega

/-- The height's clamp does nothing. -/
theorem Box.rect_h {b : Box} (h : b.bottom ≤ 264) : b.rect.h = b.bottom - b.top :=
  Nat.min_eq_left (Nat.le_trans (Nat.sub_le _ _) h)

/-- The width's clamp does nothing: the unclamped rectangle ends at the rounded right edge. -/
theorem Box.rect_w {b : Box} (hlr : b.left < b.right) (hr : b.right ≤ 176) :
    b.rect.w = ru8 (b.right - b.rect.x) := by
  have hedge : rd8 b.left + ru8 (b.right - rd8 b.left) = ru8 b.right := rd8_add_ru8_sub hlr
  have hpanel : ru8 b.right ≤ 176 := ru8_le_width hr
  refine Nat.min_eq_left (?_ : ru8 (b.right - rd8 b.left) ≤ 176)
  omega

/-- The rectangle ends at the box's right edge, rounded up. -/
theorem Box.rect_x_add_w {b : Box} (hlr : b.left < b.right) (hr : b.right ≤ 176) :
    b.rect.x + b.rect.w = ru8 b.right := by
  rw [Box.rect_w hlr hr, Box.rect_x, rd8_add_ru8_sub hlr]

/-- Settles O42, from the bounds of the difference box: inside them both clamps do nothing, so the
rectangle runs from the box's left edge rounded down to its right edge rounded up. -/
theorem refreshRectangleCoversTheBox : Obligations.RefreshRectangleCoversTheBox := by
  intro s b hb
  obtain ⟨hlr, hr, htb, hbot⟩ := State.diff_bounds hb
  have hx : b.rect.x % 8 = 0 := rd8_mod b.left
  have hxl : b.rect.x ≤ b.left := rd8_le b.left
  have hw : b.rect.w = ru8 (b.right - b.rect.x) := Box.rect_w hlr hr
  have hw8 : b.rect.w % 8 = 0 := hw ▸ ru8_mod _
  have hxw : b.rect.x + b.rect.w = ru8 b.right := Box.rect_x_add_w hlr hr
  have hcover : b.right ≤ ru8 b.right := le_ru8 b.right
  have hpanel : ru8 b.right ≤ 176 := ru8_le_width hr
  have hh : b.rect.h = b.bottom - b.top := Box.rect_h hbot
  have hy : b.rect.y = b.top := Box.rect_y b
  exact ⟨Box.rect_x b, hx, hw8, by omega, by omega, hxl, by omega, by omega, hy, by omega, by omega,
    hw, hh, aligned_of_mod hx hw8⟩

end Sys2Proof.Machine
end

section
/-! The invariant of the block (10_state.md R24, R25, R30; R104, R116, R125): every line of a request, every
act of the host and so every step keeps it, and construction meets it. -/

namespace Sys2Proof.Machine

/-! ### LIFECYCLE and HAVE_LAST over one line -/

/-- A line that is done keeps both, or initialises LIFECYCLE, or commits a frame. -/
theorem perform_done_control {w : Work} {s s' : State} (h : w.perform s = .done s') :
    (s'.lifecycle = s.lifecycle ∧ s'.haveLast = s.haveLast ∧ w ≠ .beginInit) ∨
    (s'.lifecycle ≠ .uninitialized ∧ s'.haveLast = s.haveLast) ∨
    (s'.lifecycle = s.lifecycle ∧ w.commits = true) := by
  by_cases hp : w.plain = true
  · have hk := perform_plain hp h
    exact .inl ⟨hk.lifecycle, hk.haveLast, fun hw => by simp [hw, Work.plain] at hp⟩
  · cases w with
    | beginInit => cases h; exact .inr (.inl ⟨by simp, rfl⟩)
    | endInit => cases h; exact .inr (.inl ⟨by simp, rfl⟩)
    | endSleep => cases h; exact .inr (.inl ⟨by simp, rfl⟩)
    | commitFrame => cases h; exact .inr (.inr ⟨rfl, rfl⟩)
    | commitPartial => cases h; exact .inr (.inr ⟨rfl, rfl⟩)
    | _ => exact absurd rfl hp

/-- No line makes a block Uninitialized, and INIT's first line initialises any block. -/
theorem perform_done_initialised {w : Work} {s s' : State} (h : w.perform s = .done s')
    (hs : s.lifecycle ≠ .uninitialized ∨ w = .beginInit) : s'.lifecycle ≠ .uninitialized := by
  rcases perform_done_control h with ⟨hl, -, hw⟩ | ⟨hl, -⟩ | ⟨hl, hc⟩
  · exact hl ▸ hs.resolve_right hw
  · exact hl
  · exact hl ▸ hs.resolve_right fun hw => by simp [hw, Work.commits] at hc

/-- Only a commit sets HAVE_LAST. -/
theorem perform_done_haveLast {w : Work} {s s' : State} (h : w.perform s = .done s')
    (hs : s'.haveLast = true) : s.haveLast = true ∨ w.commits = true := by
  rcases perform_done_control h with ⟨-, hh, -⟩ | ⟨-, hh⟩ | ⟨-, hc⟩
  · exact .inl (hh ▸ hs)
  · exact .inl (hh ▸ hs)
  · exact .inr hc

/-! ### The run of a request -/

/-- The invariant between two lines of a request: that of the block, and that it may perform the lines
left. -/
structure State.MayRun (ws : List Work) (s : State) : Prop where
  mem : s.MemInv
  cached : s.haveLast = true → s.lifecycle ≠ .uninitialized
  lines : WorkOk s.lifecycle ws

theorem WorkOk.fits {l : Lifecycle} {w : Work} {ws : List Work} (h : WorkOk l (w :: ws)) :
    w.fits = true ∧ ws.all Work.fits = true := by
  simpa only [List.all_cons, Bool.and_eq_true] using h.1

/-- A block that has a commit before it is initialised, or is so by the line at hand. -/
theorem WorkOk.initialised {l : Lifecycle} {w : Work} {ws : List Work} (h : WorkOk l (w :: ws))
    (hc : w.commits = true ∨ ws.any Work.commits = true) : l ≠ .uninitialized ∨ w = .beginInit := by
  simpa using h.2 (by simpa using hc)

theorem State.MayRun.done {w : Work} {ws : List Work} {s s' : State} (h : s.MayRun (w :: ws))
    (hw : w.perform s = .done s') : s'.MayRun ws where
  mem := by simpa [hw, Res.All] using perform_memInv h.mem h.lines.fits.1
  cached hs := perform_done_initialised hw <| (perform_done_haveLast hw hs).elim
    (fun hh => .inl (h.cached hh)) fun hc => h.lines.initialised (.inl hc)
  lines := ⟨h.lines.fits.2, fun hc =>
    .inl (perform_done_initialised hw (h.lines.initialised (.inr hc)))⟩

/-- With no request running, the invariant is that of the memories and of the cache. -/
theorem State.Inv.of_idle {s : State} (hm : s.MemInv)
    (hc : s.haveLast = true → s.lifecycle ≠ .uninitialized) (hr : s.running = none) : s.Inv :=
  ⟨hm, hc, fun ws h => by simp [hr] at h⟩

theorem State.MayRun.complete {s : State} (h : s.MayRun []) : (complete s).Inv :=
  .of_idle (h.mem.of_eq rfl rfl rfl rfl) h.cached rfl

theorem inv_takeException {s : State} (e : Exc) (hm : s.MemInv)
    (hc : s.haveLast = true → s.lifecycle ≠ .uninitialized) : (takeException e s).Inv :=
  .of_idle (hm.of_eq rfl rfl rfl rfl) hc rfl

/-- What stops on the wire keeps the memories and the cache. -/
theorem cached_of_wireOnly {s s' : State} (hw : WireOnly s s')
    (hc : s.haveLast = true → s.lifecycle ≠ .uninitialized) :
    s'.haveLast = true → s'.lifecycle ≠ .uninitialized := by
  have hk := ControlKept.of_wireOnly hw
  rwa [hk.haveLast, hk.lifecycle]

/-- A poll that goes round holds a request that may run: its line is the poll itself, so that what is
left may commit only in an initialised block. -/
theorem State.MayRun.hold {w : Work} {ws : List Work} {s s' : State} {n : Nat} (h : s.MayRun (w :: ws))
    (hw : w.perform s = .busy n s') : (holdRequest (.wait n :: ws) s').Inv where
  mem := (h.mem.of_wireOnly (perform_busy hw)).of_eq rfl rfl rfl rfl
  cached := cached_of_wireOnly (s' := s') (perform_busy hw) h.cached
  run ws' hr := by
    obtain ⟨m, rfl⟩ := perform_busy_wait hw
    obtain rfl : Work.wait n :: ws = ws' := by simpa using hr
    refine ⟨⟨n, ws, rfl⟩, by simpa [Work.fits] using h.lines.fits.2, fun hc => ?_, rfl⟩
    have hl : s'.lifecycle = s.lifecycle := (ControlKept.of_wireOnly (perform_busy hw)).lifecycle
    rw [holdRequest_lifecycle, hl]
    simpa using h.lines.initialised (.inr (by simpa [Work.commits] using hc))

/-- A run of lines ends in a state that meets the invariant. -/
theorem State.MayRun.inv_runWork {ws : List Work} {s : State} (h : s.MayRun ws) : (runWork ws s).Inv :=
  runWork_induct (P := fun ws s => s.MayRun ws) (Q := State.Inv)
    (fun _ h => h.complete)
    (fun _ _ _ _ h hw => h.done hw)
    (fun _ _ _ e _ h hw => inv_takeException e (h.mem.of_wireOnly (perform_raised hw))
      (cached_of_wireOnly (perform_raised hw) h.cached))
    (fun _ _ _ _ _ h hw => h.hold hw) ws s h

/-- What is left of a running request may be performed. -/
theorem State.Inv.mayRun {s : State} (h : s.Inv) {ws : List Work} (hr : s.running = some ws) :
    s.MayRun ws :=
  ⟨h.mem, h.cached, (h.run ws hr).fits, fun hc => .inl ((h.run ws hr).initialised hc)⟩

/-! ### The acts of the host -/

/-- The acts of the host leave PIX in canonical form and do not touch the rest of the invariant. -/
theorem inv_hostWrite {act : HostAct} {s t : State} (hm : s.MemInv)
    (hc : s.haveLast = true → s.lifecycle ≠ .uninitialized) (hr : s.running = none)
    (h : hostWrite act s = .next t) : t.Inv := by
  rcases hostWrite_next h with rfl | ⟨n, v, rfl⟩ | ⟨w, h', raw, rfl⟩ | ⟨a, raw, rfl⟩
  · exact .of_idle hm hc hr
  · exact .of_idle (hm.of_eq rfl rfl rfl rfl) hc hr
  · exact .of_idle { hm with pix_wf := cells_wf _ } hc hr
  · exact .of_idle { hm with pix_wf := write_wf _ _ hm.pix_wf } hc hr

/-- Settles O57: a step runs the lines of a request that may run, or is an act of the host. -/
theorem stepKeepsTheInvariant : Obligations.StepKeepsTheInvariant := by
  intro s t hs h
  have hhost : ∀ rest, ({ s with host := rest } : State).MemInv := fun _ => hs.mem.of_eq rfl rfl rfl rfl
  rcases step_next h with ⟨ws, hr, rfl⟩ | ⟨-, -, rfl⟩ | ⟨w, rest, i, -, -, -, he⟩ |
    ⟨w, rest, e, -, -, -, rfl⟩ | ⟨act, rest, hr, -, -, ha⟩
  · exact (hs.mayRun hr).inv_runWork
  · exact hs
  · obtain ⟨ws, rfl, hok⟩ := exec_next he
    exact State.MayRun.inv_runWork ⟨hhost rest, hs.cached, hok⟩
  · exact inv_takeException _ (hhost rest) hs.cached
  · exact inv_hostWrite (hhost rest) hs.cached hr ha

/-- Settles O58: the memories are empty, no frame is cached and no request runs. -/
theorem constructedStateMeetsTheInvariant : Obligations.ConstructedStateMeetsTheInvariant := by
  intro limit fast bound par
  exact .of_idle ⟨rfl, rfl, rfl, rfl, rfl, Nat.zero_le _⟩ (fun h => nomatch h) rfl

end Sys2Proof.Machine
end

section
/-! What a step does with what the host presents, and what it never does to the host's side
(10_state.md R11 to R19, R22 to R27; 20_memory.md R52). -/

namespace Sys2Proof.Machine

/-! ### The step, per act of the host -/

/-- A request word is presented. -/
theorem step_request {s : State} {w : Word} {rest : List HostAct} (hr : s.running = none)
    (hh : s.host = .request w :: rest) : step s = present w { s with host := rest } := by
  rw [step, hr]
  simp only [hh]

/-- Any other act of the host is taken. -/
theorem step_hostAct {s : State} {act : HostAct} {rest : List HostAct} (hr : s.running = none)
    (hh : s.host = act :: rest) (ha : isRequest act = false) :
    step s = hostWrite act { s with host := rest } := by
  rw [step, hr]
  simp only [hh]
  cases act with
  | request w => cases ha
  | writeReg n v => rfl
  | loadPix w h raw => rfl
  | writePix a raw => rfl

theorem present_of_decode {w : Word} {i : Instr} (hd : decode w = .ok i) (s : State) :
    present w s = exec i s := by
  rw [present, hd]

/-- Settles O5, from the step at a request word. -/
theorem stepPerformsThePresentedRequest : Obligations.StepPerformsThePresentedRequest := by
  intro s w rest i hr hh hd
  rw [step_request hr hh, present_of_decode hd]

/-! ### The register port (R11 to R19) -/

theorem OperandRegs.write_of_ge {n : Nat} (hn : 6 ≤ n) (r : OperandRegs) (v : Word) : r.write n v = r := by
  obtain ⟨k, rfl⟩ := Nat.exists_eq_add_of_le' hn
  rfl

/-- Numbers from 17 on do not exist. -/
theorem readReg_eq_zero {m : Nat} (hm : 16 < m) (s : State) : s.readReg m = 0 := by
  obtain ⟨k, rfl⟩ := Nat.exists_eq_add_of_le' hm
  rfl

/-- From number 6 on no register is an operand register. -/
theorem readReg_of_ge {m : Nat} (hm : 6 ≤ m) (s : State) (r : OperandRegs) :
    ({ s with regs := r } : State).readReg m = s.readReg m := by
  by_cases h : m ≤ 16
  · interval_cases m <;> rfl
  · rw [readReg_eq_zero (Nat.lt_of_not_le h), readReg_eq_zero (Nat.lt_of_not_le h)]

/-- A read after a write: the value at its number, if that is an operand register's, and the old value at
every other. -/
theorem readReg_writeReg (s : State) (n : Nat) (v : Word) (m : Nat) :
    (s.writeReg n v).readReg m = if m = n ∧ n < 6 then v.toNat else s.readReg m := by
  by_cases hn : n < 6
  · by_cases hm : m < 6
    · interval_cases n <;> interval_cases m <;> rfl
    · rw [if_neg (by omega)]
      exact readReg_of_ge (Nat.le_of_not_lt hm) s _
  · rw [if_neg (by omega), State.writeReg, OperandRegs.write_of_ge (Nat.le_of_not_lt hn)]

/-- Settles O8: the write is `readReg_writeReg`, the reads are the branches of `readReg`. -/
theorem hostRegisterPort : Obligations.HostRegisterPort := by
  refine ⟨fun s n v rest hr hh => ?_, fun s => ?_⟩
  · exact ⟨s.regs.write n v, step_hostAct hr hh rfl, fun m =>
      readReg_writeReg { s with host := rest } n v m⟩
  · have hbit : ∀ b : Bool, b.toNat = if b = true then 1 else 0 := by decide
    have hcode : s.readReg 10 = (match s.lifecycle with
        | .uninitialized => 0
        | .initializing => 1
        | .ready => 2
        | .sleeping => 3) := by
      change s.lifecycle.code = _
      cases s.lifecycle <;> rfl
    exact ⟨rfl, rfl, rfl, rfl, rfl, rfl, rfl, rfl, rfl, hbit s.cfgFast, hcode, rfl, hbit s.haveLast,
      rfl, rfl, rfl, rfl, fun m hm => readReg_eq_zero hm s⟩

/-! ### PIX (R23, R71) -/

/-- The image that LOADPIX makes reads as its reduced intensities, row by row. -/
theorem pixelAt_loadPix (raw : List Nat) (width x y : Nat) :
    pixelAt (Memory.cells unlistedPixel 0 (raw.map reduceIntensity)) width x y =
      (raw.getD (x + y * width) 0 != 0) := by
  rw [pixelAt, read_cells]
  exact List.getD_map raw 0 reduceIntensity

/-- Settles O9, from what the loaded image reads as. -/
theorem loadPixReducesIntensitiesToBits : Obligations.LoadPixReducesIntensitiesToBits := by
  intro s w h raw rest hr hh
  have hstep := step_hostAct hr hh rfl
  refine ⟨fun hlen => ?_, fun hlen => ?_⟩
  · refine ⟨Memory.cells unlistedPixel 0 (raw.map reduceIntensity), ?_, fun x y _ _ =>
      pixelAt_loadPix raw w.toNat x y⟩
    simp [hstep, hostWrite, HostAct.imageComplete, hlen, State.loadPix]
  · simp [hstep, hostWrite, HostAct.imageComplete, hlen]

/-- Settles O10, from the rules of a memory write. -/
theorem hostPixelWriteTouchesOnePixel : Obligations.HostPixelWriteTouchesOnePixel := by
  intro s a raw rest hr hh hwf
  have hstep := step_hostAct hr hh rfl
  refine ⟨fun ha => ?_, fun ha => ?_⟩
  · refine ⟨s.pix.write unlistedPixel a (reduceIntensity raw), ?_, write_wf _ _ hwf, read_write _ _ hwf⟩
    rw [hstep]
    exact if_pos ha
  · rw [hstep]
    exact if_neg (Nat.not_lt.2 ha)

/-- Settles O11: no branch of a read names LAST. -/
theorem hostReadsDoNotDependOnLast : Obligations.HostReadsDoNotDependOnLast := by
  intro s m
  exact ⟨fun _ => rfl, fun _ => rfl, fun _ => rfl, fun _ => rfl, fun _ => rfl⟩

/-- Settles O59: the fields of the constructed state; the reset state is constructed with the machine's
own OPEN parameters. -/
theorem constructedValues : Obligations.ConstructedValues := by
  refine ⟨?_, Config.params, rfl⟩
  rintro limit fast bound par s rfl
  exact ⟨rfl, rfl, rfl, rfl, rfl, rfl, rfl, rfl, rfl, rfl, rfl, rfl, rfl, rfl, rfl⟩

/-! ### What requests and steps keep -/

/-- Settles O53, from the ends of a run of lines. -/
theorem requestsWriteNothingOfTheHosts : Obligations.RequestsWriteNothingOfTheHosts := by
  intro i s t h
  obtain ⟨ws, rfl, -⟩ := exec_next h
  obtain ⟨hkept, hpos, -⟩ := runWork_ends ws s
  exact ⟨hkept, hpos⟩

/-- Settles O6: such a step is a run of lines, whatever the lines. -/
theorem hostHasNoMoveWhileARequestRuns : Obligations.HostHasNoMoveWhileARequestRuns := by
  intro s ws hr
  obtain ⟨hkept, hpos, -⟩ := runWork_ends ws s
  exact ⟨runWork ws s, step_running hr, hkept, hpos⟩

/-- An act of the host that is no request writes the operand registers and PIX only. -/
theorem hostWrite_writes {act : HostAct} {s t : State} (h : hostWrite act s = .next t) :
    t = { s with regs := t.regs, pix := t.pix } := by
  rcases hostWrite_next h with rfl | ⟨n, v, rfl⟩ | ⟨w, h', raw, rfl⟩ | ⟨a, raw, rfl⟩ <;> rfl

/-! ### ERR and the trace (R18, R22) -/

/-- What a step comes to, as far as ERR and the trace go: a run of lines, an exception, or no more than the
host's writes. -/
theorem step_forms {s t : State} (h : step s = .next t) :
    (∃ acts ws, t = runWork ws { s with host := acts }) ∨
    (∃ acts e, t = takeException e { s with host := acts }) ∨
    ∃ acts regs pix, t = { s with host := acts, regs := regs, pix := pix } := by
  rcases step_next h with ⟨ws, -, ht⟩ | ⟨-, -, ht⟩ | ⟨w, rest, i, -, -, -, he⟩ |
    ⟨w, rest, e, -, -, -, ht⟩ | ⟨act, rest, -, -, -, ha⟩
  · exact .inl ⟨s.host, ws, ht⟩
  · exact .inr (.inr ⟨s.host, s.regs, s.pix, ht⟩)
  · obtain ⟨ws, ht, -⟩ := exec_next he
    exact .inl ⟨rest, ws, ht⟩
  · exact .inr (.inl ⟨rest, _, ht⟩)
  · exact .inr (.inr ⟨rest, t.regs, t.pix, hostWrite_writes ha⟩)

/-- A run of lines takes at most one exception. -/
theorem runWork_err (ws : List Work) (s : State) :
    (runWork ws s).err = s.err ∨ ∃ e, (runWork ws s).err = errAfter s.err e := by
  obtain ⟨-, -, ⟨he, -⟩ | ⟨e, he, -⟩ | ⟨_, _, he, -⟩⟩ := runWork_ends ws s
  · exact .inl he
  · exact .inr ⟨e, he⟩
  · exact .inl he

/-- So does a step. -/
theorem step_err {s t : State} (h : step s = .next t) : t.err = s.err ∨ ∃ e, t.err = errAfter s.err e := by
  rcases step_forms h with ⟨acts, ws, rfl⟩ | ⟨acts, e, rfl⟩ | ⟨acts, regs, pix, rfl⟩
  · exact runWork_err ws { s with host := acts }
  · exact .inr ⟨e, rfl⟩
  · exact .inl rfl

/-- A step appends a framed fragment to the trace. -/
theorem step_grows {s t : State} (h : step s = .next t) : Grows s t := by
  rcases step_forms h with ⟨acts, ws, rfl⟩ | ⟨acts, e, rfl⟩ | ⟨acts, regs, pix, rfl⟩
  · exact runWork_grows ws { s with host := acts }
  · exact .of_log rfl
  · exact .of_log rfl

/-- Taking an exception clears no ERR bit (R18). -/
theorem and_errAfter (err : BitVec 4) (e : Exc) : err &&& errAfter err e = err := by
  apply BitVec.eq_of_getLsbD_eq
  intro i _
  rw [errAfter, BitVec.getLsbD_and, BitVec.getLsbD_or]
  cases err.getLsbD i <;> rfl

/-- Settles O49: a step takes at most one exception, and appends a fragment. -/
theorem errIsStickyAndTheTraceOnlyGrows : Obligations.ErrIsStickyAndTheTraceOnlyGrows := by
  intro s t h
  obtain ⟨es, htrace, -⟩ := (step_grows h).trace
  refine ⟨?_, es, htrace⟩
  rcases step_err h with he | ⟨e, he⟩
  · rw [he, BitVec.and_self]
  · rw [he, and_errAfter]

/-! ### The parameters and the length of the host's list (R13, R14, R27, R170) -/

theorem requestsLeft_running {s : State} {ws : List Work} (hr : s.running = some ws) :
    s.requestsLeft = 1 + s.host.countP isRequest := by
  simp [State.requestsLeft, hr]

theorem requestsLeft_request {s : State} {w : Word} {rest : List HostAct} (hr : s.running = none)
    (hh : s.host = .request w :: rest) : s.requestsLeft = 1 + rest.countP isRequest := by
  have hcount : (HostAct.request w :: rest).countP isRequest = rest.countP isRequest + 1 :=
    List.countP_cons_of_pos rfl
  rw [State.requestsLeft, hr, hh, hcount, if_pos rfl, Nat.zero_add, Nat.add_comm]

theorem requestsLeft_hostAct {s : State} {act : HostAct} {rest : List HostAct} (hr : s.running = none)
    (hh : s.host = act :: rest) (ha : isRequest act = false) : s.requestsLeft = rest.countP isRequest := by
  simp [State.requestsLeft, hr, hh, ha]

/-- A request that is performed on `s` is one more than what `s` has still to present, whether it ends in
`t`, which moves the position, or waits there. -/
theorem pos_add_requestsLeft {s t : State} (hkept : KeptByRequests s t) (hpos : PosMovesAtTheEnd s t) :
    t.pos + t.requestsLeft = s.pos + (1 + s.host.countP isRequest) := by
  unfold PosMovesAtTheEnd at hpos
  rw [hpos, State.requestsLeft, hkept.host]
  split <;> omega

/-- Settles O60: a request that is presented moves from the host's list to the running one, and from
there to the position. -/
theorem parametersNeverChange : Obligations.ParametersNeverChange := by
  intro s t h
  rcases step_next h with ⟨ws, hr, rfl⟩ | ⟨-, -, rfl⟩ | ⟨w, rest, i, hr, hh, -, he⟩ |
    ⟨w, rest, e, hr, hh, -, rfl⟩ | ⟨act, rest, hr, hh, hact, ha⟩
  · obtain ⟨hkept, hpos, -⟩ := runWork_ends ws s
    refine ⟨hkept.cfgLimit, hkept.cfgFast, hkept.waitBound, hkept.par, ?_⟩
    rw [pos_add_requestsLeft hkept hpos, requestsLeft_running hr]
  · exact ⟨rfl, rfl, rfl, rfl, rfl⟩
  · obtain ⟨hkept, hpos⟩ := requestsWriteNothingOfTheHosts i _ t he
    refine ⟨hkept.cfgLimit, hkept.cfgFast, hkept.waitBound, hkept.par, ?_⟩
    rw [pos_add_requestsLeft hkept hpos, requestsLeft_request hr hh]
  · refine ⟨rfl, rfl, rfl, rfl, ?_⟩
    rw [requestsLeft_request hr hh]
    exact pos_add_requestsLeft (s := { s with host := rest }) ⟨rfl, rfl, rfl, rfl, rfl, rfl, rfl⟩ rfl
  · rw [hostWrite_writes ha, requestsLeft_hostAct hr hh hact]
    exact ⟨rfl, rfl, rfl, rfl, by simp [State.requestsLeft, hr]⟩

end Sys2Proof.Machine
end

section
/-! While HAVE_LAST is 0 no request reads LAST (10_state.md R24, R30): it is refused, or performs the same
lines, whatever LAST holds. -/

namespace Sys2Proof.Machine

/-! ### Lines that do not use LAST -/

theorem lastUnread_of_offLast {ws : List Work} (h : ws.all Work.offLast = true) : LastUnread ws :=
  ⟨ws, [], (List.append_nil ws).symm, List.all_eq_true.1 h, .inl rfl⟩

/-- Such lines may stand in front. -/
theorem LastUnread.append {pre ws : List Work} (hpre : pre.all Work.offLast = true) (h : LastUnread ws) :
    LastUnread (pre ++ ws) := by
  obtain ⟨mid, tl, rfl, hmid, htl⟩ := h
  refine ⟨pre ++ mid, tl, (List.append_assoc ..).symm, fun w hw => ?_, htl⟩
  exact (List.mem_append.1 hw).elim (List.all_eq_true.1 hpre w) (hmid w)

theorem initWork_offLast (p : Params) : (initWork p).all Work.offLast = true := by
  have hscript : (p.initScript.map scriptWork).all Work.offLast = true := by
    simp only [List.all_map, List.all_eq_true, Function.comp_apply]
    intro item _
    cases item <;> rfl
  simp only [initWork, List.all_append, hscript]
  rfl

/-- DISPLAY_FRAME writes LAST in its commit and does not use it before (R121). -/
theorem frameWork_lastUnread (p : Params) : LastUnread (frameWork p) :=
  ⟨(frameWork p).dropLast, [.commitFrame], rfl, List.all_eq_true.1 rfl, .inr rfl⟩

theorem displayFrameWork_lastUnread (s : State) : LastUnread (displayFrameWork s) := by
  unfold displayFrameWork
  split
  · exact (frameWork_lastUnread s.par).append (initWork_offLast s.par)
  · exact frameWork_lastUnread s.par

/-! ### Requests with no cached frame -/

/-- From `s`, whatever LAST holds, the request `o` performs the same lines, none of which reads it, or is
refused for the same reason. -/
def LastBlind (o : State → Host.Outcome State Fault Refusal) (s : State) : Prop :=
  (∃ ws, LastUnread ws ∧ ∀ m, o { s with last := m } = .next (runWork ws { s with last := m })) ∨
    ∃ r, ∀ m, o { s with last := m } = .refused r

section
variable {s : State} {o o' : State → Host.Outcome State Fault Refusal}

theorem LastBlind.refused (r : Refusal) : LastBlind (fun _ => .refused r) s := .inr ⟨r, fun _ => rfl⟩

theorem LastBlind.of_offLast (ws : List Work) (h : ws.all Work.offLast = true)
    (ho : ∀ m, o { s with last := m } = .next (runWork ws { s with last := m })) : LastBlind o s :=
  .inl ⟨ws, lastUnread_of_offLast h, ho⟩

/-- A choice that does not depend on LAST. -/
theorem LastBlind.ite {c : State → Prop} [∀ s, Decidable (c s)] (hc : ∀ m, c { s with last := m } ↔ c s)
    (ho : c s → LastBlind o s) (ho' : ¬ c s → LastBlind o' s) :
    LastBlind (fun s => if c s then o s else o' s) s := by
  by_cases h : c s
  · simpa only [LastBlind, hc, h, if_true] using ho h
  · simpa only [LastBlind, hc, h, if_false] using ho' h

end

theorem displayFrame_lastBlind (s : State) : LastBlind displayFrame s :=
  .ite (c := fun s => s.lifecycle.displayRefused = true) (fun _ => .rfl) (fun _ => .refused _)
    fun _ => .inl ⟨displayFrameWork s, displayFrameWork_lastUnread s, fun _ => rfl⟩

/-- With no cached frame a DISPLAY_PARTIAL is refused (R120, R125). -/
theorem displayPartial_lastBlind {s : State} (hs : s.haveLast = false) (fast : Bool) (r : Region) :
    LastBlind (displayPartial fast r) s :=
  .ite (c := fun s => s.lifecycle ≠ .ready) (fun _ => .rfl) (fun _ => .refused _) fun _ =>
    .ite (c := fun s => s.haveLast = false) (fun _ => .rfl) (fun _ => .refused _) fun h => absurd hs h

/-- With no cached frame an ENCODE_REGION of LAST is refused, and one of PIX does not read it (R114). -/
theorem execEncodeRegion_lastBlind {s : State} (hs : s.haveLast = false) (src : Source) :
    LastBlind (execEncodeRegion src) s := by
  refine .ite (c := fun s => src = .last ∧ s.haveLast = false) (fun _ => .rfl) (fun _ => .refused _) fun h => ?_
  refine .ite (c := fun s => s.region.w % 8 ≠ 0) (fun _ => .rfl) (fun _ => .refused _) fun _ => ?_
  refine .ite (c := fun s => s.region.x + s.region.w > s.srcWidth src ∨
    s.region.y + s.region.h > s.srcHeight src) (fun _ => by cases src <;> rfl) (fun _ => .refused _) fun _ => ?_
  refine .ite (c := fun s => s.region.w / 8 * s.region.h > Config.frameBytes) (fun _ => .rfl)
    (fun _ => .refused _) fun _ => ?_
  cases src with
  | last => exact absurd ⟨rfl, hs⟩ h
  | pix => exact .of_offLast [.packRegion .pix s.region.x s.region.y s.region.h s.region.w] rfl fun _ => rfl

/-- With no cached frame a SMART_UPDATE is a DISPLAY_FRAME (R131). -/
theorem execSmartUpdate_lastBlind {s : State} (hs : s.haveLast = false) : LastBlind execSmartUpdate s :=
  .ite (c := fun s => s.lifecycle.displayRefused = true) (fun _ => .rfl) (fun _ => .refused _) fun _ =>
    .ite (c := fun s => s.haveLast = false ∨ s.count = s.cfgLimit) (fun _ => .rfl)
      (fun _ => displayFrame_lastBlind s) fun h => absurd (.inl hs) h

/-- So no request reads LAST. -/
theorem exec_lastBlind {s : State} (hs : s.haveLast = false) (i : Instr) : LastBlind (exec i) s := by
  cases i with
  | sendCommand b => exact .of_offLast [.command b] rfl fun _ => rfl
  | sendData b => exact .of_offLast [.data b] rfl fun _ => rfl
  | reset => exact .of_offLast [.resetPulse] rfl fun _ => rfl
  | waitIdle => exact .of_offLast [.wait 0] rfl fun _ => rfl
  | encode => exact .of_offLast [.encode] rfl fun _ => rfl
  | encodeRegion src => exact execEncodeRegion_lastBlind hs src
  | init => exact .of_offLast (initWork s.par) (initWork_offLast s.par) fun _ => rfl
  | sleep =>
    exact .ite (c := fun s => s.lifecycle ≠ .ready) (fun _ => .rfl) (fun _ => .refused _) fun _ =>
      .of_offLast [.command s.par.cmdDeepSleep, .data s.par.sleepCheck, .endSleep] rfl fun _ => rfl
  | setLut fast => exact .of_offLast [.lut fast] rfl fun _ => rfl
  | displayFrame => exact displayFrame_lastBlind s
  | displayPartial fast => exact displayPartial_lastBlind hs fast s.region
  | smartUpdate => exact execSmartUpdate_lastBlind hs

/-- To any number of polls, such a request sets HAVE_LAST and comes to the same state, or to the same but
for LAST itself. -/
theorem runsTo_last {i : Instr} {s t : State} {k : Nat} (hs : s.haveLast = false) (h : RunsTo i k s t)
    (m : Memory Bool) :
    (t.haveLast = true ∧ RunsTo i k { s with last := m } t) ∨
    (t.haveLast = false ∧ RunsTo i k { s with last := m } { t with last := m }) := by
  obtain ⟨u, hu, hk⟩ := h
  rcases exec_lastBlind hs i with ⟨ws, hws, hexec⟩ | ⟨r, hexec⟩
  · obtain rfl : runWork ws s = u := by simpa [hu] using (hexec s.last).symm
    rcases runWork_lastUnread hws hs m with ⟨hset, hended, hsame⟩ | ⟨hunset, hlast, hrest⟩
    · obtain rfl := polls_of_not_running hended hk
      exact .inl ⟨hset, _, hexec m, hsame ▸ hk⟩
    · have hexec' := hlast ▸ hexec m
      exact (polls_lastUnread hunset hrest m hk).imp (fun ⟨ht, hp⟩ => ⟨ht, _, hexec', hp⟩)
        fun ⟨ht, hp⟩ => ⟨ht, _, hexec', hp⟩
  · exact absurd ((hexec s.last).symm.trans hu) (by simp)

/-- Settles O56: the two ends of `runsTo_last`, and the refusals of `exec_lastBlind`. -/
theorem lastIsNotReadWithoutACachedFrame : Obligations.LastIsNotReadWithoutACachedFrame := by
  intro i s m hs
  refine ⟨fun k t h ht => ?_, fun k t h ht => ?_, fun r h => ?_⟩
  · rcases runsTo_last hs h m with ⟨hset, -⟩ | ⟨-, hruns⟩
    · simp [ht] at hset
    · exact hruns
  · rcases runsTo_last hs h m with ⟨-, hruns⟩ | ⟨hunset, -⟩
    · exact hruns
    · simp [ht] at hunset
  · rcases exec_lastBlind hs i with ⟨ws, -, hexec⟩ | ⟨r', hexec⟩
    · exact absurd ((hexec s.last).symm.trans h) (by simp)
    · rw [hexec m, ← hexec s.last, ← h]

end Sys2Proof.Machine
end

section
/-! The memories and the wire (20_memory.md R51, R54): the framing of every byte, the commit of the cached
frame with its counter, and the dimension header of a region (30_encoding.md R66). -/

namespace Sys2Proof.Machine

/-- Settles O50: what a step appends is framed. -/
theorem everyByteHasItsDcSetting : Obligations.EveryByteHasItsDcSetting :=
  fun _ _ h => (step_grows h).trace

/-! ### The commit of a display request (R54, R127) -/

/-- From `s` a request has ended in `t` by committing PIX with the count `n`, in Ready, or in an exception;
up to there it had written nothing of the control state but LIFECYCLE. -/
def CommitsOrKeeps (n : Nat) (s t : State) : Prop :=
  (∃ u, ControlKept (s.setLifecycle .ready) u ∧ t = complete (u.commit n)) ∨
    ∃ e l u, ControlKept (s.setLifecycle l) u ∧ t = takeException e u

theorem setLifecycle_self {s : State} {l : Lifecycle} (h : s.lifecycle = l) : s.setLifecycle l = s := by
  subst h
  rfl

/-- What the two ends say of LAST, HAVE_LAST, COUNT and LIFECYCLE. -/
theorem CommitsOrKeeps.cache {n : Nat} {s t : State} (h : CommitsOrKeeps n s t) :
    (t.status = some .ok ∧ (∀ a, a < 46464 →
        Memory.read unlistedPixel t.last a = Memory.read unlistedPixel s.pix a) ∧
      t.haveLast = true ∧ t.lifecycle = .ready ∧ t.count = n) ∨
    (∃ e, t.status = some (.failed e) ∧ t.last = s.last ∧ t.haveLast = s.haveLast ∧ t.count = s.count) := by
  rcases h with ⟨u, hk, rfl⟩ | ⟨e, l, u, hk, rfl⟩
  · refine .inl ⟨rfl, fun a ha => ?_, rfl, hk.lifecycle, rfl⟩
    rw [complete_last, commit_last, read_front, if_pos ha, hk.pix, setLifecycle_pix]
  · exact .inr ⟨e, rfl, hk.last, hk.haveLast, hk.count⟩

/-- From Ready, or from Uninitialized through INIT, whose exceptions leave Initializing (R101, R121). -/
theorem displayFrame_commitsOrKeeps {s t : State} (h : Ends .displayFrame s t) : CommitsOrKeeps 0 s t := by
  obtain ⟨v, hv⟩ := exec_of_ends h
  have hrun := (ends_iff (i := .displayFrame) (displayFrame_run hv)).1 h
  rcases displayFrame_ends hv hrun with
    ⟨hl, hend⟩ | ⟨-, ⟨e, u, ht, hk | hk⟩ | ⟨u, hk, -, ht⟩⟩
  · rw [← setLifecycle_self hl] at hend
    rcases hend with ⟨e, u, ht, hk⟩ | ⟨u, hk, -, ht⟩
    · exact .inr ⟨e, _, u, hk, ht⟩
    · exact .inl ⟨u, hk, ht⟩
  · exact .inr ⟨e, _, u, hk, ht⟩
  · exact .inr ⟨e, _, u, hk, ht⟩
  · exact .inl ⟨u, hk, ht⟩

/-- From Ready only; COUNT is read when it is written, and no line before has written it (R124). -/
theorem displayPartial_commitsOrKeeps {fast : Bool} {s t : State} (h : Ends (.displayPartial fast) s t) :
    CommitsOrKeeps (s.count + 1) s t := by
  obtain ⟨v, hv⟩ := exec_of_ends h
  obtain ⟨-, -, hready, -⟩ := displayPartial_next hv
  have hend := endsRun_partial ((ends_iff (i := .displayPartial fast) (displayPartial_run hv)).1 h)
  rw [← setLifecycle_self hready] at hend
  rcases hend with ⟨e, u, ht, hk⟩ | ⟨u, hk, ht⟩
  · exact .inr ⟨e, _, u, hk, ht⟩
  · exact .inl ⟨u, hk, by rw [ht, hk.count, setLifecycle_count]⟩

/-- Settles O39, from how each of the two requests ends. -/
theorem cacheAndCounterCommitTogetherOrNotAtAll :
    Obligations.CacheAndCounterCommitTogetherOrNotAtAll := by
  rintro i s t (rfl | ⟨fast, rfl⟩) h
  · exact (displayFrame_commitsOrKeeps h).cache
  · exact (displayPartial_commitsOrKeeps h).cache

/-! ### The dimension header (R42, R66) -/

/-- The high byte of a 16-bit field is its quotient by 256, the low byte its remainder. -/
theorem fieldBytes_toNat {v : Nat} (hv : v < 65536) :
    (fieldBytes v).map BitVec.toNat = [v / 256, v % 256] := by
  have hhigh : v >>> 8 = v / 256 := Nat.shiftRight_eq_div_pow v 8
  have hlow : v &&& 0xFF = v % 256 := Nat.and_two_pow_sub_one_eq_mod v 8
  have hfits : v / 256 < 256 := by omega
  simp [fieldBytes, hhigh, hlow, Nat.mod_eq_of_lt hfits]

/-- Settles O30, field by field. -/
theorem headerIsFourFieldsHighByteFirst : Obligations.HeaderIsFourFieldsHighByteFirst := by
  intro r hx hy hh hw
  simp only [Region.header, List.map_append, fieldBytes_toNat hx, fieldBytes_toNat hy, fieldBytes_toNat hh,
    fieldBytes_toNat hw, List.cons_append, List.nil_append]

end Sys2Proof.Machine
end

section
/-! The request word (30_encoding.md R61 to R64): the decoder inverts the encoder, and the words that decode
are those of the opcode table, row by row. -/

namespace Sys2Proof

/-! ### Fields of a word (R61) -/

theorem word_eq_iff {v w : Word} : v = w ↔ opField v = opField w ∧ immField v = immField w := by
  refine ⟨fun h => ⟨congrArg opField h, congrArg immField h⟩, fun ⟨hop, himm⟩ => ?_⟩
  rw [← opField_append_immField v, hop, himm, opField_append_immField]

@[simp] theorem opField_and (v w : Word) : opField (v &&& w) = opField v &&& opField w :=
  BitVec.extractLsb'_and

@[simp] theorem immField_and (v w : Word) : immField (v &&& w) = immField v &&& immField w :=
  BitVec.extractLsb'_and

theorem encode_eq_iff {i : Instr} {w : Word} : encode i = w ↔ i.op = opField w ∧ i.imm8 = immField w := by
  rw [word_eq_iff, encode, opField_append, immField_append]

/-! ### The decoder inverts the encoder -/

/-- The decoder reads back every request with every operand. -/
theorem decode_encode (i : Instr) : decode (encode i) = .ok i := by
  cases i with
  | sendCommand b => simp [decode, encode, Instr.op, Instr.imm8]
  | sendData b => simp [decode, encode, Instr.op, Instr.imm8]
  | encodeRegion src => cases src <;> rfl
  | setLut fast => cases fast <;> rfl
  | displayPartial fast => cases fast <;> rfl
  | reset => rfl
  | waitIdle => rfl
  | encode => rfl
  | init => rfl
  | sleep => rfl
  | displayFrame => rfl
  | smartUpdate => rfl

section
variable {w : Word} {i : Instr}

/-- A request without operand is read from its own word only. -/
theorem encode_of_decodePlain {j : Instr} (h : decodePlain (opField w) (immField w) j = .ok i)
    (hop : (opField w).toNat = j.op.toNat) (himm : j.imm8 = 0#8) : encode i = w := by
  obtain ⟨rfl, h0⟩ := decodePlain_ok h
  exact encode_eq_iff.2 ⟨(BitVec.eq_of_toNat_eq hop).symm, himm.trans h0.symm⟩

/-- A request with a flag is read from the word that has this flag as `imm8`. -/
theorem encode_of_decodeFlag {f : Bool → Instr} (h : decodeFlag (opField w) (immField w) f = .ok i)
    (hop : ∀ b, (opField w).toNat = (f b).op.toNat) (himm : ∀ b, (f b).imm8 = flagByte b) :
    encode i = w := by
  obtain ⟨b, rfl, hb⟩ := decodeFlag_ok h
  exact encode_eq_iff.2 ⟨(BitVec.eq_of_toNat_eq (hop b)).symm, (himm b).trans hb.symm⟩

/-- A request whose operand is `imm8` is read from the word with this operand. -/
theorem encode_of_operand {f : Byte → Instr} (h : Except.ok (ε := DecodeError) (f (immField w)) = .ok i)
    (hop : (opField w).toNat = (f (immField w)).op.toNat)
    (himm : (f (immField w)).imm8 = immField w) : encode i = w := by
  injection h with h
  subst h
  exact encode_eq_iff.2 ⟨(BitVec.eq_of_toNat_eq hop).symm, himm⟩

/-- What the decoder reads is the request whose word it was given: one case for each opcode. -/
theorem encode_of_decode (h : decode w = .ok i) : encode i = w := by
  unfold decode at h
  dsimp only at h
  split at h
  next hop => exact encode_of_operand h hop rfl
  next hop => exact encode_of_operand h hop rfl
  next hop => exact encode_of_decodePlain h hop rfl
  next hop => exact encode_of_decodePlain h hop rfl
  next hop => exact encode_of_decodePlain h hop rfl
  next hop => exact encode_of_decodeFlag h (fun _ => hop) (by decide)
  next hop => exact encode_of_decodePlain h hop rfl
  next hop => exact encode_of_decodePlain h hop rfl
  next hop => exact encode_of_decodeFlag h (fun _ => hop) fun _ => rfl
  next hop => exact encode_of_decodePlain h hop rfl
  next hop => exact encode_of_decodeFlag h (fun _ => hop) fun _ => rfl
  next hop => exact encode_of_decodePlain h hop rfl
  next => cases h

end

/-- Settles O1, from the two directions. -/
theorem decodeReadsExactlyTheEncodedWord : Obligations.DecodeReadsExactlyTheEncodedWord := by
  intro w i
  exact ⟨encode_of_decode, fun h => h ▸ decode_encode i⟩

/-- Settles O4: the decoder evaluates on the nine words. -/
theorem wordsOfTheRequestTableDecode : Obligations.WordsOfTheRequestTableDecode :=
  ⟨rfl, rfl, rfl, rfl, rfl, rfl, rfl, rfl, rfl⟩

/-! ### The rows of the opcode table (R62, R63) -/

/-- Every row fixes the whole of `op`, and the bits of `imm8` that it fixes are 0. -/
theorem opTable_fields : ∀ r ∈ opTable, opField r.mask = 0xFF#8 ∧ immField r.mtch = 0#8 := by decide

/-- No two rows have the same opcode. -/
theorem opTable_op_inj : ∀ r ∈ opTable, ∀ r' ∈ opTable, opField r.mtch = opField r'.mtch → r = r' := by
  decide

/-- No two rows have the same mnemonic. -/
theorem opTable_mnemonic_inj : ∀ r ∈ opTable, ∀ r' ∈ opTable, r.mnemonic = r'.mnemonic → r = r' := by
  decide

theorem covers_iff {r : OpRow} (hr : r ∈ opTable) {w : Word} :
    r.covers w = true ↔ opField w = opField r.mtch ∧ immField w &&& immField r.mask = 0#8 := by
  obtain ⟨hmask, hmtch⟩ := opTable_fields r hr
  have hall : opField w &&& 0xFF#8 = opField w := BitVec.and_allOnes
  rw [OpRow.covers, beq_iff_eq, word_eq_iff, opField_and, immField_and, hmask, hmtch, hall]

/-- Some row covers the word of a request, and bears its mnemonic. -/
theorem exists_row (i : Instr) :
    ∃ r ∈ opTable, r.mnemonic = i.mnemonic ∧ r.covers (encode i) = true := by
  cases i with
  | sendCommand b => exact Laws.Legal.sendCommand b
  | sendData b => exact Laws.Legal.sendData b
  | reset => exact Laws.Legal.reset
  | waitIdle => exact Laws.Legal.waitIdle
  | encode => exact Laws.Legal.encode
  | encodeRegion src => exact Laws.Legal.encodeRegion src
  | init => exact Laws.Legal.init
  | sleep => exact Laws.Legal.sleep
  | setLut fast => exact Laws.Legal.setLut fast
  | displayFrame => exact Laws.Legal.displayFrame
  | displayPartial fast => exact Laws.Legal.displayPartial fast
  | smartUpdate => exact Laws.Legal.smartUpdate

/-- A row covers the word of a request exactly when it bears its mnemonic: the row that `exists_row` gives
is the only one with this opcode, and the only one with this mnemonic. -/
theorem covers_encode_iff {r : OpRow} (hr : r ∈ opTable) (i : Instr) :
    r.covers (encode i) = true ↔ r.mnemonic = i.mnemonic := by
  obtain ⟨r', hr', hname, hcov⟩ := exists_row i
  constructor
  · intro h
    have hop : opField r.mtch = opField r'.mtch :=
      ((covers_iff hr).1 h).1.symm.trans ((covers_iff hr').1 hcov).1
    rwa [opTable_op_inj r hr r' hr' hop]
  · intro h
    rwa [opTable_mnemonic_inj r hr r' hr' (h.trans hname.symm)]

/-- A byte whose bits 7:1 are 0 is a flag. -/
theorem eq_flagByte : ∀ {imm : Byte}, imm &&& 0xFE#8 = 0#8 → ∃ b, imm = flagByte b := by decide

section
variable {w : Word} {r : OpRow}

/-- Under a row that fixes the whole of `imm8`, a word is that of the row's request without operand. -/
theorem exists_encode_of_plainRow (hr : r ∈ opTable) (hw : r.covers w = true) (i : Instr)
    (hmask : immField r.mask = 0xFF#8) (hop : i.op = opField r.mtch) (himm : i.imm8 = 0#8) :
    ∃ i, encode i = w := by
  obtain ⟨hopw, himmw⟩ := (covers_iff hr).1 hw
  have hall : immField w &&& 0xFF#8 = immField w := BitVec.and_allOnes
  rw [hmask, hall] at himmw
  exact ⟨i, encode_eq_iff.2 ⟨hop.trans hopw.symm, himm.trans himmw.symm⟩⟩

/-- Under a row that leaves `imm8[0]` free, a word is that of the row's request with this flag. -/
theorem exists_encode_of_flagRow (hr : r ∈ opTable) (hw : r.covers w = true) (f : Bool → Instr)
    (hmask : immField r.mask = 0xFE#8) (hop : ∀ b, (f b).op = opField r.mtch)
    (himm : ∀ b, (f b).imm8 = flagByte b) : ∃ i, encode i = w := by
  obtain ⟨hopw, himmw⟩ := (covers_iff hr).1 hw
  obtain ⟨b, hb⟩ := eq_flagByte (hmask ▸ himmw)
  exact ⟨f b, encode_eq_iff.2 ⟨(hop b).trans hopw.symm, (himm b).trans hb.symm⟩⟩

/-- Under a row that leaves `imm8` free, a word is that of the row's request with this operand. -/
theorem exists_encode_of_operandRow (hr : r ∈ opTable) (hw : r.covers w = true) (f : Byte → Instr)
    (hop : ∀ b, (f b).op = opField r.mtch) (himm : ∀ b, (f b).imm8 = b) : ∃ i, encode i = w := by
  obtain ⟨hopw, -⟩ := (covers_iff hr).1 hw
  exact ⟨f (immField w), encode_eq_iff.2 ⟨(hop _).trans hopw.symm, himm _⟩⟩

/-- A word that a row covers is the word of some request: one case for each row. -/
theorem exists_encode_of_covers (hr : r ∈ opTable) (hw : r.covers w = true) : ∃ i, encode i = w := by
  have hrow := hr
  simp only [opTable, List.cons_append, List.nil_append, List.mem_cons, List.not_mem_nil, or_false] at hrow
  rcases hrow with rfl | rfl | rfl | rfl | rfl | rfl | rfl | rfl | rfl | rfl | rfl | rfl
  · exact exists_encode_of_operandRow hr hw .sendCommand (fun _ => rfl) fun _ => rfl
  · exact exists_encode_of_operandRow hr hw .sendData (fun _ => rfl) fun _ => rfl
  · exact exists_encode_of_plainRow hr hw .reset rfl rfl rfl
  · exact exists_encode_of_plainRow hr hw .waitIdle rfl rfl rfl
  · exact exists_encode_of_plainRow hr hw .encode rfl rfl rfl
  · exact exists_encode_of_flagRow hr hw (fun b => .encodeRegion (Source.ofBit b)) rfl (fun _ => rfl) (by decide)
  · exact exists_encode_of_plainRow hr hw .init rfl rfl rfl
  · exact exists_encode_of_plainRow hr hw .sleep rfl rfl rfl
  · exact exists_encode_of_flagRow hr hw .setLut rfl (fun _ => rfl) fun _ => rfl
  · exact exists_encode_of_plainRow hr hw .displayFrame rfl rfl rfl
  · exact exists_encode_of_flagRow hr hw .displayPartial rfl (fun _ => rfl) fun _ => rfl
  · exact exists_encode_of_plainRow hr hw .smartUpdate rfl rfl rfl

end

/-- The legal words are the words of the requests (R64). -/
theorem legalWord_iff {w : Word} : legalWord w = true ↔ ∃ i, encode i = w := by
  rw [legalWord, List.any_eq_true]
  constructor
  · rintro ⟨r, hr, hw⟩
    exact exists_encode_of_covers hr hw
  · rintro ⟨i, rfl⟩
    obtain ⟨r, hr, -, hcov⟩ := exists_row i
    exact ⟨r, hr, hcov⟩

/-- Settles O2, from O1 and the rows of the table. -/
theorem legalWordsDecodeToTheirRow : Obligations.LegalWordsDecodeToTheirRow := by
  intro w
  refine ⟨?_, fun i hi r hr => ?_⟩
  · simp only [legalWord_iff, decodeReadsExactlyTheEncodedWord w]
  · rw [← encode_of_decode hi]
    exact covers_encode_iff hr i

end Sys2Proof

namespace Sys2Proof.Machine

/-! ### The completion status (R74) -/

/-- Settles O51: a request that is performed is a run of lines, with the three ends of `runWork_ends`. -/
theorem statusAndErrAgree : Obligations.StatusAndErrAgree := by
  intro i s t h
  obtain ⟨ws, rfl, -⟩ := exec_next h
  obtain ⟨-, -, ⟨herr, hst, hrun⟩ | ⟨e, herr, hst, hrun⟩ | ⟨n, rest, herr, hst, hrun⟩⟩ := runWork_ends ws s
  · exact .inl ⟨hst, herr, hrun⟩
  · exact .inr (.inl ⟨e, hst, herr, hrun⟩)
  · exact .inr (.inr ⟨hst, herr, n, rest, hrun⟩)

end Sys2Proof.Machine
end

section
/-! The requests of the protocol encoder (41_protocol_encoder.md R90 to R95) and the failure inside a
SET_LUT (R142, R146): a request of one line, when it completes and when a micro-operation of it fails, and
the polls of WAIT_IDLE. -/

namespace Sys2Proof.Machine

/-! ### The end of a request -/

/-- The request has performed the micro-operations of `es` and completed. -/
def State.completedAfter (s : State) (es : List Event) : State :=
  { s with
    log := es.reverse ++ s.log
    env := s.env.advance (microOps es) (busyReads es)
    rst := lastSet .rst s.rst es
    dc := lastSet .dc s.dc es
    status := some .ok
    running := none
    pos := s.pos + 1 }

/-- The request has performed the micro-operations of `es`, and the next one, `op`, has failed. -/
def State.failedAfter (s : State) (es : List Event) (op : MicroOp) : State :=
  { s with
    log := es.reverse ++ s.log
    env := s.env.advance (microOps es + 1) (busyReads es)
    rst := lastSet .rst s.rst es
    dc := lastSet .dc s.dc es
    err := s.err ||| 0b0010#4
    status := some (.failed (.transport op))
    running := none
    pos := s.pos + 1 }

theorem complete_afterAll (s : State) (es : List Event) :
    complete (s.afterAll es) = s.completedAfter es := by
  rw [afterAll_eq]
  rfl

theorem takeException_afterAll (s : State) (es : List Event) (op : MicroOp) :
    takeException (.transport op) ((s.afterAll es).tick 1 0) = s.failedAfter es op := by
  rw [State.tick, afterAll_env, advance_advance, afterAll_eq]
  rfl

section Line
variable {w : Work} {s : State} {es : List Event}

theorem runWork_completes (h : w.perform s = .done (s.afterAll es)) :
    runWork [w] s = s.completedAfter es := by
  rw [runWork_done h, runWork_nil, complete_afterAll]

theorem runWork_fails {op : MicroOp} (ws : List Work)
    (h : w.perform s = .raised (.transport op) ((s.afterAll es).tick 1 0)) :
    runWork (w :: ws) s = s.failedAfter es op := by
  rw [runWork_raised h, takeException_afterAll]

end Line

/-! ### The micro-operations and frames that fail (R85, R142) -/

section Fails
variable {s : State}

theorem quiet_one (h : s.env.fails 0 = false) : s.Quiet 1 := by
  intro k hk
  rwa [Nat.lt_one_iff.1 hk]

theorem quiet_two (h0 : s.env.fails 0 = false) (h1 : s.env.fails 1 = false) : s.Quiet 2 := by
  intro k hk
  obtain rfl | rfl : k = 0 ∨ k = 1 := by omega
  · exact h0
  · exact h1

/-- The micro-operation after a fragment of `n` is the one of number `n`. -/
theorem fails_afterAll {es : List Event} {n : Nat} (hn : microOps es = n) (h : s.env.fails n = true) :
    (s.afterAll es).env.fails 0 = true := by
  rwa [afterAll_env, fails_advance, hn]

theorem attempt_fails (h : s.env.fails 0 = true) (op : MicroOp) (act : State → State) :
    attempt op act s = .raised (.transport op) (s.tick 1 0) := by
  rw [attempt, if_pos h]

theorem setLine_fails (h : s.env.fails 0 = true) (l : OutLine) (v : Level) :
    setLine l v s = .raised (.transport (lineMicroOp l)) (s.tick 1 0) :=
  attempt_fails h _ _

theorem writeByte_fails (h : s.env.fails 0 = true) (b : Byte) :
    writeByte b s = .raised (.transport .writeByte) (s.tick 1 0) :=
  attempt_fails h _ _

/-- The SetLine of a frame fails: nothing is written. -/
theorem sendFrame_fails_setLine (h : s.env.fails 0 = true) (v : Level) (b : Byte) :
    sendFrame v b s = .raised (.transport .setLineDc) (s.tick 1 0) := by
  rw [sendFrame, setLine_fails h]
  rfl

/-- The WriteByte of a frame fails: DC has its level already. -/
theorem sendFrame_fails_writeByte (h0 : s.env.fails 0 = false) (h1 : s.env.fails 1 = true) (v : Level)
    (b : Byte) :
    sendFrame v b s = .raised (.transport .writeByte) ((s.afterAll [.set .dc v]).tick 1 0) := by
  rw [sendFrame, setLine_done (quiet_one h0)]
  exact writeByte_fails (fails_afterAll (es := [.set .dc v]) rfl h1) b

/-- The first SetLine of the reset pulse fails: nothing has happened. -/
theorem pulseReset_fails_low (h : s.env.fails 0 = true) :
    pulseReset s = .raised (.transport .setLineRst) (s.tick 1 0) := by
  rw [pulseReset, setLine_fails h]
  rfl

/-- The second SetLine of the reset pulse fails: RST is low, and the first delay is over. -/
theorem pulseReset_fails_high (h0 : s.env.fails 0 = false) (h1 : s.env.fails 1 = true) :
    pulseReset s =
      .raised (.transport .setLineRst) ((s.afterAll [.set .rst .low, .slp 200]).tick 1 0) := by
  have hhigh := setLine_fails (fails_afterAll (es := [.set .rst .low, .slp 200]) rfl h1) .rst .high
  rw [pulseReset, setLine_done (quiet_one h0), Res.andThen, sleep_eq, ← afterAll_append]
  exact congrArg (Res.andThen · _) hhigh

theorem pollBusy_fails (h : s.env.fails 0 = true) (n : Nat) :
    pollBusy n s = .raised (.transport .readLineBusy) (s.tick 1 0) := by
  rw [pollBusy, readLine, if_pos h]

end Fails

/-! ### The requests of two micro-operations -/

/-- A request that sends one frame with DC at level `v`, and its three ends. -/
theorem exec_oneFrame {i : Instr} {w : Work} {s : State} {v : Level} {b : Byte}
    (hi : exec i s = .next (runWork [w] s)) (hw : w.perform s = sendFrame v b s) :
    (s.env.fails 0 = false → s.env.fails 1 = false →
      exec i s = .next (s.completedAfter [.set .dc v, .wr b])) ∧
    (s.env.fails 0 = true → exec i s = .next (s.failedAfter [] .setLineDc)) ∧
    (s.env.fails 0 = false → s.env.fails 1 = true →
      exec i s = .next (s.failedAfter [.set .dc v] .writeByte)) := by
  rw [hi]
  refine ⟨fun h0 h1 => ?_, fun h0 => ?_, fun h0 h1 => ?_⟩
  · rw [runWork_completes (hw.trans (sendFrame_done (quiet_two h0 h1) v b))]
  · rw [runWork_fails (es := []) [] (hw.trans (sendFrame_fails_setLine h0 v b))]
  · rw [runWork_fails [] (hw.trans (sendFrame_fails_writeByte h0 h1 v b))]

/-- Settles O12: SEND_COMMAND is one frame at CMD_LEVEL. -/
theorem sendCommandSetsDcThenWritesTheByte : Obligations.SendCommandSetsDcThenWritesTheByte :=
  fun b _ => exec_oneFrame (w := .command b) rfl rfl

/-- Settles O13: SEND_DATA is one frame at DATA_LEVEL. -/
theorem sendDataSetsDcThenWritesTheByte : Obligations.SendDataSetsDcThenWritesTheByte :=
  fun b _ => exec_oneFrame (w := .data b) rfl rfl

/-- Settles O14: the reset pulse is done, fails at its first SetLine, or fails at its second. -/
theorem resetPulsesTheResetLine : Obligations.ResetPulsesTheResetLine := by
  intro s
  refine ⟨fun h0 h1 => congrArg Host.Outcome.next ?_, fun h0 => congrArg Host.Outcome.next ?_,
    fun h0 h1 => congrArg Host.Outcome.next ?_⟩
  · exact runWork_completes (w := .resetPulse) (pulseReset_done (quiet_two h0 h1))
  · exact runWork_fails (w := .resetPulse) (es := []) [] (pulseReset_fails_low h0)
  · exact runWork_fails (w := .resetPulse) [] (pulseReset_fails_high h0 h1)

/-! ### WAIT_IDLE (R94, R95, R143) -/

/-- Settles O18: the first poll fails; a later one fails, reads idle, reads busy below the bound, or reads
busy at the bound. -/
theorem pollOfARunningRequest : Obligations.PollOfARunningRequest := by
  refine ⟨fun s h0 => congrArg Host.Outcome.next ?_, fun s n ws hr => ?_⟩
  · exact runWork_fails (w := .wait 0) (es := []) [] (pollBusy_fails h0 0)
  · rw [step_running hr]
    refine ⟨fun h0 => congrArg Host.Outcome.next ?_, fun h0 hl => congrArg Host.Outcome.next ?_,
      fun h0 hl hb => congrArg Host.Outcome.next ?_, fun h0 hl hb => congrArg Host.Outcome.next ?_⟩
    · exact runWork_fails (w := .wait n) (es := []) ws (pollBusy_fails h0 n)
    · exact runWork_done (w := .wait n) (pollBusy_idle (quiet_one h0) hl n)
    · exact runWork_busy (w := .wait n) (pollBusy_busy (quiet_one h0) hl hb)
    · exact runWork_raised (w := .wait n) (pollBusy_bound (quiet_one h0) hl hb)

/-- Settles O15: the polls of `polls_wait`, with no line left after the WAIT_IDLE. -/
theorem waitIdleReturnsAtTheFirstIdleReading : Obligations.WaitIdleReturnsAtTheFirstIdleReading := by
  intro s p hq hi hb
  have hpolls := polls_wait [] p hq hi hb (k := 0) rfl
  rw [runWork_nil, complete_afterAll] at hpolls
  exact ⟨runWork [.wait 0] s, rfl, by simpa [State.completedAfter] using hpolls⟩

/-- Settles O16: without a bound every busy reading is one of the rounds of `polls_of_busy`. -/
theorem waitIdleHangsWhileBusy : Obligations.WaitIdleHangsWhileBusy := by
  intro s p hw hq hl
  have hbound : boundReached s.waitBound (0 + (p + 1)) = false := by rw [hw]; rfl
  have hpolls := polls_of_busy [] (p + 1) (s := holdRequest [.wait 0] s) (k := 0) rfl rfl hq hl hbound rfl
  refine ⟨runWork [.wait 0] s, rfl, ?_⟩
  simpa [holdRequest, afterAll_eq, microOps_busy, busyReads_busy, lastSet_busy] using polls_held hpolls

/-! ### A failure inside SET_LUT (R103, R142, R146) -/

/-- A line that no event of the fragment sets keeps its level. -/
theorem lastSet_of_not_set {l : OutLine} {es : List Event} (h : ∀ v, Event.set l v ∉ es)
    (old : Option Level) : lastSet l old es = old := by
  induction es generalizing old with
  | nil => rfl
  | cons e es ih =>
    have ih := ih fun v hv => h v (List.mem_cons_of_mem e hv)
    cases e with
    | set l' v =>
      have hne : l' ≠ l := fun hl => h v (by simp [hl])
      rw [lastSet, if_neg hne, ih]
    | rd v => exact ih old
    | wr b => exact ih old
    | slp ms => exact ih old

/-- A table is sent without SetLine on RST. -/
theorem set_rst_not_mem_lutEvents (p : Params) (fast : Bool) (v : Level) :
    Event.set .rst v ∉ lutEvents p fast := by
  simp [lutEvents, lutPartEvents, commandEvents, blockEvents, dataEvents]

theorem busyReads_of_prefix {pre es : List Event} (h : pre <+: es) (hes : busyReads es = 0) :
    busyReads pre = 0 :=
  Nat.le_zero.1 (hes ▸ h.sublist.countP_le)

/-- Settles O54: `performs_setLut` gives what was sent and the micro-operation that failed; no beginning of a
table sets RST or reads BUSY. -/
theorem setLutFailureIsPrecise : Obligations.SetLutFailureIsPrecise := by
  intro fast s n hn hq hf
  obtain ⟨pre, op, hpre, hm, hop, hr⟩ := (performs_setLut fast s).fails n hn hq hf
  have hrst : lastSet .rst s.rst pre = s.rst :=
    lastSet_of_not_set (fun v hv => set_rst_not_mem_lutEvents s.par fast v (hpre.mem hv)) _
  have hreads : busyReads pre = 0 := busyReads_of_prefix hpre (busyReads_lutEvents ..)
  have hrun : runWork [.lut fast] s = s.failedAfter pre op := runWork_fails (w := .lut fast) [] hr
  refine ⟨pre, op, hpre, hm, hop, congrArg Host.Outcome.next ?_⟩
  rw [hrun, State.failedAfter, hm, hrst, hreads]

end Sys2Proof.Machine
end

section
/-! INIT, SLEEP and SET_LUT (42_init_sleep_lut.md R100 to R103): what each sends when nothing fails and
how each ends, and the transition table of LIFECYCLE (R104) over all requests. -/

namespace Sys2Proof.Machine

/-! ### What SET_LUT and INIT send -/

/-- Settles O19: the one line of the request is done; a table sets no RST and reads no BUSY. -/
theorem setLutSendsTheFiveParts : Obligations.SetLutSendsTheFiveParts := by
  intro fast s hq
  refine congrArg Host.Outcome.next ?_
  rw [runWork_completes (w := .lut fast) (setLut_done fast hq), State.completedAfter,
    busyReads_lutEvents, lastSet_lutEvents_rst, lastSet_lutEvents_dc]

theorem exec_init (s : State) : exec .init s = .next (runWork (initWork s.par ++ []) s) := by
  rw [List.append_nil]
  rfl

/-- Settles O20: `runWork_init` with no line after INIT; the reset pulse leaves RST high and the table
leaves DC at the level of its last frame. -/
theorem initSendsResetScriptAndNormalTable : Obligations.InitSendsResetScriptAndNormalTable := by
  intro s hq hi
  rw [exec_init, runWork_init hq hi, runWork_nil, afterAll_eq, lastSet_initEvents_rst, lastSet_initEvents_dc]
  rfl

/-! ### How INIT ends -/

/-- INIT writes LIFECYCLE first and last and acts on the wire in between, so an exception finds
Initializing. -/
theorem init_ends {s t : State} (h : Ends .init s t) :
    ∃ u, WireOnly (s.setLifecycle .initializing) u ∧
      (t = complete (u.setLifecycle .ready) ∨ ∃ e, t = takeException e u) := by
  obtain ⟨pre, hwire, -, hinit⟩ := initWork_eq s.par
  have hrun : EndsRun (initWork s.par) s t := (ends_iff (i := .init) rfl).1 h
  rw [hinit, endsRun_done (w := .beginInit) rfl] at hrun
  rcases endsRun_wire hwire hrun with ⟨e, u, ht, hu⟩ | ⟨u, hu, hend⟩
  · exact ⟨u, hu, .inr ⟨e, ht⟩⟩
  · rw [endsRun_done (w := .endInit) rfl, endsRun_nil] at hend
    exact ⟨u, hu, .inl hend⟩

/-- INIT writes neither the cache, nor FB, nor anything of the host's. -/
theorem init_writes {s t : State} (h : Ends .init s t) :
    t = { s with
      lifecycle := t.lifecycle
      rst := t.rst
      dc := t.dc
      log := t.log
      env := t.env
      err := t.err
      status := t.status
      running := t.running
      pos := t.pos } := by
  obtain ⟨u, hu, hend⟩ := init_ends h
  unfold WireOnly at hu
  rcases hend with rfl | ⟨e, rfl⟩
  · rw [hu]
    rfl
  · rw [hu]
    rfl

/-- Settles O21: the two ends of INIT, and what it does not write. -/
theorem initEndsReadyOrInitializing : Obligations.InitEndsReadyOrInitializing := by
  intro s t h
  refine ⟨?_, ?_⟩
  · obtain ⟨u, hu, rfl | ⟨e, rfl⟩⟩ := init_ends h
    · exact .inl ⟨rfl, rfl⟩
    · exact .inr ⟨e, rfl, (ControlKept.of_wireOnly hu).lifecycle⟩
  · rw [init_writes h]
    exact ⟨rfl, rfl, rfl, rfl, rfl, rfl, rfl, rfl, rfl, rfl, rfl, rfl⟩

/-! ### SLEEP (R102) -/

/-- The lines of SLEEP: two frames, then LIFECYCLE. -/
def sleepWork (p : Params) : List Work := [.command p.cmdDeepSleep, .data p.sleepCheck, .endSleep]

/-- What SLEEP sends. -/
def sleepEvents (p : Params) : List Event := commandEvents p p.cmdDeepSleep ++ dataEvents p p.sleepCheck

theorem exec_sleep_ready {s : State} (h : s.lifecycle = .ready) :
    exec .sleep s = .next (runWork (sleepWork s.par) s) :=
  if_neg (not_not.2 h)

theorem exec_sleep_refused {s : State} (h : s.lifecycle ≠ .ready) :
    exec .sleep s = .refused .sleepOutsideReady :=
  if_pos h

/-- A SLEEP that was not refused ran from Ready. -/
theorem ready_of_sleep_ends {s t : State} (h : Ends .sleep s t) : s.lifecycle = .ready := by
  obtain ⟨u, hu⟩ := exec_of_ends h
  by_contra hl
  rw [exec_sleep_refused hl] at hu
  cases hu

/-- SLEEP when nothing fails. -/
theorem runWork_sleep {s : State} (hq : s.Quiet 4) :
    runWork (sleepWork s.par) s = complete ((s.afterAll (sleepEvents s.par)).setLifecycle .sleeping) := by
  have hdata := sendData_done (quiet_afterAll s (commandEvents s.par s.par.cmdDeepSleep) hq) s.par.sleepCheck
  rw [afterAll_par, ← afterAll_append] at hdata
  rw [sleepWork, runWork_done (w := .command _) (sendCommand_done (hq.mono (by omega)) _),
    runWork_done (w := .data _) hdata, runWork_done (w := .endSleep) rfl, runWork_nil, sleepEvents]

/-- SLEEP up to its write of LIFECYCLE fails at the first of its four micro-operations that does. -/
theorem runFails_sleep (s : State) : RunFails (sleepWork s.par) s (sleepEvents s.par) := by
  have hdata := performs_sendData s.par.sleepCheck (s.afterAll (commandEvents s.par s.par.cmdDeepSleep))
  rw [afterAll_par] at hdata
  have hrest := RunFails.cons (w := .data s.par.sleepCheck) hdata (runFails_nil [.endSleep] _)
  rw [List.append_nil] at hrest
  exact RunFails.cons (w := .command s.par.cmdDeepSleep) (performs_sendCommand _ s) hrest

/-- Where not all of the next `n` micro-operations succeed, one is the first to fail. -/
theorem exists_first_failure {s : State} {n : Nat} (h : ¬ s.Quiet n) :
    ∃ m, m < n ∧ s.Quiet m ∧ s.env.fails m = true := by
  induction n with
  | zero => exact absurd (fun k hk => absurd hk (Nat.not_lt_zero k)) h
  | succ n ih =>
    by_cases hq : s.Quiet n
    · refine ⟨n, Nat.lt_succ_self n, hq, Bool.eq_true_of_not_eq_false fun hf => h fun k hk => ?_⟩
      rcases Nat.lt_succ_iff_lt_or_eq.1 hk with hlt | rfl
      · exact hq k hlt
      · exact hf
    · obtain ⟨m, hm, hfirst⟩ := ih hq
      exact ⟨m, Nat.lt_succ_of_lt hm, hfirst⟩

/-- Settles O22: SLEEP runs from Ready only; the first of its micro-operations to fail ends it before
LIFECYCLE is written. -/
theorem sleepFromReadyOnly : Obligations.SleepFromReadyOnly := by
  refine fun s => ⟨fun hl hq => ?_, fun hl hq => ?_, exec_sleep_refused⟩
  · rw [exec_sleep_ready hl, runWork_sleep hq, afterAll_eq]
    rfl
  · obtain ⟨n, hn, hquiet, hfail⟩ := exists_first_failure hq
    obtain ⟨pre, op, -, -, -, hrun⟩ := runFails_sleep s n hn hquiet hfail
    rw [exec_sleep_ready hl, hrun]
    exact ⟨_, op, rfl, rfl, by simpa using hl, by simp, by simp, by simp⟩

/-- SLEEP ends in an exception with LIFECYCLE as it was, or is done and in Sleeping. -/
theorem endsRun_sleep {s t : State} (h : EndsRun (sleepWork s.par) s t) :
    (t.status = some .ok ∧ t.lifecycle = .sleeping) ∨
      (t.status ≠ some .ok ∧ t.lifecycle = s.lifecycle) := by
  have hsplit : sleepWork s.par = [.command s.par.cmdDeepSleep, .data s.par.sleepCheck] ++ [.endSleep] := rfl
  rw [hsplit] at h
  rcases endsRun_plain rfl h with ⟨e, u, rfl, hu⟩ | ⟨u, -, hend⟩
  · exact .inr ⟨by simp, hu.lifecycle⟩
  · rw [endsRun_done (w := .endSleep) rfl, endsRun_nil] at hend
    subst hend
    exact .inl ⟨rfl, rfl⟩

/-! ### The transition table (R104) -/

/-- A request of plain lines leaves LIFECYCLE as it is. -/
theorem endsRun_plain_lifecycle {ws : List Work} (hws : ws.all Work.plain = true) {s t : State}
    (h : EndsRun ws s t) : t.lifecycle = s.lifecycle := by
  rw [← List.append_nil ws] at h
  rcases endsRun_plain hws h with ⟨e, u, rfl, hu⟩ | ⟨u, hu, hend⟩
  · exact hu.lifecycle
  · rw [endsRun_nil.1 hend]
    exact hu.lifecycle

/-- An ENCODE_REGION that was not refused is one line. -/
theorem encodeRegion_run {src : Source} {s u : State} (h : exec (.encodeRegion src) s = .next u) :
    ∃ x y n w, exec (.encodeRegion src) s = .next (runWork [.packRegion src x y n w] s) := by
  have hu := h
  simp only [exec, execEncodeRegion] at hu
  split_ifs at hu
  exact ⟨_, _, _, _, h.trans hu.symm⟩

/-- The table's rows for DISPLAY_FRAME. -/
def FrameRow (s t : State) : Prop :=
  (s.lifecycle = .ready ∧ t.lifecycle = .ready) ∨
    (s.lifecycle = .uninitialized ∧ (t.lifecycle = .ready ∨
      (t.status ≠ some .ok ∧ t.lifecycle = .initializing)))

/-- From Uninitialized, LIFECYCLE tells whether an exception came in the lazy INIT or after it. -/
theorem displayFrame_row {s t u : State} (h : displayFrame s = .next u)
    (he : EndsRun (displayFrameWork s) s t) : FrameRow s t := by
  rcases displayFrame_ends h he with ⟨hl, hend⟩ | ⟨hl, hend⟩
  · refine .inl ⟨hl, ?_⟩
    rcases hend with ⟨e, v, rfl, hv⟩ | ⟨v, hv, -, rfl⟩
    · exact hv.lifecycle.trans hl
    · exact hv.lifecycle.trans hl
  · refine .inr ⟨hl, ?_⟩
    rcases hend with ⟨e, v, rfl, hv | hv⟩ | ⟨v, hv, -, rfl⟩
    · exact .inr ⟨by simp, hv.lifecycle⟩
    · exact .inl hv.lifecycle
    · exact .inl hv.lifecycle

theorem endsRun_partial_lifecycle {p : Params} {fast : Bool} {r : Region} {s t : State}
    (h : EndsRun (partialWork p fast r) s t) : t.lifecycle = s.lifecycle := by
  rcases endsRun_partial h with ⟨e, u, rfl, hu⟩ | ⟨u, hu, rfl⟩
  · exact hu.lifecycle
  · exact hu.lifecycle

/-- A block that may display and is initialised is Ready. -/
theorem eq_ready_of_not_displayRefused {l : Lifecycle} (h : l.displayRefused = false)
    (hne : l ≠ .uninitialized) : l = .ready := by
  cases l with
  | uninitialized => exact absurd rfl hne
  | initializing => cases h
  | ready => rfl
  | sleeping => cases h

/-- SMART_UPDATE goes through DISPLAY_FRAME, or has a cached frame, whose block is initialised (R125). -/
theorem smartUpdate_row {s t : State} (hinv : s.Inv) (h : Ends .smartUpdate s t) : FrameRow s t := by
  rcases smartUpdate_ends h with ⟨-, ⟨u, hu⟩, hrun⟩ | ⟨hlast, -, -, -, hl, rfl⟩ |
    ⟨b, u, -, -, -, -, hl, -, hrun⟩
  · exact displayFrame_row hu hrun
  · have hready := eq_ready_of_not_displayRefused hl (hinv.cached hlast)
    exact .inl ⟨hready, hready⟩
  · exact .inl ⟨hl, (endsRun_partial_lifecycle hrun).trans hl⟩

/-- Settles O23, row by row: the four requests that write LIFECYCLE by how they end, DISPLAY_PARTIAL and
the seven others because none of their lines writes it. -/
theorem lifecycleChangesOnlyAsTheTableSays : Obligations.LifecycleChangesOnlyAsTheTableSays := by
  intro i s t h
  have oneLine : ∀ w : Work, w.plain = true → exec i s = .next (runWork [w] s) →
      t.lifecycle = s.lifecycle := by
    intro w hw hi
    exact endsRun_plain_lifecycle (ws := [w]) (by simpa using hw) ((ends_iff hi).1 h)
  cases i with
  | init =>
    obtain ⟨hend, -⟩ := initEndsReadyOrInitializing s t h
    exact hend.imp_right fun ⟨e, hst, hl⟩ => ⟨by simp [hst], hl⟩
  | sleep =>
    have hl := ready_of_sleep_ends h
    have hend := endsRun_sleep ((ends_iff (exec_sleep_ready hl)).1 h)
    rw [hl] at hend
    exact ⟨hl, hend⟩
  | displayFrame =>
    obtain ⟨u, hu⟩ := exec_of_ends h
    exact displayFrame_row hu ((ends_iff (i := .displayFrame) (displayFrame_run hu)).1 h)
  | displayPartial fast =>
    obtain ⟨u, hu⟩ := exec_of_ends h
    obtain ⟨-, -, hl, -⟩ := displayPartial_next hu
    have hrun := (ends_iff (i := .displayPartial fast) (displayPartial_run hu)).1 h
    exact ⟨hl, (endsRun_partial_lifecycle hrun).trans hl⟩
  | smartUpdate => exact fun hinv => smartUpdate_row hinv h
  | sendCommand b => exact oneLine (.command b) rfl rfl
  | sendData b => exact oneLine (.data b) rfl rfl
  | reset => exact oneLine .resetPulse rfl rfl
  | waitIdle => exact oneLine (.wait 0) rfl rfl
  | encode => exact oneLine .encode rfl rfl
  | encodeRegion src =>
    obtain ⟨u, hu⟩ := exec_of_ends h
    obtain ⟨x, y, n, w, hrun⟩ := encodeRegion_run hu
    exact oneLine (.packRegion src x y n w) rfl hrun
  | setLut fast => exact oneLine (.lut fast) rfl rfl

end Sys2Proof.Machine
end

section
/-! The frame-buffer codec (43_framebuffer_codec.md R110 to R117): which byte and bit of a packed buffer a
pixel is, that the packing the requests run is that of the spec, and what ENCODE and ENCODE_REGION leave
in FB. -/

namespace Sys2Proof.Machine

/-! ### The place of a pixel (R41) -/

section Place
variable {w : Nat} (hw : w % 8 = 0)
include hw

/-- The byte of a pixel: the rows before it, then the bytes to its left. -/
theorem pixelByte_eq (x y : Nat) : (x + y * w) / 8 = y * (w / 8) + x / 8 := by
  obtain ⟨n, rfl⟩ := Nat.dvd_of_mod_eq_zero hw
  rw [Nat.mul_left_comm, Nat.mul_div_cancel_left n (by decide)]
  omega

theorem pixelByte_lt {x y h : Nat} (hx : x < w) (hy : y < h) : (x + y * w) / 8 < w / 8 * h := by
  have hc : x / 8 < w / 8 := by omega
  calc (x + y * w) / 8 = y * (w / 8) + x / 8 := pixelByte_eq hw x y
    _ < (y + 1) * (w / 8) := by rw [Nat.succ_mul]; omega
    _ ≤ h * (w / 8) := Nat.mul_le_mul_right _ hy
    _ = w / 8 * h := Nat.mul_comm ..

/-- Two pixels of a region have the same bit of the same byte only if they are one pixel. -/
theorem pixelPlace_inj {x y i j : Nat} (hx : x < w) (hi : i < w) :
    ((i + j * w) / 8 = (x + y * w) / 8 ∧ i % 8 = x % 8) ↔ j = y ∧ i = x := by
  refine ⟨fun ⟨hbyte, hbit⟩ => ?_, fun ⟨hj, hi⟩ => by rw [hi, hj]; exact ⟨rfl, rfl⟩⟩
  rw [pixelByte_eq hw, pixelByte_eq hw, Nat.mul_comm j, Nat.mul_comm y] at hbyte
  have hc : i / 8 < w / 8 ∧ x / 8 < w / 8 := by omega
  have hrow := congrArg (· / (w / 8)) hbyte
  simp only [Nat.mul_add_div (Nat.zero_lt_of_lt hc.1), Nat.div_eq_of_lt hc.1, Nat.div_eq_of_lt hc.2,
    Nat.add_zero] at hrow
  subst hrow
  omega

/-- Bit 7 - t of byte k is the place of the pixel in row k div (w/8), column 8*(k mod (w/8)) + t. -/
theorem exists_pixelAtPlace {h k t : Nat} (hk : k < w / 8 * h) (ht : t < 8) :
    ∃ x y, x < w ∧ y < h ∧ (x + y * w) / 8 = k ∧ x % 8 = t := by
  have hn : 0 < w / 8 := Nat.pos_of_mul_pos_right (Nat.zero_lt_of_lt hk)
  have hc : k % (w / 8) < w / 8 := Nat.mod_lt _ hn
  refine ⟨8 * (k % (w / 8)) + t, k / (w / 8), by omega, Nat.div_lt_of_lt_mul hk, ?_, by omega⟩
  rw [pixelByte_eq hw, show (8 * (k % (w / 8)) + t) / 8 = k % (w / 8) by omega]
  exact Nat.div_add_mod' ..

/-- A region of such a width has no padding bits (R112). -/
theorem ceilDiv_mul (h : Nat) : ceilDiv (w * h) 8 = w / 8 * h := by
  obtain ⟨n, rfl⟩ := Nat.dvd_of_mod_eq_zero hw
  rw [ceilDiv, Nat.mul_assoc, Nat.mul_div_cancel_left n (by decide)]
  omega

end Place

/-! ### Unpacking (R117) -/

/-- Column `x` is bit 7 - x mod 8 of its byte, the leftmost bit for `x` mod 8 = 0. -/
theorem unpack_eq_getMsbD (buf : List Byte) (w x y : Nat) :
    unpack buf w x y = (buf.getD ((x + y * w) / 8) 0#8).getMsbD (x % 8) := by
  rw [unpack, BitVec.getMsbD, decide_eq_true (Nat.mod_lt x (by decide)), Bool.true_and, BitVec.getLsbD,
    BitVec.toNat_ushiftRight, Nat.testBit_eq_decide_div_mod_eq, Nat.shiftRight_eq_div_pow]
  rfl

theorem unpack_pack (f : Nat → Nat → Bool) {r : Region} (hw : r.w % 8 = 0) {x y : Nat} (hx : x < r.w)
    (hy : y < r.h) : unpack (pack f r) r.w x y = f (r.x + x) (r.y + y) := by
  rw [unpack, pixelByte_eq hw, pack_getD f r _ hy (by omega), byteOfPixels_bit _ (Nat.mod_lt x (by decide)),
    Nat.add_assoc, Nat.div_add_mod]

/-- The pixels of a region determine the buffer. -/
theorem eq_of_unpack_eq {w h : Nat} (hw : w % 8 = 0) {buf buf' : List Byte}
    (hlen : buf.length = w / 8 * h) (hlen' : buf'.length = w / 8 * h)
    (hpix : ∀ x y, x < w → y < h → unpack buf w x y = unpack buf' w x y) : buf = buf' := by
  refine List.ext_getElem (hlen.trans hlen'.symm) fun k hk hk' => BitVec.eq_of_getMsbD_eq fun t ht => ?_
  obtain ⟨x, y, hx, hy, rfl, rfl⟩ := exists_pixelAtPlace hw (hlen ▸ hk) ht
  have hbit := hpix x y hx hy
  rwa [unpack_eq_getMsbD, unpack_eq_getMsbD, List.getD_eq_getElem _ _ hk,
    List.getD_eq_getElem _ _ hk'] at hbit

/-- Settles O29, from the length of a packed buffer and the bit of each pixel in it. -/
theorem unpackInvertsPack : Obligations.UnpackInvertsPack := fun f r hw =>
  ⟨(pack_length f r).trans (ceilDiv_mul hw r.h).symm, fun _ _ hi hj => unpack_pack f hw hi hj⟩

/-! ### The two loops of the spec (R111) -/

/-- The mask of R111 has one bit, that of its column. -/
theorem getMsbD_mask {t i : Nat} (ht : t < 8) : (0x80#8 >>> i).getMsbD t = decide (i = t) := by
  have hmsb : ∀ k : Fin 8, (0x80#8).getMsbD k = decide (k.val = 0) := by decide
  rw [BitVec.getMsbD_ushiftRight, hmsb ⟨t - i, by omega⟩, decide_eq_true ht, Bool.true_and,
    ← decide_not, ← Bool.decide_and]
  refine decide_eq_decide.2 ?_
  dsimp only
  omega

@[simp] theorem packStep_length (f : Nat → Nat → Bool) (r : Region) (buf : List Byte) (j i : Nat) :
    (packStep f r buf j i).length = buf.length := by
  unfold packStep
  split <;> simp

/-- One turn of the loop sets the bit of its pixel if that is white, and no other bit. -/
theorem getMsbD_packStep (f : Nat → Nat → Bool) (r : Region) {buf : List Byte} {k t : Nat}
    (hk : k < buf.length) (ht : t < 8) (j i : Nat) :
    ((packStep f r buf j i).getD k 0#8).getMsbD t =
      ((buf.getD k 0#8).getMsbD t ||
        (decide ((i + j * r.w) / 8 = k ∧ i % 8 = t) && f (r.x + i) (r.y + j))) := by
  unfold packStep
  by_cases hf : f (r.x + i) (r.y + j) = true
  · by_cases hbyte : (i + j * r.w) / 8 = k
    · simp [hf, hbyte, hk, getMsbD_mask ht]
    · simp [hf, hbyte]
  · simp [hf]

section Loop
variable {f : Nat → Nat → Bool} {r : Region} (hw : r.w % 8 = 0) {x y : Nat} (hx : x < r.w) (hy : y < r.h)
include hw hx hy

theorem unpack_packStep {buf : List Byte} (hlen : buf.length = r.w / 8 * r.h) {i : Nat} (hi : i < r.w)
    (j : Nat) : unpack (packStep f r buf j i) r.w x y =
      (unpack buf r.w x y || (decide (j = y ∧ i = x) && f (r.x + x) (r.y + y))) := by
  have hk : (x + y * r.w) / 8 < buf.length := hlen ▸ pixelByte_lt hw hx hy
  have hplace : decide ((i + j * r.w) / 8 = (x + y * r.w) / 8 ∧ i % 8 = x % 8) = decide (j = y ∧ i = x) :=
    decide_eq_decide.2 (pixelPlace_inj hw hx hi)
  rw [unpack_eq_getMsbD, getMsbD_packStep f r hk (Nat.mod_lt x (by decide)), hplace, ← unpack_eq_getMsbD]
  by_cases hp : j = y ∧ i = x
  · simp only [hp.1, hp.2]
  · simp [hp]

/-- After turns for a list of pixels, the white ones among them are set. -/
theorem unpack_foldl_packStep (ps : List (Nat × Nat)) (hps : ∀ p ∈ ps, p.2 < r.w) {buf : List Byte}
    (hlen : buf.length = r.w / 8 * r.h) :
    unpack (ps.foldl (fun b p => packStep f r b p.1 p.2) buf) r.w x y =
      (unpack buf r.w x y || (decide ((y, x) ∈ ps) && f (r.x + x) (r.y + y))) := by
  induction ps generalizing buf with
  | nil => simp
  | cons p ps ih =>
    have hmem : (y, x) ∈ p :: ps ↔ (p.1 = y ∧ p.2 = x) ∨ (y, x) ∈ ps := by
      rw [List.mem_cons, Prod.ext_iff, eq_comm, eq_comm (a := x)]
    rw [List.foldl_cons, ih (fun q hq => hps q (List.mem_cons_of_mem p hq)) ((packStep_length ..).trans hlen),
      unpack_packStep hw hx hy hlen (hps p List.mem_cons_self) p.1, decide_eq_decide.2 hmem, Bool.decide_or,
      Bool.and_or_distrib_right, Bool.or_assoc]

end Loop

theorem foldl_packStep_length (f : Nat → Nat → Bool) (r : Region) (ps : List (Nat × Nat))
    (buf : List Byte) :
    (ps.foldl (fun b p => packStep f r b p.1 p.2) buf).length = buf.length := by
  induction ps generalizing buf with
  | nil => rfl
  | cons p ps ih => rw [List.foldl_cons, ih, packStep_length]

/-- The two nested loops are one loop over the pixels of the region, row by row. -/
theorem packLoop_eq_foldl (f : Nat → Nat → Bool) (r : Region) :
    packLoop f r = (List.range r.h ×ˢ List.range r.w).foldl (fun b p => packStep f r b p.1 p.2)
      (List.replicate (ceilDiv (r.w * r.h) 8) 0#8) := by
  simp [packLoop, SProd.sprod, List.product, List.foldl_flatMap, List.foldl_map]

theorem packLoop_length (f : Nat → Nat → Bool) (r : Region) :
    (packLoop f r).length = ceilDiv (r.w * r.h) 8 := by
  rw [packLoop_eq_foldl, foldl_packStep_length, List.length_replicate]

theorem unpack_packLoop (f : Nat → Nat → Bool) {r : Region} (hw : r.w % 8 = 0) {x y : Nat} (hx : x < r.w)
    (hy : y < r.h) : unpack (packLoop f r) r.w x y = f (r.x + x) (r.y + y) := by
  have hzero : unpack (List.replicate (ceilDiv (r.w * r.h) 8) 0#8) r.w x y = false := by
    simp [unpack_eq_getMsbD]
  rw [packLoop_eq_foldl, unpack_foldl_packStep hw hx hy _ (by simp) (by simp [ceilDiv_mul hw]), hzero]
  simp [hx, hy]

/-- Settles O28: the two buffers have the same length, and unpack to the same pixels. -/
theorem packAgreesWithTheLoopOfTheSpec : Obligations.PackAgreesWithTheLoopOfTheSpec := fun f r hw =>
  eq_of_unpack_eq hw (pack_length f r) ((packLoop_length f r).trans (ceilDiv_mul hw r.h))
    fun _ _ hx hy => (unpack_pack f hw hx hy).trans (unpack_packLoop f hw hx hy).symm

/-! ### ENCODE and ENCODE_REGION (R113 to R116) -/

/-- In FB after a packing, each pixel of the region is the bit of R41. -/
theorem read_putFb_pack (s : State) (f : Nat → Nat → Bool) {r : Region} (hw : r.w % 8 = 0) {x y : Nat}
    (hx : x < r.w) (hy : y < r.h) :
    ((Memory.read unlistedByte (s.putFb (pack f r)).fb ((x + y * r.w) / 8) >>> (7 - x % 8)).toNat % 2 == 1) =
      f (r.x + x) (r.y + y) := by
  rw [putFb_fb, read_writeFront, if_pos (by rw [pack_length]; exact pixelByte_lt hw hx hy)]
  exact unpack_pack f hw hx hy

/-- From the packed length on, FB reads as before. -/
theorem read_putFb_beyond (s : State) (buf : List Byte) {a : Nat} (ha : buf.length ≤ a) :
    Memory.read unlistedByte (s.putFb buf).fb a = Memory.read unlistedByte s.fb a := by
  rw [putFb_fb, read_writeFront, if_neg (by omega)]

/-- Settles O25: the one line of ENCODE is done and packs the panel, or raises DimensionError. -/
theorem encodePacksThePanelOrRaisesDimensionError :
    Obligations.EncodePacksThePanelOrRaisesDimensionError := by
  intro s
  refine ⟨fun hpw hph => ⟨(s.putFb (pack (s.pixel .pix) panelRegion)).fb, ?_, ?_, ?_⟩, fun hp => ?_⟩
  · refine congrArg Host.Outcome.next ?_
    rw [runWork_done (encode_done (panelSized_iff.2 ⟨hpw, hph⟩)), runWork_nil, complete, State.putFb,
      pack_length]
    rfl
  · intro x y hx hy
    simpa [panelRegion] using read_putFb_pack s (s.pixel .pix) (r := panelRegion) rfl hx hy
  · exact fun a ha => read_putFb_beyond s _ ((pack_length ..).trans_le ha)
  · exact congrArg Host.Outcome.next (runWork_raised (encode_raised (mt panelSized_iff.1 hp)))

/-- The one line of an ENCODE_REGION that R114 admits is done. -/
theorem exec_encodeRegion_admitted {src : Source} {s : State} (hlast : src = .last → s.haveLast = true)
    (hw : s.region.w % 8 = 0) (hx : s.region.x + s.region.w ≤ s.srcWidth src)
    (hy : s.region.y + s.region.h ≤ s.srcHeight src) (hlen : s.region.w / 8 * s.region.h ≤ 5808) :
    exec (.encodeRegion src) s = .next (complete (s.putFb (pack (s.pixel src) s.region))) := by
  have hcached : ¬ (src = .last ∧ s.haveLast = false) := fun ⟨h, hn⟩ => by simp [hlast h] at hn
  exact (if_neg hcached).trans ((if_neg (not_not.2 hw)).trans
    ((if_neg (not_or.2 ⟨hx.not_gt, hy.not_gt⟩)).trans (if_neg hlen.not_gt)))

/-- Settles O26: what the admitted request leaves in FB; the length, at most 5808, fits into FB_LEN. -/
theorem encodeRegionPacksTheRegion : Obligations.EncodeRegionPacksTheRegion := by
  intro src s hlast hw hx hy hlen
  have hlen16 : (s.putFb (pack (s.pixel src) s.region)).fbLen.toNat = s.region.w / 8 * s.region.h := by
    rw [putFb_fbLen, pack_length, BitVec.toNat_ofNat]
    exact Nat.mod_eq_of_lt (Nat.lt_of_le_of_lt hlen (by decide))
  refine ⟨_, _, exec_encodeRegion_admitted hlast hw hx hy hlen, hlen16, ?_, ?_⟩
  · exact fun i j hi hj => read_putFb_pack s (s.pixel src) (r := s.region) hw hi hj
  · exact fun a ha => read_putFb_beyond s _ (by rwa [pack_length, ← hlen16])

/-- Settles O27: the branches of ENCODE_REGION in their order. -/
theorem encodeRegionRefusals : Obligations.EncodeRegionRefusals := by
  intro src s
  refine ⟨fun hlast => ?_, fun hlast hw => ?_, fun hlast hw hout => ?_, fun hlast hw hx hy hlen => ?_⟩
  · exact if_pos hlast
  · exact (if_neg hlast).trans (if_pos hw)
  · exact (if_neg hlast).trans ((if_neg (not_not.2 hw)).trans (if_pos hout))
  · exact (if_neg hlast).trans ((if_neg (not_not.2 hw)).trans
      ((if_neg (not_or.2 ⟨hx.not_gt, hy.not_gt⟩)).trans (if_pos hlen)))

end Sys2Proof.Machine
end

section
/-! The refresh transactions (44_refresh_transactions.md R120 to R127): which display requests are refused,
the alignment of a partial region, what DISPLAY_FRAME and DISPLAY_PARTIAL send and leave, how many events
that is, and where a failing DISPLAY_FRAME stops. -/

namespace Sys2Proof.Machine

/-! ### Refusals (R120, R125, R151) -/

theorem displayRefused_iff {l : Lifecycle} :
    l.displayRefused = true ↔ l = .sleeping ∨ l = .initializing := by
  cases l <;> decide

theorem exec_displayFrame_refused {s : State} (h : s.lifecycle.displayRefused = true) :
    exec .displayFrame s = .refused .displayWhileNotReady :=
  if_pos h

theorem exec_displayFrame_admitted {s : State} (h : ¬ s.lifecycle.displayRefused = true) :
    exec .displayFrame s = .next (runWork (displayFrameWork s) s) :=
  if_neg h

/-- From Ready there is no INIT in front. -/
theorem exec_displayFrame_ready {s : State} (h : s.lifecycle = .ready) :
    exec .displayFrame s = .next (runWork (frameWork s.par) s) := by
  rw [exec_displayFrame_admitted (by rw [h]; decide), displayFrameWork, if_neg (by rw [h]; decide)]

/-- From Uninitialized the lines of INIT come first. -/
theorem exec_displayFrame_uninitialized {s : State} (h : s.lifecycle = .uninitialized) :
    exec .displayFrame s = .next (runWork (initWork s.par ++ frameWork s.par) s) := by
  rw [exec_displayFrame_admitted (by rw [h]; decide), displayFrameWork, if_pos h]

theorem exec_displayPartial_refused {s : State} (fast : Bool) (h : s.lifecycle ≠ .ready) :
    exec (.displayPartial fast) s = .refused .displayWhileNotReady :=
  if_pos h

/-- The tests of DISPLAY_PARTIAL past that of LIFECYCLE. -/
theorem exec_displayPartial_ready {s : State} (fast : Bool) (h : s.lifecycle = .ready) :
    exec (.displayPartial fast) s =
      if s.haveLast = false then .refused .noLastFrame
      else if s.panelSized = false then .refused .imageNotPanelSized
      else if s.region.aligned.x + s.region.aligned.w > Config.width ∨
          s.region.aligned.y + s.region.aligned.h > Config.height then
        .refused .regionOutsidePanel
      else .next (runWork (partialWork s.par fast s.region.aligned) s) :=
  if_neg (not_not.2 h)

/-- Settles O24: the first test of each request; the later refusals of DISPLAY_PARTIAL bear other names. -/
theorem displayRequestsAreRefusedWhileNotReady : Obligations.DisplayRequestsAreRefusedWhileNotReady := by
  intro s
  refine ⟨⟨fun h => ?_, fun h => exec_displayFrame_refused (displayRefused_iff.2 h)⟩,
    fun fast => ⟨fun h hl => ?_, exec_displayPartial_refused fast⟩,
    fun h => if_pos (displayRefused_iff.2 h)⟩
  · by_contra hl
    rw [exec_displayFrame_admitted (mt displayRefused_iff.1 hl)] at h
    cases h
  · rw [exec_displayPartial_ready fast hl] at h
    split_ifs at h <;> cases h

theorem panelSized_eq_false {s : State} (h : ¬ (s.regs.pixW = 176#16 ∧ s.regs.pixH = 264#16)) :
    s.panelSized = false :=
  Bool.eq_false_iff.2 (mt panelSized_iff.1 h)

/-- With a cached frame and an image of the panel's size the region decides. -/
theorem exec_displayPartial_panelSized {s : State} (fast : Bool) (hl : s.lifecycle = .ready)
    (hc : s.haveLast = true) (hpw : s.regs.pixW = 176#16) (hph : s.regs.pixH = 264#16) :
    exec (.displayPartial fast) s =
      if s.region.aligned.x + s.region.aligned.w > Config.width ∨
          s.region.aligned.y + s.region.aligned.h > Config.height then
        .refused .regionOutsidePanel
      else .next (runWork (partialWork s.par fast s.region.aligned) s) := by
  rw [exec_displayPartial_ready fast hl, if_neg (ne_false_of_eq_true hc),
    if_neg (ne_false_of_eq_true (panelSized_iff.2 ⟨hpw, hph⟩))]

/-- Settles O37: the tests of DISPLAY_PARTIAL in their order. -/
theorem displayPartialRefusals : Obligations.DisplayPartialRefusals := by
  refine fun fast s => ⟨exec_displayPartial_refused fast, fun hl hc => ?_, fun hl hc hp => ?_,
    fun hl hc hpw hph hout => ?_⟩
  · rw [exec_displayPartial_ready fast hl, if_pos hc]
  · rw [exec_displayPartial_ready fast hl, if_neg (ne_false_of_eq_true hc), if_pos (panelSized_eq_false hp)]
  · exact (exec_displayPartial_panelSized fast hl hc hpw hph).trans (if_pos hout)

/-! ### Alignment (R123) -/

theorem le_rd8_add (v : Nat) : v ≤ rd8 v + 7 := by
  rw [rd8_eq]
  omega

theorem ru8_le (v : Nat) : ru8 v ≤ v + 7 := by
  rw [ru8_eq]
  omega

/-- Settles O31: x and w are rounded each by itself, so the right edge is missed by what x loses at most. -/
theorem alignmentOfAPartialRegion : Obligations.AlignmentOfAPartialRegion := by
  intro r
  refine ⟨rd8_mod _, rd8_le _, le_rd8_add _, ru8_mod _, le_ru8 _, ru8_le _, rfl, rfl, fun hx => ?_, ?_⟩
  · exact Nat.add_le_add (rd8_of_mod hx).ge (le_ru8 _)
  · calc r.x + r.w ≤ (rd8 r.x + 7) + ru8 r.w := Nat.add_le_add (le_rd8_add _) (le_ru8 _)
      _ = rd8 r.x + ru8 r.w + 7 := Nat.add_right_comm ..

/-! ### DISPLAY_FRAME when nothing fails (R121) -/

/-- Settles O32: `polls_frame` from a block that is Ready. -/
theorem displayFrameFromReady : Obligations.DisplayFrameFromReady :=
  fun _ _ hl hpw hph hq hi hb =>
    ⟨_, exec_displayFrame_ready hl, polls_frame (panelSized_iff.2 ⟨hpw, hph⟩) rfl hq hi hb⟩

/-- The block after an INIT in which nothing failed and every Wait read idle at once. -/
def State.afterInit (s : State) : State :=
  { s with
    lifecycle := .ready
    rst := some .high
    dc := some (lutLastLevel s.par false)
    log := (initEvents s.par).reverse ++ s.log
    env := s.env.advance (microOps (initEvents s.par)) (busyReads (initEvents s.par)) }

theorem runWork_init_append {ws : List Work} {s : State} (hq : s.Quiet (microOps (initEvents s.par)))
    (hi : s.IdleFor (busyReads (initEvents s.par))) :
    runWork (initWork s.par ++ ws) s = runWork ws s.afterInit := by
  rw [runWork_init hq hi, afterAll_eq, lastSet_initEvents_rst, lastSet_initEvents_dc]
  rfl

/-- What is left of a quiet stretch after INIT. -/
theorem quiet_afterInit {s : State} {n : Nat} (h : s.Quiet (microOps (initEvents s.par) + n)) :
    s.afterInit.Quiet n := by
  intro k hk
  exact (fails_advance ..).trans (h _ (by omega))

/-- Settles O33: the lines after INIT run as from Ready, on what INIT left. -/
theorem displayFrameInitialisesFirst : Obligations.DisplayFrameInitialisesFirst := by
  rintro s p _ _ hl hpw hph rfl rfl hq hi hbusy hidle hb
  rw [Nat.add_assoc] at hq
  have hidleAfter : s.afterInit.IdleAfter p :=
    ⟨fun k hk => (level_advance ..).trans_ne (hbusy k hk), (level_advance ..).trans hidle⟩
  have hpolls := polls_frame (s := s.afterInit) (panelSized_iff.2 ⟨hpw, hph⟩) rfl (quiet_afterInit hq)
    hidleAfter hb
  refine ⟨_, exec_displayFrame_uninitialized hl, ?_⟩
  rw [runWork_init_append (hq.mono (by omega)) hi, List.append_assoc (initEvents _), List.reverse_append,
    List.append_assoc, Nat.add_assoc, ← advance_advance]
  exact hpolls

/-! ### DISPLAY_FRAME of an image of another size (R121, R141) -/

/-- The table is sent, then ENCODE refuses the image. -/
theorem runWork_frame_wrongSize {s : State} (hp : ¬ (s.regs.pixW = 176#16 ∧ s.regs.pixH = 264#16))
    (hq : s.Quiet (microOps (lutEvents s.par false))) :
    runWork (frameWork s.par) s =
      { s with
        dc := some (lutLastLevel s.par false)
        log := (lutEvents s.par false).reverse ++ s.log
        env := s.env.advance (microOps (lutEvents s.par false)) 0
        err := s.err ||| 0b0001#4
        status := some (.failed (.dimension s.regs.pixW s.regs.pixH))
        running := none
        pos := s.pos + 1 } := by
  have hsize : ¬ (s.afterAll (lutEvents s.par false)).panelSized = true := by
    rwa [panelSized_iff, afterAll_regs]
  rw [frameWork, runWork_done (w := .lut false) (setLut_done false hq), runWork_raised (encode_raised hsize),
    afterAll_eq, lastSet_lutEvents_rst, lastSet_lutEvents_dc, busyReads_lutEvents]
  rfl

/-- Settles O34: `runWork_frame_wrongSize` from Uninitialized, on what INIT left, and from Ready. -/
theorem displayFrameOfAWrongSizeSendsTheTableFirst :
    Obligations.DisplayFrameOfAWrongSizeSendsTheTableFirst := by
  refine ⟨fun s hl hp hq hi => ?_, fun s hl hp hq => ?_⟩
  · rw [microOps_append] at hq ⊢
    have hrun := runWork_frame_wrongSize (s := s.afterInit) hp (quiet_afterInit hq)
    rw [exec_displayFrame_uninitialized hl, runWork_init_append (hq.mono (by omega)) hi, List.reverse_append,
      List.append_assoc, ← Nat.add_zero (busyReads _), ← advance_advance]
    exact congrArg Host.Outcome.next hrun
  · rw [exec_displayFrame_ready hl, runWork_frame_wrongSize hp hq]

/-! ### DISPLAY_PARTIAL when nothing fails (R124) -/

/-- Settles O36: `polls_partial` for the aligned region. -/
theorem displayPartialTransaction : Obligations.DisplayPartialTransaction := by
  rintro fast s _ _ _ p hl hc hpw hph rfl hx hy rfl rfl hq hi hb
  exact ⟨_, (exec_displayPartial_panelSized fast hl hc hpw hph).trans
    (if_neg (not_or.2 ⟨hx.not_gt, hy.not_gt⟩)), polls_partial rfl rfl hq hi hb⟩

/-! ### How many events (R122, R126) -/

@[simp] theorem bytesWritten_append (es es' : List Event) :
    bytesWritten (es ++ es') = bytesWritten es + bytesWritten es' := List.countP_append

@[simp] theorem length_commandEvents (p : Params) (b : Byte) : (commandEvents p b).length = 2 := rfl

@[simp] theorem bytesWritten_commandEvents (p : Params) (b : Byte) : bytesWritten (commandEvents p b) = 1 :=
  rfl

@[simp] theorem bytesWritten_dataEvents (p : Params) (b : Byte) : bytesWritten (dataEvents p b) = 1 := rfl

@[simp] theorem bytesWritten_blockEvents (p : Params) (bs : List Byte) :
    bytesWritten (blockEvents p bs) = bs.length := by
  induction bs with
  | nil => rfl
  | cons b bs ih => rw [blockEvents_cons, bytesWritten_append, bytesWritten_dataEvents, ih, List.length_cons,
      Nat.add_comm]

@[simp] theorem length_lutEvents (p : Params) (fast : Bool) :
    (lutEvents p fast).length = 2 * (5 + lutBytes p fast) := by
  simp only [lutEvents, lutPartEvents, List.length_append, length_commandEvents, length_blockEvents, lutBytes,
    Lut.at]
  omega

@[simp] theorem bytesWritten_lutEvents (p : Params) (fast : Bool) :
    bytesWritten (lutEvents p fast) = 5 + lutBytes p fast := by
  simp only [lutEvents, lutPartEvents, bytesWritten_append, bytesWritten_commandEvents,
    bytesWritten_blockEvents, lutBytes, Lut.at]
  omega

@[simp] theorem length_pollEvents (p : Params) (n : Nat) : (pollEvents p n).length = 2 * n + 1 := by
  simp [pollEvents, Nat.mul_comm]

@[simp] theorem bytesWritten_pollEvents (p : Params) (n : Nat) : bytesWritten (pollEvents p n) = 0 := by
  simp [pollEvents, bytesWritten, Event.isWrite]

/-- FULL is the table, three commands and two buffers (R69). -/
theorem length_frameEvents (p : Params) {buf : List Byte} (h : buf.length = 5808) :
    (frameEvents p buf).length = 2 * lutBytes p false + 23248 := by
  simp only [frameEvents, List.length_append, length_lutEvents, length_commandEvents, length_blockEvents,
    List.length_replicate, h, Config.frameBytes]
  omega

theorem bytesWritten_frameEvents (p : Params) {buf : List Byte} (h : buf.length = 5808) :
    bytesWritten (frameEvents p buf) = 11624 + lutBytes p false := by
  simp only [frameEvents, bytesWritten_append, bytesWritten_lutEvents, bytesWritten_commandEvents,
    bytesWritten_blockEvents, List.length_replicate, h, Config.frameBytes]
  omega

/-- Settles O35: the events are those of O32. -/
theorem eventCountOfDisplayFrame : Obligations.EventCountOfDisplayFrame := by
  intro s p hl hpw hph hq hi hb
  obtain ⟨u, hu, hpolls⟩ := displayFrameFromReady s p hl hpw hph hq hi hb
  have hlen : (pack (s.pixel .pix) panelRegion).length = 5808 := length_pack_panel _
  refine ⟨_, _, ⟨u, hu, hpolls⟩, rfl, trace_append_of_log rfl, ?_, ?_⟩
  · rw [List.length_append, length_frameEvents _ hlen, length_pollEvents]
    omega
  · rw [bytesWritten_append, bytesWritten_frameEvents _ hlen, bytesWritten_pollEvents, Nat.add_zero]

/-- PART is three commands, the header three times, the two contents and the wait, and two tables when
fast (R69). -/
theorem length_partialEvents (p : Params) (fast : Bool) {hdr old new : List Byte} {n : Nat}
    (hhdr : hdr.length = 8) (hold : old.length = n) (hnew : new.length = n) (k : Nat) :
    (partialEvents p fast hdr old new k).length = 2 * (27 + 2 * n) + (2 * k + 1) +
      (if fast then 2 * (5 + lutBytes p true) + 2 * (5 + lutBytes p false) else 0) := by
  simp only [partialEvents, List.length_append, length_commandEvents, length_blockEvents, length_pollEvents,
    hhdr, hold, hnew]
  cases fast with
  | false =>
    simp only [Bool.false_eq_true, if_false, List.length_nil]
    omega
  | true =>
    simp only [if_true, length_lutEvents]
    omega

/-- Settles O38: the events are those of O36. -/
theorem eventCountOfDisplayPartial : Obligations.EventCountOfDisplayPartial := by
  rintro fast s r _ p hl hc hpw hph hr hx hy rfl hq hi hb
  obtain ⟨u, hu, hpolls⟩ := displayPartialTransaction fast s r _ _ p hl hc hpw hph hr hx hy rfl rfl hq hi hb
  exact ⟨_, _, ⟨u, hu, hpolls⟩, rfl, trace_append_of_log rfl,
    length_partialEvents s.par fast (header_length r) (pack_length _ r) (pack_length _ r) p⟩

/-! ### A failure inside DISPLAY_FRAME (R142, R146, R147) -/

/-- What DISPLAY_FRAME sends between its ENCODE and its wait. -/
def imageEvents (p : Params) (buf : List Byte) : List Event :=
  commandEvents p p.cmdDtx1 ++ (blockEvents p (List.replicate Config.frameBytes 0xFF#8) ++
    (commandEvents p p.cmdDtx2 ++ (blockEvents p buf ++ commandEvents p p.cmdRefresh)))

theorem frameEvents_eq (p : Params) (buf : List Byte) :
    frameEvents p buf = lutEvents p false ++ imageEvents p buf := by
  simp [frameEvents, imageEvents]

/-- The lines after ENCODE, the buffer being in FB, fail at the first micro-operation that does. -/
theorem runFails_image {s : State} {buf : List Byte} (es : List Event)
    (hfb : s.fb.units unlistedByte Config.frameBytes = buf) :
    RunFails ((frameWork s.par).drop 2) (s.afterAll es) (imageEvents s.par buf) := by
  rw [← List.append_nil (imageEvents s.par buf), imageEvents]
  simp only [List.append_assoc]
  exact .command _ (.block _ (.command _ (.fbBlock hfb (.command _ (runFails_nil _ _)))))

theorem set_rst_not_mem_frameEvents (p : Params) (buf : List Byte) (v : Level) :
    Event.set .rst v ∉ frameEvents p buf := by
  simp [frameEvents, set_rst_not_mem_lutEvents, commandEvents, blockEvents, dataEvents]

/-- A beginning of DISPLAY_FRAME leaves RST alone and reads no BUSY. -/
theorem failedAfter_frame (s : State) {p : Params} {buf : List Byte} {pre : List Event}
    (hpre : pre <+: frameEvents p buf) (op : MicroOp) :
    s.failedAfter pre op =
      { s with
        dc := lastSet .dc s.dc pre
        log := pre.reverse ++ s.log
        env := s.env.advance (microOps pre + 1) 0
        err := s.err ||| 0b0010#4
        status := some (.failed (.transport op))
        running := none
        pos := s.pos + 1 } := by
  rw [State.failedAfter, busyReads_of_prefix hpre (busyReads_frameEvents ..),
    lastSet_of_not_set fun v hv => set_rst_not_mem_frameEvents p buf v (hpre.mem hv)]

/-- Up to its wait DISPLAY_FRAME fails at the first micro-operation that does: inside the table with FB as
it was, after the table with the image in FB. -/
theorem runWork_frame_fails {s : State} {buf : List Byte} {n : Nat} (hp : s.panelSized = true)
    (hbuf : buf = pack (s.pixel .pix) panelRegion) (hn : n < microOps (frameEvents s.par buf))
    (hq : s.Quiet n) (hf : s.env.fails n = true) :
    ∃ pre op, pre <+: frameEvents s.par buf ∧ microOps pre = n ∧
      microOpAt (frameEvents s.par buf) n = some op ∧
      runWork (frameWork s.par) s =
        (if n < microOps (lutEvents s.par false) then s else s.putFb buf).failedAfter pre op := by
  rw [frameEvents_eq] at hn ⊢
  by_cases hlt : n < microOps (lutEvents s.par false)
  · obtain ⟨pre, op, hpre, hm, hop, hr⟩ := (performs_setLut false s).fails n hlt hq hf
    refine ⟨pre, op, hpre.trans (List.prefix_append ..), hm, by rw [microOpAt_append_left hlt, hop], ?_⟩
    rw [if_pos hlt, frameWork, runWork_fails (w := .lut false) _ hr]
  · obtain ⟨k, rfl⟩ := Nat.exists_eq_add_of_le (Nat.le_of_not_lt hlt)
    have hunits : (s.putFb buf).fb.units unlistedByte Config.frameBytes = buf := by
      have hlen : buf.length = Config.frameBytes := hbuf ▸ length_pack_panel _
      rw [← hlen, putFb_units]
    have htable : runWork (frameWork s.par) s =
        runWork ((frameWork s.par).drop 2) ((s.putFb buf).afterAll (lutEvents s.par false)) := by
      have henc := encode_after (es := lutEvents s.par false) (ws := (frameWork s.par).drop 2) hp
      rw [← hbuf] at henc
      rw [← henc]
      exact runWork_done (w := .lut false) (setLut_done false (hq.mono (Nat.le_add_right ..)))
    have hq' : (s.putFb buf).Quiet (microOps (lutEvents s.par false) + k) := quiet_putFb buf hq
    obtain ⟨pre, op, hpre, hm, hop, hr⟩ := runFails_image (lutEvents s.par false) hunits k
      (by rw [microOps_append] at hn; exact Nat.lt_of_add_lt_add_left hn) (quiet_afterAll _ _ hq')
      (by rw [afterAll_env, fails_advance]; exact hf)
    refine ⟨lutEvents s.par false ++ pre, op, (List.prefix_append_right_inj _).2 hpre,
      by rw [microOps_append, hm], (microOpAt_append_right ..).trans hop, ?_⟩
    rw [if_neg hlt, htable, ← takeException_afterAll, afterAll_append]
    exact hr

/-- Settles O55: `runWork_frame_fails` from a block that is Ready, field by field. -/
theorem displayFrameFailureIsPrecise : Obligations.DisplayFrameFailureIsPrecise := by
  intro s buf n hl hpw hph hbuf hn hq hf
  obtain ⟨pre, op, hpre, hm, hop, hr⟩ := runWork_frame_fails (panelSized_iff.2 ⟨hpw, hph⟩) hbuf hn hq hf
  refine ⟨pre, op, hpre, hm, hop, ?_⟩
  rw [exec_displayFrame_ready hl, hr, failedAfter_frame _ hpre, hm]
  split
  · rfl
  · rw [State.putFb, hbuf, length_pack_panel]

end Sys2Proof.Machine
end

section
/-! SMART_UPDATE (45_smart_update.md R130 to R136): the difference box, the fast eligibility, the three paths
of the request, and what COUNT and the cached frame are after one. -/

namespace Sys2Proof.Machine

/-! ### The difference box (R132) -/

theorem diff_eq_none_iff {s : State} :
    s.diff = none ↔ ∀ x y, x < 176 → y < 264 → pixelAt s.last 176 x y = pixelAt s.pix 176 x y := by
  refine ⟨fun h x y hx hy => ?_, fun h => diffBox_eq_none fun x hx => ?_⟩
  · by_contra hd
    exact diffBox_ne_none hx hy hd h
  · by_contra hc
    obtain ⟨y, hy, hd⟩ := columnDiffers_iff.1 (eq_true_of_ne_false hc)
    exact hd (h x y hx hy)

/-- Settles O40: a differing pixel makes a box, and without one no column differs. -/
theorem noDifferenceBoxMeansIdenticalFrames : Obligations.NoDifferenceBoxMeansIdenticalFrames :=
  fun _ => diff_eq_none_iff

/-- Any index that has a property lies between the first and the last that has it. -/
theorem filter_range_bounds {p : Nat → Bool} {n first last a : Nat}
    (hf : ((List.range n).filter p).head? = some first)
    (hl : ((List.range n).filter p).getLast? = some last) (ha : a < n) (hp : p a = true) :
    first ≤ a ∧ a ≤ last := by
  obtain ⟨-, -, hbefore⟩ := head?_filter_range hf
  obtain ⟨-, -, hafter⟩ := getLast?_filter_range hl
  refine ⟨Nat.le_of_not_lt fun hlt => ?_, Nat.le_of_not_lt fun hlt => ?_⟩
  · exact Bool.false_ne_true ((hbefore a hlt).symm.trans hp)
  · exact Bool.false_ne_true ((hafter a hlt ha).symm.trans hp)

/-- Settles O41: the columns with a difference lie between the first and the last of them, which are the
box's, and so do the rows. -/
theorem differenceBoxIsTheSmallest : Obligations.DifferenceBoxIsTheSmallest := by
  intro s b hb
  obtain ⟨hlr, hr, htb, hbot⟩ := State.diff_bounds hb
  obtain ⟨hleft, htop, ⟨c, hc, hright⟩, r, hrow, hbottom⟩ := diffBox_some hb
  obtain ⟨-, hleftDiffers, -⟩ := head?_filter_range hleft
  obtain ⟨-, htopDiffers, -⟩ := head?_filter_range htop
  obtain ⟨-, hrightDiffers, -⟩ := getLast?_filter_range hc
  obtain ⟨-, hbottomDiffers, -⟩ := getLast?_filter_range hrow
  refine ⟨hlr, hr, htb, hbot, fun x y hx hy hd => ?_, columnDiffers_iff.1 hleftDiffers, ?_,
    rowDiffers_iff.1 htopDiffers, ?_⟩
  · have hcol := filter_range_bounds hleft hc hx (columnDiffers_iff.2 ⟨y, hy, hd⟩)
    have hrows := filter_range_bounds htop hrow hy (rowDiffers_iff.2 ⟨x, hx, hd⟩)
    omega
  · rw [hright]
    exact columnDiffers_iff.1 hrightDiffers
  · rw [hbottom]
    exact rowDiffers_iff.1 hbottomDiffers

/-! ### The fast eligibility (R134) -/

/-- The indices from `l` to `r - 1` are `l` and the offsets below `r - l`. -/
theorem forall_offset_iff {l r : Nat} {P : Nat → Prop} :
    (∀ i, i < r - l → P (l + i)) ↔ ∀ x, l ≤ x → x < r → P x := by
  refine ⟨fun h x hl hr => ?_, fun h i hi => h (l + i) (Nat.le_add_right ..) (by omega)⟩
  obtain ⟨i, rfl⟩ := Nat.exists_eq_add_of_le hl
  exact h i (by omega)

theorem boxWasWhite_iff {s : State} {b : Box} :
    s.boxWasWhite b = true ↔ ∀ x, b.left ≤ x → x < b.right → ∀ y, b.top ≤ y → y < b.bottom →
      pixelAt s.last 176 x y = true := by
  simp only [State.boxWasWhite, List.all_eq_true, List.mem_range]
  rw [forall_offset_iff (P := fun x => ∀ j, j < b.bottom - b.top → s.pixel .last x (b.top + j) = true)]
  exact forall₃_congr fun x _ _ => forall_offset_iff (P := fun y => s.pixel .last x y = true)

/-- Settles O43: the pixels that are looked at are those of the box. -/
theorem fastEligibilityReadsTheOldFrame : Obligations.FastEligibilityReadsTheOldFrame := by
  intro s b
  rw [State.eligible, Bool.and_eq_true, boxWasWhite_iff]
  exact and_congr_right' ⟨fun h x y hl hr => h x hl hr y, fun h x hl hr y => h x y hl hr⟩

/-! ### The paths of SMART_UPDATE (R131) -/

/-- Settles O44: where DISPLAY_FRAME is refused so is SMART_UPDATE, and else the test of HAVE_LAST and COUNT
comes before the image is looked at. -/
theorem smartUpdateFullPath : Obligations.SmartUpdateFullPath := by
  intro s h
  by_cases hl : s.lifecycle.displayRefused = true
  · exact (if_pos hl : execSmartUpdate s = _).trans (exec_displayFrame_refused hl).symm
  · exact (if_neg hl : execSmartUpdate s = _).trans (if_pos h)

/-- With a cached frame and COUNT not at the limit the image decides. -/
theorem exec_smartUpdate_cached {s : State} (hl : s.lifecycle.displayRefused = false)
    (hc : s.haveLast = true) (hn : s.count ≠ s.cfgLimit) :
    exec .smartUpdate s =
      if s.panelSized = false then .refused .imageNotPanelSized
      else s.diff.elim (.next (complete s)) fun b => displayPartial (s.eligible b) b.rect s := by
  show execSmartUpdate s = _
  rw [execSmartUpdate, if_neg (ne_true_of_eq_false hl), if_neg (not_or.2 ⟨ne_false_of_eq_true hc, hn⟩)]
  cases s.diff with
  | none => rfl
  | some b => rfl

/-- The block may display, and its cached frame is the image the host presents. -/
structure State.UpToDate (s : State) : Prop where
  admitted : s.lifecycle.displayRefused = false
  cached : s.haveLast = true
  panelSized : s.panelSized = true
  identical : s.diff = none

/-- With nothing to show the request completes at once (90_conflicts.md C6). -/
theorem State.UpToDate.exec_smartUpdate {s : State} (h : s.UpToDate) (hn : s.count ≠ s.cfgLimit) :
    exec .smartUpdate s = .next (complete s) := by
  rw [exec_smartUpdate_cached h.admitted h.cached hn, if_neg (ne_false_of_eq_true h.panelSized), h.identical]
  rfl

/-- Settles O45, from the two ends of the cached path at which nothing is sent. -/
theorem smartUpdateOfAnIdenticalImageDoesNothing :
    Obligations.SmartUpdateOfAnIdenticalImageDoesNothing := by
  intro s hl hc hn
  have hadm : s.lifecycle.displayRefused = false := by
    rcases hl with h | h
    · rw [h]; rfl
    · rw [h]; rfl
  refine ⟨fun hpw hph himg => ?_, fun hp => ?_⟩
  · have hup : s.UpToDate := ⟨hadm, hc, panelSized_iff.2 ⟨hpw, hph⟩, diff_eq_none_iff.2 himg⟩
    exact hup.exec_smartUpdate hn
  · rw [exec_smartUpdate_cached hadm hc hn, if_pos (panelSized_eq_false hp)]

/-- The rectangle of a difference box is aligned and in the panel, so none of DISPLAY_PARTIAL's tests
refuses it. -/
theorem exec_smartUpdate_differing {s : State} {b : Box} (hl : s.lifecycle = .ready)
    (hc : s.haveLast = true) (hn : s.count ≠ s.cfgLimit) (hp : s.panelSized = true)
    (hb : s.diff = some b) :
    exec .smartUpdate s = .next (runWork (partialWork s.par (s.eligible b) b.rect) s) := by
  obtain ⟨-, -, -, -, -, -, -, hx, -, -, hy, -, -, halign⟩ := refreshRectangleCoversTheBox s b hb
  rw [exec_smartUpdate_cached (by rw [hl]; rfl) hc hn, if_neg (ne_false_of_eq_true hp), hb,
    Option.elim_some, displayPartial, if_neg (not_not.2 hl), if_neg (ne_false_of_eq_true hc),
    if_neg (ne_false_of_eq_true hp), halign, if_neg (not_or.2 ⟨hx.not_gt, hy.not_gt⟩)]

/-- Settles O46: `polls_partial` for the rectangle of the box. -/
theorem smartUpdatePartialPath : Obligations.SmartUpdatePartialPath := by
  rintro s b _ _ _ p hl hc hn hpw hph hb rfl rfl rfl hq hi hbound
  exact ⟨_, exec_smartUpdate_differing hl hc hn (panelSized_iff.2 ⟨hpw, hph⟩) hb,
    polls_partial rfl rfl hq hi hbound⟩

/-! ### COUNT over a series of updates (R135) -/

/-- An update that finds a difference commits through DISPLAY_PARTIAL. -/
theorem differing_smartUpdate {s t : State} (hc : s.haveLast = true) (hn : s.count ≠ s.cfgLimit)
    (hd : s.diff ≠ none) (h : Ends .smartUpdate s t) (hok : t.status = some .ok) :
    t.count = s.count + 1 ∧ t.haveLast = true ∧ t.cfgLimit = s.cfgLimit := by
  rcases smartUpdate_ends h with ⟨hfull, -⟩ | ⟨-, -, -, hnone, -⟩ | ⟨b, u, -, -, -, -, -, -, hrun⟩
  · exact absurd hfull (not_or.2 ⟨ne_false_of_eq_true hc, hn⟩)
  · exact absurd hnone hd
  · rcases endsRun_partial hrun with ⟨e, v, rfl, -⟩ | ⟨v, hv, rfl⟩
    · simp at hok
    · exact ⟨congrArg (· + 1) hv.count, rfl, hv.cfgLimit⟩

/-- Below the limit every differing update adds one to COUNT. -/
theorem DifferingUpdates.count {n : Nat} {s t : State} (h : DifferingUpdates n s t)
    (hc : s.haveLast = true) (hn : s.count + n ≤ s.cfgLimit) :
    t.count = s.count + n ∧ t.haveLast = true ∧ t.cfgLimit = s.cfgLimit := by
  induction n generalizing s with
  | zero =>
    cases h
    exact ⟨rfl, hc, rfl⟩
  | succ n ih =>
    obtain ⟨regs, pix, u, hd, hends, hok, hrest⟩ := h
    have hbelow : s.count ≠ s.cfgLimit := by omega
    obtain ⟨hcount, hcached, hlimit⟩ :=
      differing_smartUpdate (s := { s with regs := regs, pix := pix }) hc hbelow hd hends hok
    dsimp only at hcount hlimit
    obtain ⟨hcount', hcached', hlimit'⟩ := ih hrest hcached (by omega)
    exact ⟨by omega, hcached', hlimit'.trans hlimit⟩

/-- Settles O47: COUNT has reached the limit, which is the condition of the full path. -/
theorem burnInBound : Obligations.BurnInBound := by
  intro n s t h0 hc hn h
  obtain ⟨hcount, -, hlimit⟩ := h.count hc (by omega)
  refine ⟨by omega, fun hlim regs pix => smartUpdateFullPath _ (.inr ?_)⟩
  show t.count = t.cfgLimit
  omega

/-! ### A second update (R136) -/

/-- After a commit LAST is the image itself. -/
theorem diff_commit (s : State) (n : Nat) : (s.commit n).diff = none := by
  refine diff_eq_none_iff.2 fun x y hx hy => ?_
  rw [pixelAt, pixelAt, commit_last, commit_pix, read_front, if_pos]
  show x + y * 176 < 46464
  omega

/-- A display request that completes by its commit leaves an up-to-date block. -/
theorem upToDate_of_commit {s v : State} (hk : ControlKept (s.setLifecycle .ready) v)
    (hp : s.panelSized = true) (n : Nat) : (complete (v.commit n)).UpToDate where
  admitted := by
    rw [complete_lifecycle, commit_lifecycle, hk.lifecycle]
    rfl
  cached := rfl
  panelSized := by
    rw [State.panelSized, complete_regs, commit_regs, hk.regs]
    exact hp
  identical := diff_commit v n

/-- Whichever path a completed update took, LAST is the image: it was, or it has been committed. -/
theorem smartUpdate_upToDate {s t : State} (h : Ends .smartUpdate s t) (hok : t.status = some .ok) :
    t.UpToDate := by
  rcases smartUpdate_ends h with ⟨-, ⟨u, hu⟩, hrun⟩ | ⟨hc, -, hp, hd, hl, rfl⟩ |
    ⟨b, u, -, -, hp, -, hl, -, hrun⟩
  · rcases displayFrame_ends hu hrun with ⟨hl, hend⟩ | ⟨-, hend⟩
    · rcases hend with ⟨e, v, rfl, -⟩ | ⟨v, hv, hp, rfl⟩
      · simp at hok
      · exact upToDate_of_commit ((setLifecycle_self hl).symm ▸ hv) hp 0
    · rcases hend with ⟨e, v, rfl, -⟩ | ⟨v, hv, hp, rfl⟩
      · simp at hok
      · exact upToDate_of_commit hv hp 0
  · exact ⟨hl, hc, hp, hd⟩
  · rcases endsRun_partial hrun with ⟨e, v, rfl, -⟩ | ⟨v, hv, rfl⟩
    · simp at hok
    · exact upToDate_of_commit ((setLifecycle_self hl).symm ▸ hv) hp _

/-- Completing an ended request that was OK moves the position only. -/
theorem complete_of_ended {t : State} (hok : t.status = some .ok) (hr : t.running = none) :
    complete t = { t with pos := t.pos + 1 } := by
  rw [complete, ← hok, ← hr]

/-- Settles O48: the first update leaves an up-to-date block, for which the second does nothing. -/
theorem secondSmartUpdateDoesNothing : Obligations.SecondSmartUpdateDoesNothing := by
  intro s t h hok hn
  have hr : t.running = none := by
    obtain ⟨-, -, -, -, hr⟩ := h
    exact hr
  rw [(smartUpdate_upToDate h hok).exec_smartUpdate hn, complete_of_ended hok hr]

end Sys2Proof.Machine
end

section
/-! The exceptions (60_exceptions.md R140 to R146, R157): the idle block, IllegalRequest, BusyTimeout at its
bound, and which request raises which exception. -/

namespace Sys2Proof.Machine

/-! ### The idle block (R157) and the illegal word (R144) -/

/-- Settles O7: nothing runs and nothing is presented, so the step has nothing to take. -/
theorem idleBlockKeepsAllItsState : Obligations.IdleBlockKeepsAllItsState := by
  intro s hr hh
  rw [step, hr]
  simp only [hh]

/-- A word that no row covers does not decode, and so raises IllegalRequest. -/
theorem present_of_illegal {w : Word} (hw : legalWord w = false) (s : State) :
    present w s = .next (takeException (.illegalRequest w) s) := by
  obtain ⟨hlegal, -⟩ := legalWordsDecodeToTheirRow w
  cases hd : decode w with
  | ok i => simp [hlegal.2 ⟨i, hd⟩] at hw
  | error e => rw [present, hd]

/-- Settles O3: the exception's ERR bit is bit 3, and no request was running. -/
theorem illegalWordRaisesIllegalRequest : Obligations.IllegalWordRaisesIllegalRequest := by
  intro s w rest hr hh hw
  rw [step_request hr hh, present_of_illegal hw, takeException, ← hr]
  rfl

/-! ### BusyTimeout (R143) -/

/-- Settles O17: the first `n` busy readings are rounds of `polls_of_busy`, and the next one is the poll at
the bound of O18. -/
theorem busyTimeoutAtTheBound : Obligations.BusyTimeoutAtTheBound := by
  intro s n hw hq hl
  set es := (List.replicate n [Event.rd s.par.busyLevel, .slp 50]).flatten with hes
  set v := holdRequest [.wait (0 + n)] ((holdRequest [.wait 0] s).afterAll es) with hv
  have henv : v.env = s.env.advance n n := by
    rw [hv, holdRequest_env, afterAll_env, hes, microOps_busy, busyReads_busy, holdRequest_env]
  have hpar : v.par = s.par := by simp [hv]
  have hbound : v.waitBound = some (n + 1) := by simp [hv, hw]
  obtain ⟨-, hpoll⟩ := pollOfARunningRequest
  obtain ⟨-, -, -, htimeout⟩ := hpoll v (0 + n) [] rfl
  have hlast := htimeout (by rw [henv, fails_advance]; exact hq n (by omega))
    (by rw [henv, level_advance, hpar]; exact hl n (by omega)) (by simp [hbound, boundReached])
  have hbelow : boundReached s.waitBound (0 + n) = false := by simp [hw, boundReached]
  have hpolls := polls_of_busy [] n (s := holdRequest [.wait 0] s) rfl rfl (hq.mono (by omega))
    (fun k hk => hl k (by omega)) hbelow (k := 1) ⟨Option.some_ne_none _, _, hlast, rfl⟩
  refine ⟨runWork [.wait 0] s, rfl, ?_⟩
  convert polls_held hpolls using 1
  simp [hv, hes, holdRequest, afterAll_eq, microOps_busy, busyReads_busy, lastSet_busy]

/-! ### Which request raises which exception (R140 to R144) -/

/-- The requests that may come to an ENCODE. -/
def Encodes (i : Instr) (s : State) : Prop :=
  i = .encode ∨ i = .displayFrame ∨ (i = .smartUpdate ∧ (s.haveLast = false ∨ s.count = s.cfgLimit))

/-- The requests that may come to a WAIT_IDLE. -/
def Waits (i : Instr) (s : State) : Prop :=
  i = .waitIdle ∨ (i = .init ∧ .wait ∈ s.par.initScript) ∨ i = .displayFrame ∨
    (∃ fast, i = .displayPartial fast) ∨ i = .smartUpdate

/-- The micro-operations that a request may perform, and so may fail in. -/
def MayFailIn (i : Instr) (s : State) (op : MicroOp) : Prop :=
  match i with
  | .sendCommand _ => op = .setLineDc ∨ op = .writeByte
  | .sendData _ => op = .setLineDc ∨ op = .writeByte
  | .reset => op = .setLineRst
  | .waitIdle => op = .readLineBusy
  | .encode => False
  | .encodeRegion _ => False
  | .init => op = .readLineBusy → .wait ∈ s.par.initScript
  | .sleep => op = .setLineDc ∨ op = .writeByte
  | .setLut _ => op = .setLineDc ∨ op = .writeByte
  | .displayFrame => op = .setLineRst → s.lifecycle = .uninitialized
  | .displayPartial _ => op ≠ .setLineRst
  | .smartUpdate => op = .setLineRst → s.lifecycle = .uninitialized

theorem Waits.mayFailIn {i : Instr} {s : State} (h : Waits i s) : MayFailIn i s .readLineBusy := by
  rcases h with rfl | ⟨rfl, hscript⟩ | rfl | ⟨fast, rfl⟩ | rfl
  · exact rfl
  · exact fun _ => hscript
  · exact nofun
  · exact nofun
  · exact nofun

/-- A line that the request `i`, started in `s`, may come to: a WAIT_IDLE has gone round only below the
bound. -/
def AdmittedIn (i : Instr) (s : State) : Work → Prop
  | .wait n => Waits i s ∧ (n = 0 ∨ boundReached s.waitBound n = false)
  | .encode => Encodes i s
  | w => ∀ op ∈ w.ops, MayFailIn i s op

section
variable {i : Instr} {s : State}

theorem AdmittedIn.mayFailIn {w : Work} (h : AdmittedIn i s w) {op : MicroOp} (hop : op ∈ w.ops) :
    MayFailIn i s op := by
  cases w with
  | wait n =>
    obtain ⟨hwaits, -⟩ := h
    obtain rfl : op = .readLineBusy := List.mem_singleton.1 hop
    exact hwaits.mayFailIn
  | encode => cases hop
  | _ => exact h op hop

/-! ### The lines of the requests -/

theorem initWork_admitted (hsend : ∀ op ∈ frameOps, MayFailIn i s op) (hrst : MayFailIn i s .setLineRst)
    (hwait : .wait ∈ s.par.initScript → Waits i s) : ∀ w ∈ initWork s.par, AdmittedIn i s w := by
  have hscript : ∀ item ∈ s.par.initScript, AdmittedIn i s (scriptWork item) := by
    intro item hitem
    cases item with
    | cmd b => exact hsend
    | dat b => exact hsend
    | wait => exact ⟨hwait hitem, .inl rfl⟩
    | delay ms => exact nofun
  simp only [initWork, List.forall_mem_append, List.forall_mem_cons, List.forall_mem_map]
  exact ⟨⟨⟨nofun, List.forall_mem_singleton.2 hrst, nofun⟩, hscript⟩, hsend, nofun, nofun⟩

theorem frameWork_admitted (hsend : ∀ op ∈ frameOps, MayFailIn i s op) (henc : Encodes i s)
    (hwait : Waits i s) (p : Params) : ∀ w ∈ frameWork p, AdmittedIn i s w := by
  simp only [frameWork, List.forall_mem_cons]
  exact ⟨hsend, henc, hsend, hsend, hsend, hsend, hsend, ⟨hwait, .inl rfl⟩, nofun, nofun⟩

theorem partialWork_admitted (hsend : ∀ op ∈ frameOps, MayFailIn i s op) (hwait : Waits i s) (p : Params)
    (fast : Bool) (r : Region) : ∀ w ∈ partialWork p fast r, AdmittedIn i s w := by
  have hlut : ∀ c : Bool, ∀ w ∈ (if fast then [Work.lut c] else []), AdmittedIn i s w := by
    intro c
    cases fast
    · exact nofun
    · exact List.forall_mem_singleton.2 hsend
  simp only [partialWork, List.forall_mem_append, List.forall_mem_cons]
  exact ⟨⟨⟨hlut true, hsend, hsend, nofun, hsend, hsend, hsend, nofun, hsend, hsend, hsend,
    ⟨hwait, .inl rfl⟩, nofun⟩, hlut false⟩, nofun, nofun⟩

/-- DISPLAY_FRAME, also as SMART_UPDATE's full path, drives RST in its lazy INIT only. -/
theorem displayFrameWork_admitted (henc : Encodes i s) (hwait : Waits i s)
    (hop : ∀ op, (op = .setLineRst → s.lifecycle = .uninitialized) → MayFailIn i s op) :
    ∀ w ∈ displayFrameWork s, AdmittedIn i s w := by
  have hsend : ∀ op ∈ frameOps, MayFailIn i s op := by
    intro op hmem
    refine hop op fun h => ?_
    subst h
    simp at hmem
  have hframe := frameWork_admitted hsend henc hwait s.par
  unfold displayFrameWork
  split
  · exact List.forall_mem_append.2 ⟨initWork_admitted hsend (hop _ fun _ => ‹_›) fun _ => hwait, hframe⟩
  · exact hframe

/-! ### From the lines to the exceptions -/

/-- A request that ends has come to lines that it admits. -/
theorem ends_admitted {t : State} (h : Ends i s t) :
    ∃ ws, EndsRun ws s t ∧ ∀ w ∈ ws, AdmittedIn i s w := by
  have oneLine : ∀ w : Work, AdmittedIn i s w → exec i s = .next (runWork [w] s) →
      ∃ ws, EndsRun ws s t ∧ ∀ w ∈ ws, AdmittedIn i s w :=
    fun w hw hi => ⟨[w], (ends_iff hi).1 h, List.forall_mem_singleton.2 hw⟩
  have hframe : ∀ op ∈ frameOps, op = .setLineDc ∨ op = .writeByte := by simp
  cases i with
  | sendCommand b => exact oneLine (.command b) hframe rfl
  | sendData b => exact oneLine (.data b) hframe rfl
  | reset => exact oneLine .resetPulse (List.forall_mem_singleton.2 rfl) rfl
  | waitIdle => exact oneLine (.wait 0) ⟨.inl rfl, .inl rfl⟩ rfl
  | encode => exact oneLine .encode (.inl rfl) rfl
  | encodeRegion src =>
    obtain ⟨u, hu⟩ := exec_of_ends h
    obtain ⟨x, y, n, w, hrun⟩ := encodeRegion_run hu
    exact oneLine (.packRegion src x y n w) nofun hrun
  | init =>
    have hsend : ∀ op ∈ frameOps, MayFailIn .init s op := by simp [MayFailIn]
    exact ⟨_, (ends_iff (i := .init) rfl).1 h,
      initWork_admitted hsend nofun fun hscript => .inr (.inl ⟨rfl, hscript⟩)⟩
  | sleep =>
    refine ⟨_, (ends_iff (exec_sleep_ready (ready_of_sleep_ends h))).1 h, ?_⟩
    simp only [sleepWork, List.forall_mem_cons]
    exact ⟨hframe, hframe, nofun, nofun⟩
  | setLut fast => exact oneLine (.lut fast) hframe rfl
  | displayFrame =>
    obtain ⟨u, hu⟩ := exec_of_ends h
    exact ⟨_, (ends_iff (i := .displayFrame) (displayFrame_run hu)).1 h,
      displayFrameWork_admitted (.inr (.inl rfl)) (.inr (.inr (.inl rfl))) fun _ hop => hop⟩
  | displayPartial fast =>
    obtain ⟨u, hu⟩ := exec_of_ends h
    have hsend : ∀ op ∈ frameOps, MayFailIn (.displayPartial fast) s op := by simp [MayFailIn]
    exact ⟨_, (ends_iff (i := .displayPartial fast) (displayPartial_run hu)).1 h,
      partialWork_admitted hsend (.inr (.inr (.inr (.inl ⟨fast, rfl⟩)))) _ _ _⟩
  | smartUpdate =>
    have hwait : Waits .smartUpdate s := .inr (.inr (.inr (.inr rfl)))
    have hsend : ∀ op ∈ frameOps, MayFailIn .smartUpdate s op := by simp [MayFailIn]
    rcases smartUpdate_ends h with ⟨hfull, -, hrun⟩ | ⟨-, -, -, -, -, ht⟩ | ⟨b, u, -, -, -, -, -, -, hrun⟩
    · exact ⟨_, hrun, displayFrameWork_admitted (.inr (.inr ⟨rfl, hfull⟩)) hwait fun _ hop => hop⟩
    · exact ⟨[], endsRun_nil.2 ht, nofun⟩
    · exact ⟨_, hrun, partialWork_admitted hsend hwait _ _ _⟩

/-- The line that raised the exception a request ends in is one that the request admits, at a state in which
what no request writes is as it was. -/
theorem ends_raises {t : State} {e : Exc} (h : Ends i s t) (ht : t.status = some (.failed e)) :
    ∃ w u u', AdmittedIn i s w ∧ KeptByRequests s u ∧ w.perform u = .raised e u' := by
  obtain ⟨ws, hrun, hadm⟩ := ends_admitted h
  obtain ⟨w, u, u', hmem | ⟨⟨k, hk⟩, n, rfl, hbound⟩, hkept, hw⟩ := endsRun_raises hrun ht
  · exact ⟨w, u, u', hadm w hmem, hkept, hw⟩
  · obtain ⟨hwaits, -⟩ := hadm _ hk
    exact ⟨.wait n, u, u', ⟨hwaits, .inr hbound⟩, hkept, hw⟩

/-- The first busy reading at which the bound is reached is the one whose number it is; a bound of 0 acts as
1 (log 21). -/
theorem eq_max_of_boundReached {bound : Option Nat} {n : Nat} (hbefore : n = 0 ∨ boundReached bound n = false)
    (hreached : boundReached bound (n + 1) = true) : ∃ b, bound = some b ∧ n + 1 = max b 1 := by
  cases bound with
  | none => cases hreached
  | some b =>
    simp only [boundReached, decide_eq_false_iff_not, decide_eq_true_eq] at hbefore hreached
    exact ⟨b, rfl, by omega⟩

end

/-- Settles O52, from the line that raised the exception: TransportError in a micro-operation of it,
BusyTimeout in a poll, DimensionError in an ENCODE. -/
theorem exceptionsOfEachRequest : Obligations.ExceptionsOfEachRequest := by
  intro i s t e h ht
  obtain ⟨w, u, u', hadm, hkept, hw⟩ := ends_raises h ht
  rcases perform_raises hw with ⟨op, hop, rfl⟩ | ⟨n, rfl, rfl, hbound⟩ | ⟨rfl, rfl, hsize⟩
  · exact hadm.mayFailIn hop
  · obtain ⟨hwaits, hbefore⟩ := hadm
    rw [hkept.waitBound] at hbound
    exact ⟨eq_max_of_boundReached hbefore hbound, hwaits⟩
  · have hpanel : ¬ u.panelSized = true := ne_true_of_eq_false hsize
    rw [panelSized_iff, hkept.regs] at hpanel
    rw [hkept.regs]
    exact ⟨rfl, rfl, hpanel, hadm⟩

end Sys2Proof.Machine
end
